-- ==== Sys2Proof/Word.lean ====
section
/-!
DEFINITION. The bit-vector types of the host port: the 32-bit command word (spec/30_encoding.md R64),
the 6-bit register address (spec/20_memory.md R47) and the byte (R54).

Registers whose width is a parameter of the configuration hold natural numbers, as the spec has them
(spec/00_scope.md R12, spec/10_state.md R29); only STATUS, CMD words and addresses, whose widths are
fixed and which are read as fields of bits, are bit vectors
(DESIGN CHOICE, log entry 5).
-/

namespace Sys2Proof

/-- A 32-bit command word, and the 32-bit STATUS register. -/
abbrev Word := BitVec 32

/-- An address of the 6-bit register space. -/
abbrev Addr := BitVec 6

/-- Eight bits: an opcode, LAST_OP, a byte of a serialized register. -/
abbrev Byte := BitVec 8

end Sys2Proof
end

