-- ==== Sys2Proof/Syntax.lean ====
section
/-!
DEFINITION. The ten commands of spec/opcode_table.json (spec/30_encoding.md R66), one constructor a row.
Every operand is an implicit register (R72); LEN is the only value a command word carries (R65), and only
ENCODE, SYNDROME and DECODE carry it: for the other seven a nonzero LEN is an illegal word (R67).
-/

namespace Sys2Proof

/-- An accepted-by-opcode command: the OP and RSV checks of R67 have passed. -/
inductive Instr where
  /-- GF_ADD, R81. -/
  | gfAdd
  /-- GF_MUL, R82. -/
  | gfMul
  /-- GF_INV, R83. -/
  | gfInv
  /-- GF_POW, R84. -/
  | gfPow
  /-- ENCODE with its LEN field, R89. -/
  | encode (len : BitVec 16)
  /-- SYNDROME with its LEN field, R94. -/
  | syndrome (len : BitVec 16)
  /-- SOLVE, R101. -/
  | solve
  /-- CHIEN, R108. -/
  | chien
  /-- CORRECT, R112. -/
  | correct
  /-- DECODE with its LEN field, R114. -/
  | decode (len : BitVec 16)
deriving DecidableEq, Repr

end Sys2Proof
end

