-- ==== Sys2Proof/Decode.lean ====
section
/-!
DEFINITION. The command encoding of spec/30_encoding.md: the opcode map (R66), the decoder, total on every
32-bit word and refusing by name (R67, R70), and the encoder written from the same tables (R64, R74).
-/

namespace Sys2Proof

/-- The ten opcodes of R66, by mnemonic. -/
inductive Opcode where
  | gfAdd | gfMul | gfInv | gfPow | encode | syndrome | solve | chien | correct | decode
deriving DecidableEq, Repr

/-- Why a word names no command (R67, R122): each gives ILLEGAL_COMMAND, the checks made in this order. -/
inductive IllegalWord where
  /-- OP is none of the ten of R66. -/
  | unassignedOp
  /-- RSV is not 0. -/
  | reservedNotZero
  /-- LEN is not 0 on a command that takes no bit string. -/
  | lengthNotZero
deriving DecidableEq, Repr

/-- The OP column of R66. -/
def Opcode.byte : Opcode → Byte
  | .gfAdd => 0x01
  | .gfMul => 0x02
  | .gfInv => 0x03
  | .gfPow => 0x04
  | .encode => 0x10
  | .syndrome => 0x20
  | .solve => 0x21
  | .chien => 0x22
  | .correct => 0x23
  | .decode => 0x30

/-- The opcode an OP field names; every other value is unassigned (R70). -/
def opcodeOf? (op : Byte) : Option Opcode :=
  match op.toNat with
  | 0x01 => some .gfAdd
  | 0x02 => some .gfMul
  | 0x03 => some .gfInv
  | 0x04 => some .gfPow
  | 0x10 => some .encode
  | 0x20 => some .syndrome
  | 0x21 => some .solve
  | 0x22 => some .chien
  | 0x23 => some .correct
  | 0x30 => some .decode
  | _ => none

/-- OP, bits 7:0 of a command word (R64). -/
def opField (w : Word) : Byte := w.extractLsb' 0 8

/-- RSV, bits 15:8 (R64). -/
def rsvField (w : Word) : Byte := w.extractLsb' 8 8

/-- LEN, bits 31:16 (R64). -/
def lenField (w : Word) : BitVec 16 := w.extractLsb' 16 16

/-- A command that takes no bit string: its LEN must be 0 (R64, R67). -/
def noLength (len : BitVec 16) (i : Instr) : Except IllegalWord Instr :=
  if len = 0 then .ok i else .error .lengthNotZero

/-- Any 32-bit word is a command or is illegal, by name, with the first failing check of R67 named.
The comparison of LEN with K or N needs the configuration, and is made by the commands that carry a LEN
(`Sys2Proof.Machine.withLength`). -/
def decode (w : Word) : Except IllegalWord Instr :=
  match opcodeOf? (opField w) with
  | none => .error .unassignedOp
  | some op =>
    if rsvField w ≠ 0 then .error .reservedNotZero
    else
      match op with
      | .gfAdd => noLength (lenField w) .gfAdd
      | .gfMul => noLength (lenField w) .gfMul
      | .gfInv => noLength (lenField w) .gfInv
      | .gfPow => noLength (lenField w) .gfPow
      | .encode => .ok (.encode (lenField w))
      | .syndrome => .ok (.syndrome (lenField w))
      | .solve => noLength (lenField w) .solve
      | .chien => noLength (lenField w) .chien
      | .correct => noLength (lenField w) .correct
      | .decode => .ok (.decode (lenField w))

/-- A command word of R64: LEN, then RSV = 0, then OP. -/
def commandWord (len : BitVec 16) (op : Opcode) : Word := len ++ (0 : Byte) ++ op.byte

/-- The command word of a command (R64, R66). -/
def encode : Instr → Word
  | .gfAdd => commandWord 0 .gfAdd
  | .gfMul => commandWord 0 .gfMul
  | .gfInv => commandWord 0 .gfInv
  | .gfPow => commandWord 0 .gfPow
  | .encode len => commandWord len .encode
  | .syndrome len => commandWord len .syndrome
  | .solve => commandWord 0 .solve
  | .chien => commandWord 0 .chien
  | .correct => commandWord 0 .correct
  | .decode len => commandWord len .decode

/-- The opcode of a command (R66). -/
def Instr.opcode : Instr → Opcode
  | .gfAdd => .gfAdd
  | .gfMul => .gfMul
  | .gfInv => .gfInv
  | .gfPow => .gfPow
  | .encode _ => .encode
  | .syndrome _ => .syndrome
  | .solve => .solve
  | .chien => .chien
  | .correct => .correct
  | .decode _ => .decode

/-- The decoder's answer for a word whose low `nbits` bits are `w` and whose other bits are 0. A command
word is one 32-bit value written whole (R55, R64), so no byte order comes into it. -/
def decodeTableWord (nbits w : Nat) : Option Instr :=
  match decode (BitVec.ofNat 32 (w % 2 ^ nbits)) with
  | .ok i => some i
  | .error _ => none

end Sys2Proof
end

