-- ==== Sys2Proof/Config.lean ====
section
/-!
DEFINITION. The configuration a block is built for (spec/00_scope.md R5 to R11, spec/10_state.md R18,
spec/92_eei_decisions.md P1): fixed when the block is built, changed by no command and no host write.

There is no free value in this model: the spec leaves no result open (spec/93_implementation_defined.md).
-/

namespace Sys2Proof

/-- The parameter set (M, PRIM, T, N, K, G) of R18. Whether a block exists for it is
`Sys2Proof.Machine.refusalOf` (R19 to R25). -/
structure Config where
  /-- `M`, the field degree (R5). -/
  m : Nat
  /-- `PRIM`, the primitive polynomial; bit i is the coefficient of x^i (R6). -/
  prim : Nat
  /-- `T`, the number of correctable errors (R8). -/
  t : Nat
  /-- `N`, the code length in bits (R9). -/
  n : Nat
  /-- `K`, the message length in bits (R11). -/
  k : Nat
  /-- `G`, the generator polynomial; bit i is the coefficient of x^i (R10). -/
  g : Nat
deriving DecidableEq, Repr

/-- `Q` = 2^M - 1, the order of the multiplicative group (R7). -/
def Config.q (c : Config) : Nat := 2 ^ c.m - 1

/-- The worked instance BCH(15,7) with x^4 + x + 1, the one instance the spec's rules are worked on
(R5 to R11; configuration W of spec/95_test_vectors.md). -/
def Config.worked : Config :=
  { m := 4, prim := 0x13, t := 2, n := 15, k := 7, g := 0x1D1 }

end Sys2Proof
end

