-- ==== Sys2Proof/Machine/State.lean ====
section
/-!
DEFINITION. The state of the block and of the one host in front of it (spec/10_state.md R28, R43 to R45;
spec/20_memory.md R58), the reasons a step can stop, and the state after reset.
-/

namespace Sys2Proof.Machine

/-- One line of a host program (spec/30_encoding.md R73, R75). A command (`CMDW`, or a mnemonic of R74) is a
write to address 0x00, CMD. -/
inductive HostLine where
  /-- `RD`: HostRead(addr), R50. -/
  | read (addr : Addr)
  /-- `WR` and `CMDW`: HostWrite(addr, v), R51, for any natural number v. -/
  | write (addr : Addr) (v : Nat)
  /-- `RESET`: the reset event, R134. -/
  | reset
  /-- The macro `MOV RX, CW` of R75: a read of CW, then a write to RX of the value read. -/
  | movRxCw
  /-- The macro `INJECT p1, …, pj` of R75: a read of RX, then a write to RX of that value with the bits at
  the given positions flipped. -/
  | inject (positions : List Nat)
deriving DecidableEq, Repr

/-- Where the spec says a model must fault and not return a value. No rule of the spec reaches any of
these from a configured block, so each is safe: the machine stops where no claim is made. -/
inductive Fault where
  /-- gf_inv(0) inside a command (spec/93_implementation_defined.md I1, spec/40_gf2m_arith.md R79).
  Raised by `gfInv`. Safe. The command GF_INV on GF_A = 0 is not this case (R83). -/
  | inverseOfZero
  /-- LOG evaluated at 0 or at any other value that has no entry (I2, spec/10_state.md R27).
  Raised by `logOf`. Safe. -/
  | logNoEntry
  /-- A transaction on a state whose STATUS.CODE is one of 6 to 15 (I10, spec/92_eei_decisions.md D29).
  Raised by `hostStep`. Safe. -/
  | reservedStatusCode
deriving DecidableEq, Repr

/-- Why there is no machine, or no meaning. -/
inductive Refusal where
  /-- A command with no meaning yet, by its mnemonic. Raised by an arm of `exec` only; safe. -/
  | notModelled (mnemonic : String)
  /-- The configuration refusal `InvalidField` (spec/10_state.md R18 to R21). Raised by `build`; safe. -/
  | invalidField
  /-- The configuration refusal `ConfigurationError` (R18, R22 to R25). Raised by `build`; safe. -/
  | configurationError
deriving DecidableEq, Repr

/-- The configuration constants, the 18 stored registers of R45 under their own names, and the host's
side of the port. A register of width w holds a natural number below 2^w (R29), which
`State.RegistersInRange` (Safety.lean) says and every step keeps. -/
structure State where
  /-- The configuration the block was built for (R18); EXP, LOG and Q are functions of it (R45). -/
  cfg : Config
  /-- STATUS, 32 bits: CODE [3:0], LAST_OP [15:8], the rest reserved (R30). -/
  status : Word
  /-- MSG, K bits: the message (R35). -/
  msg : Nat
  /-- CW, N bits: the last codeword ENCODE produced (R35). -/
  cw : Nat
  /-- RX, N bits: the received word (R35). -/
  rx : Nat
  /-- CORR, N bits: the last corrected word (R35). -/
  corr : Nat
  /-- SYN1, M bits (R36). -/
  syn1 : Nat
  /-- SYN2, M bits (R36). -/
  syn2 : Nat
  /-- SYN3, M bits (R36). -/
  syn3 : Nat
  /-- SYN4, M bits (R36). -/
  syn4 : Nat
  /-- DET, M bits: the determinant (R37). -/
  det : Nat
  /-- SIGMA1, M bits: the locator coefficient σ1 (R37). -/
  sigma1 : Nat
  /-- SIGMA2, M bits: the locator coefficient σ2 (R37). -/
  sigma2 : Nat
  /-- ERRMASK, N bits: bit i is 1 iff position i is an error position (R39). -/
  errmask : Nat
  /-- ERRCNT, 16 bits: the number of zeros the last search found (R39). -/
  errcnt : Nat
  /-- GF_A, M bits (R40). -/
  gfA : Nat
  /-- GF_B, M bits (R40). -/
  gfB : Nat
  /-- GF_I, 16 bits: the unsigned exponent (R40). -/
  gfI : Nat
  /-- GF_R, M bits: the result of the field commands (R40). -/
  gfR : Nat
  /-- The model's own: the host program's lines not issued yet, the next one first (R73; DESIGN CHOICE, log
  entry 2).
  It is the host's, not a queue of the block (R52). -/
  program : List HostLine
  /-- The model's own: the values the program's reads returned, oldest first (spec/70_reset_and_hazards.md
  R146; DESIGN CHOICE, log entry 2). -/
  reads : List Nat
deriving DecidableEq, Repr

/-- A block of configuration `c` after reset: every stored register at its reset value, 0 (R44, R134), and a
host that has issued nothing. -/
def State.resetOf (c : Config) : State :=
  { cfg := c, status := 0, msg := 0, cw := 0, rx := 0, corr := 0,
    syn1 := 0, syn2 := 0, syn3 := 0, syn4 := 0, det := 0, sigma1 := 0, sigma2 := 0,
    errmask := 0, errcnt := 0, gfA := 0, gfB := 0, gfI := 0, gfR := 0,
    program := [], reads := [] }

/-- The machine right after reset, for the worked instance (DESIGN CHOICE, log entry 1: the spec names no
other instance in its rules; any other is `Sys2Proof.Machine.build`). -/
def State.reset : State := State.resetOf Config.worked

end Sys2Proof.Machine
end

