-- ==== Sys2Proof/Machine/Field.lean ====
section
/-!
DEFINITION. The EXP and LOG tables (spec/10_state.md R26, R27) and the field functions gf_add, gf_mul, gf_inv
and gf_pow (spec/40_gf2m_arith.md R76 to R80). The laws of R85 hold of these definitions, on every configuration that
passes R19 to R21: they are proved in Laws/Field.lean and Laws/GaloisField.lean.

The tables are ROM, a function of the configuration alone (R26, R45): an entry is computed where it is read (DEDUCED, log
entry 10).
-/

namespace Sys2Proof.Machine

/-- One turn of the construction loop of R26: shift left, and reduce by PRIM when bit M is 1. -/
def timesX (c : Config) (e : Nat) : Nat :=
  if (e <<< 1).testBit c.m then (e <<< 1) ^^^ c.prim else e <<< 1

/-- `EXP[i]` of R26: the value e after i turns of the construction loop. `expEntry c c.q` is the value the
loop leaves after its last turn, which R21 requires to be 1. -/
def expEntry (c : Config) : Nat → Nat
  | 0 => 1
  | i + 1 => timesX c (expEntry c i)

/-- Walks the EXP table from index `i`, whose entry is `e`, for at most `fuel` entries, for the index of `a`. -/
def logFrom (c : Config) (a : Nat) : (fuel i e : Nat) → Option Nat
  | 0, _, _ => none
  | fuel + 1, i, e => if e = a then some i else logFrom c a fuel (i + 1) (timesX c e)

/-- `LOG[a]` of R27: the index i below Q with EXP[i] = a. Zero has no entry, and a model that reads one that
does not exist faults (I2). -/
def logOf (c : Config) (a : Nat) : Except Fault Nat :=
  if a = 0 then .error .logNoEntry
  else
    match logFrom c a c.q 0 1 with
    | some i => .ok i
    | none => .error .logNoEntry

/-- `gf_add` of R77. -/
def gfAdd (a b : Nat) : Nat := a ^^^ b

/-- `gf_mul` of R78: the zero test first, then the tables. -/
def gfMul (c : Config) (a b : Nat) : Except Fault Nat :=
  if a = 0 ∨ b = 0 then .ok 0
  else do
    let la ← logOf c a
    let lb ← logOf c b
    .ok (expEntry c ((la + lb) % c.q))

/-- `gf_inv` of R79, whose precondition is a ≠ 0; the fault is I1. -/
def gfInv (c : Config) (a : Nat) : Except Fault Nat :=
  if a = 0 then .error .inverseOfZero
  else do
    let la ← logOf c a
    .ok (expEntry c ((c.q - la) % c.q))

/-- `gf_pow` of R80: α^i. -/
def gfPow (c : Config) (i : Nat) : Nat := expEntry c (i % c.q)

end Sys2Proof.Machine
end

