-- ==== Sys2Proof/Machine/Flags.lean ====
section
/-!
DEFINITION. The result codes (spec/60_exceptions.md R121), the fields of STATUS (spec/10_state.md R30), and SIGDEG,
the one register computed from others (R38).
-/

namespace Sys2Proof.Machine

/-- The result codes of R121. 6 to 15 are reserved and never produced. -/
inductive ResultCode where
  | ok | invalidLength | divisionByZero | uncorrectable | miscorrectionDetected | illegalCommand
deriving DecidableEq, Repr

/-- STATUS.CODE of a result (R121). -/
def ResultCode.value : ResultCode → BitVec 4
  | .ok => 0
  | .invalidLength => 1
  | .divisionByZero => 2
  | .uncorrectable => 3
  | .miscorrectionDetected => 4
  | .illegalCommand => 5

/-- CODE, bits 3:0 of STATUS (R30). -/
def codeField (st : Word) : BitVec 4 := st.extractLsb' 0 4

/-- LAST_OP, bits 15:8 of STATUS (R30). -/
def lastOpField (st : Word) : Byte := st.extractLsb' 8 8

/-- The reserved bits 7:4 of STATUS (R30). -/
def reservedLow (st : Word) : BitVec 4 := st.extractLsb' 4 4

/-- The reserved bits 31:16 of STATUS (R30). -/
def reservedHigh (st : Word) : BitVec 16 := st.extractLsb' 16 16

/-- STATUS with CODE and LAST_OP written and nothing else (R30). -/
def statusWith (st : Word) (code : ResultCode) (op : Byte) : Word :=
  reservedHigh st ++ op ++ reservedLow st ++ code.value

/-- SIGDEG, the declared degree of the locator (R38). -/
def sigdegOf (sigma1 sigma2 : Nat) : Nat :=
  if sigma2 ≠ 0 then 2 else if sigma1 ≠ 0 then 1 else 0

end Sys2Proof.Machine
end

