-- ==== Sys2Proof/Machine/Operands.lean ====
section
/-!
DEFINITION. The register file of spec/10_state.md R28: names, addresses, widths, access, and reading and writing a
register by name. Every operand of a command is one of these (spec/30_encoding.md R72).
-/

namespace Sys2Proof.Machine

/-- The 24 registers of R28. -/
inductive Reg where
  | cmd | status | cfgMt | cfgNk | cfgPrim | cfgGen
  | msg | cw | rx | corr
  | syn1 | syn2 | syn3 | syn4 | det | sigma1 | sigma2 | sigdeg | errmask | errcnt
  | gfA | gfB | gfI | gfR
deriving DecidableEq, Repr

/-- The access column of R28. -/
inductive Access where
  /-- W: the host may write; reads give 0. -/
  | writeOnly
  /-- R: the host may read. -/
  | readOnly
  /-- R, C: a constant the host may read. -/
  | constant
  /-- RW: the host may read and write. -/
  | readWrite
deriving DecidableEq, Repr

/-- The address column of R28. -/
def addrOf : Reg → Addr
  | .cmd => 0x00
  | .status => 0x01
  | .cfgMt => 0x02
  | .cfgNk => 0x03
  | .cfgPrim => 0x04
  | .cfgGen => 0x05
  | .msg => 0x10
  | .cw => 0x11
  | .rx => 0x12
  | .corr => 0x13
  | .syn1 => 0x20
  | .syn2 => 0x21
  | .syn3 => 0x22
  | .syn4 => 0x23
  | .det => 0x24
  | .sigma1 => 0x25
  | .sigma2 => 0x26
  | .sigdeg => 0x27
  | .errmask => 0x28
  | .errcnt => 0x29
  | .gfA => 0x30
  | .gfB => 0x31
  | .gfI => 0x32
  | .gfR => 0x33

/-- The register an address names; `none` where it is unmapped (spec/20_memory.md R47, R49). -/
def regAt? (a : Addr) : Option Reg :=
  match a.toNat with
  | 0x00 => some .cmd
  | 0x01 => some .status
  | 0x02 => some .cfgMt
  | 0x03 => some .cfgNk
  | 0x04 => some .cfgPrim
  | 0x05 => some .cfgGen
  | 0x10 => some .msg
  | 0x11 => some .cw
  | 0x12 => some .rx
  | 0x13 => some .corr
  | 0x20 => some .syn1
  | 0x21 => some .syn2
  | 0x22 => some .syn3
  | 0x23 => some .syn4
  | 0x24 => some .det
  | 0x25 => some .sigma1
  | 0x26 => some .sigma2
  | 0x27 => some .sigdeg
  | 0x28 => some .errmask
  | 0x29 => some .errcnt
  | 0x30 => some .gfA
  | 0x31 => some .gfB
  | 0x32 => some .gfI
  | 0x33 => some .gfR
  | _ => none

/-- The width column of R28, in bits. -/
def widthOf (c : Config) : Reg → Nat
  | .cmd => 32
  | .status => 32
  | .cfgMt => 32
  | .cfgNk => 32
  | .cfgPrim => 32
  | .cfgGen => c.n - c.k + 1
  | .msg => c.k
  | .cw => c.n
  | .rx => c.n
  | .corr => c.n
  | .syn1 => c.m
  | .syn2 => c.m
  | .syn3 => c.m
  | .syn4 => c.m
  | .det => c.m
  | .sigma1 => c.m
  | .sigma2 => c.m
  | .sigdeg => 2
  | .errmask => c.n
  | .errcnt => 16
  | .gfA => c.m
  | .gfB => c.m
  | .gfI => 16
  | .gfR => c.m

/-- The access column of R28. -/
def accessOf : Reg → Access
  | .cmd => .writeOnly
  | .status => .readOnly
  | .cfgMt => .constant
  | .cfgNk => .constant
  | .cfgPrim => .constant
  | .cfgGen => .constant
  | .msg => .readWrite
  | .cw => .readOnly
  | .rx => .readWrite
  | .corr => .readOnly
  | .syn1 => .readWrite
  | .syn2 => .readWrite
  | .syn3 => .readWrite
  | .syn4 => .readWrite
  | .det => .readOnly
  | .sigma1 => .readWrite
  | .sigma2 => .readWrite
  | .sigdeg => .readOnly
  | .errmask => .readWrite
  | .errcnt => .readOnly
  | .gfA => .readWrite
  | .gfB => .readWrite
  | .gfI => .readWrite
  | .gfR => .readOnly

/-- CFG_MT (R31): M in bits 4:0, T in bits 11:8. -/
def cfgMtOf (c : Config) : Nat := c.m ||| (c.t <<< 8)

/-- CFG_NK (R32): N in bits 15:0, K in bits 31:16. -/
def cfgNkOf (c : Config) : Nat := c.n ||| (c.k <<< 16)

/-- The value the host reads from a register (spec/20_memory.md R50): CMD reads 0, SIGDEG is computed (R38), the
CFG registers are constants (R31 to R34). -/
def readReg (s : State) : Reg → Nat
  | .cmd => 0
  | .status => s.status.toNat
  | .cfgMt => cfgMtOf s.cfg
  | .cfgNk => cfgNkOf s.cfg
  | .cfgPrim => s.cfg.prim
  | .cfgGen => s.cfg.g
  | .msg => s.msg
  | .cw => s.cw
  | .rx => s.rx
  | .corr => s.corr
  | .syn1 => s.syn1
  | .syn2 => s.syn2
  | .syn3 => s.syn3
  | .syn4 => s.syn4
  | .det => s.det
  | .sigma1 => s.sigma1
  | .sigma2 => s.sigma2
  | .sigdeg => sigdegOf s.sigma1 s.sigma2
  | .errmask => s.errmask
  | .errcnt => s.errcnt
  | .gfA => s.gfA
  | .gfB => s.gfB
  | .gfI => s.gfI
  | .gfR => s.gfR

/-- The state with a value stored in a host-writable register; a register the host may not write is left as
it is (spec/20_memory.md R51). -/
def storeReg (s : State) (r : Reg) (v : Nat) : State :=
  match r with
  | .msg => { s with msg := v }
  | .rx => { s with rx := v }
  | .syn1 => { s with syn1 := v }
  | .syn2 => { s with syn2 := v }
  | .syn3 => { s with syn3 := v }
  | .syn4 => { s with syn4 := v }
  | .sigma1 => { s with sigma1 := v }
  | .sigma2 => { s with sigma2 := v }
  | .errmask => { s with errmask := v }
  | .gfA => { s with gfA := v }
  | .gfB => { s with gfB := v }
  | .gfI => { s with gfI := v }
  | .cmd | .status | .cfgMt | .cfgNk | .cfgPrim | .cfgGen | .cw | .corr | .det | .sigdeg | .errcnt | .gfR => s

end Sys2Proof.Machine
end

