-- ==== Sys2Proof/Machine/Poly.lean ====
section
/-!
DEFINITION. Binary polynomials as natural numbers, bit i the coefficient of x^i (spec/00_scope.md R12): the
product of spec/10_state.md R24 and the long division of spec/41_encoder.md R87.
-/

namespace Sys2Proof.Machine

/-- deg(p), the index of the highest 1 bit, for p ≠ 0 (R87). -/
def degree (p : Nat) : Nat := p.log2

/-- `poly_mul` of R24: shift and XOR, one turn for each of the low `count` bits of `q`. -/
def polyMulBits (p q : Nat) : Nat → Nat
  | 0 => 0
  | i + 1 => if q.testBit i then polyMulBits p q i ^^^ (p <<< i) else polyMulBits p q i

/-- `poly_mul(p, q)` of R24. -/
def polyMul (p q : Nat) : Nat := polyMulBits p q (degree q + 1)

/-- The loop of R87 on the quotient `q` and the remainder `r`, at most `fuel` turns. -/
def divLoop (g : Nat) : (fuel q r : Nat) → Nat × Nat
  | 0, q, r => (q, r)
  | fuel + 1, q, r =>
    if r ≠ 0 ∧ degree g ≤ degree r then
      divLoop g fuel (q ||| (1 <<< (degree r - degree g))) (r ^^^ (g <<< (degree r - degree g)))
    else (q, r)

/-- `poly_divmod(p, g)` of R87: (quotient, remainder). The loop makes at most deg(p) - deg(g) + 1 turns, so
deg(p) + 1 turns are enough. -/
def polyDivmod (p g : Nat) : Nat × Nat := divLoop g (degree p + 1) 0 p

end Sys2Proof.Machine
end

