-- ==== Sys2Proof/Machine/Ops.lean ====
section
/-!
DEFINITION. The operations the commands share: how a command ends (`finish`, spec/00_scope.md R16, which stands
where another machine takes an exception, spec/60_exceptions.md R128), the length check of spec/30_encoding.md R67,
and the evaluation, the solver and the root search that the single commands and DECODE use.

There is no return from an exception (R129): the block is ready for the next command after every code.
-/

namespace Sys2Proof.Machine

/-- The outcome of one step of this machine. -/
abbrev Result := Host.Outcome State Fault Refusal

/-- `finish(code)` of R16: writes STATUS.CODE and STATUS.LAST_OP and nothing else. -/
def finish (code : ResultCode) (op : Byte) (s : State) : State :=
  { s with status := statusWith s.status code op }

/-- The end of a command: the next state is `s` with STATUS written (R16, R128). -/
def done (code : ResultCode) (op : Opcode) (s : State) : Result :=
  .next (finish code op.byte s)

/-- Goes on with a computed value; a fault of the field functions stops the machine (I1, I2). -/
def attempt {α : Type} (x : Except Fault α) (k : α → Result) : Result :=
  match x with
  | .ok v => k v
  | .error f => .fault f

/-- The length check of R67: any LEN but the needed one ends the command with INVALID_LENGTH before any
register but STATUS changes (R69, R123). -/
def withLength (len : BitVec 16) (need : Nat) (op : Opcode) (s : State) (k : Result) : Result :=
  if len.toNat = need then k else done .invalidLength op s

/-- Bit j of a word as a field element, 0 or 1 (spec/42_syndrome.md R93). -/
def bitOf (v j : Nat) : Nat := if v.testBit j then 1 else 0

/-- The Horner loop of R93 over bits j-1 downto 0 of `v`, from the accumulator `acc`. -/
def hornerFrom (c : Config) (v a : Nat) : (j acc : Nat) → Except Fault Nat
  | 0, acc => .ok acc
  | j + 1, acc => do
    let p ← gfMul c acc a
    hornerFrom c v a j (gfAdd p (bitOf v j))

/-- `poly_eval(v, w, a)` of R93: the binary polynomial `v` of width `w` at the field element `a`. -/
def polyEval (c : Config) (v w a : Nat) : Except Fault Nat := hornerFrom c v a w 0

/-- The four syndromes S_1 to S_4 of a word (spec/42_syndrome.md R94). -/
structure Syndromes where
  s1 : Nat
  s2 : Nat
  s3 : Nat
  s4 : Nat
deriving DecidableEq, Repr

/-- S_i = r(α^i) for i = 1 to 4 (R94). -/
def syndromesOf (c : Config) (r : Nat) : Except Fault Syndromes := do
  let s1 ← polyEval c r c.n (gfPow c 1)
  let s2 ← polyEval c r c.n (gfPow c 2)
  let s3 ← polyEval c r c.n (gfPow c 3)
  let s4 ← polyEval c r c.n (gfPow c 4)
  .ok { s1 := s1, s2 := s2, s3 := s3, s4 := s4 }

/-- No error detected: every syndrome is 0 (spec/43_locator_solver.md R101, spec/46_decode.md R114). -/
abbrev Syndromes.allZero (y : Syndromes) : Prop := y.s1 = 0 ∧ y.s2 = 0 ∧ y.s3 = 0 ∧ y.s4 = 0

/-- Cramer's rule of R100 with D = S1 (R99): the pair (σ1, σ2). It is reached with D ≠ 0 only. -/
def locatorOf (c : Config) (y : Syndromes) : Except Fault (Nat × Nat) := do
  let dinv ← gfInv c y.s1
  let s1s1 ← gfMul c y.s1 y.s1
  let sigma1 ← gfMul c s1s1 dinv
  let s1s2 ← gfMul c y.s1 y.s2
  let sigma2 ← gfMul c (gfAdd y.s3 s1s2) dinv
  .ok (sigma1, sigma2)

/-- Λ(y) = 1 + σ1·y + σ2·y² (spec/44_chien_search.md R105, in the order R108 computes it). -/
def lambdaAt (c : Config) (sigma1 sigma2 y : Nat) : Except Fault Nat := do
  let a ← gfMul c sigma1 y
  let yy ← gfMul c y y
  let b ← gfMul c sigma2 yy
  .ok (gfAdd (gfAdd 1 a) b)

/-- The evaluation point of position i, α^(-i) (R107). -/
def pointOf (c : Config) (i : Nat) : Nat := gfPow c ((c.q - i) % c.q)

/-- The search loop of R108 over positions 0 to `i` - 1: the mask of the zeros found and their number. -/
def scan (c : Config) (sigma1 sigma2 : Nat) : (i : Nat) → Except Fault (Nat × Nat)
  | 0 => .ok (0, 0)
  | i + 1 => do
    let found ← scan c sigma1 sigma2 i
    let v ← lambdaAt c sigma1 sigma2 (pointOf c i)
    .ok (if v = 0 then (found.1 ||| (1 <<< i), found.2 + 1) else found)

end Sys2Proof.Machine
end

