-- ==== Sys2Proof/Machine/BchChienSearch.lean ====
section
/-!
DEFINITION. bch_chien_search: CHIEN (spec/44_chien_search.md R105 to R109).
-/

namespace Sys2Proof.Machine

/-- CHIEN (R108): the search over [0, N), then the root-count check of R109 against SIGDEG. -/
def execChien (s : State) : Result :=
  attempt (scan s.cfg s.sigma1 s.sigma2 s.cfg.n) fun found =>
    if found.2 ≠ sigdegOf s.sigma1 s.sigma2 then
      done .miscorrectionDetected .chien { s with errcnt := found.2, errmask := 0 }
    else done .ok .chien { s with errcnt := found.2, errmask := found.1 }

end Sys2Proof.Machine
end

