-- ==== Sys2Proof/Machine/BchCorrector.lean ====
section
/-!
DEFINITION. bch_corrector: CORRECT (spec/45_corrector.md R112, R113).
-/

namespace Sys2Proof.Machine

/-- CORRECT (R112). -/
def execCorrect (s : State) : Result :=
  done .ok .correct { s with corr := s.rx ^^^ s.errmask }

end Sys2Proof.Machine
end

