-- ==== Sys2Proof/Machine/BchEncoder.lean ====
section
/-!
DEFINITION. bch_encoder: ENCODE (spec/41_encoder.md R87 to R89).
-/

namespace Sys2Proof.Machine

/-- The systematic codeword of a message (R89): the message shifted to the top K bits, the remainder by G in
the low N - K bits. -/
def codewordOf (c : Config) (msg : Nat) : Nat :=
  (msg <<< (c.n - c.k)) ||| (polyDivmod (msg <<< (c.n - c.k)) c.g).2

/-- ENCODE (R89). -/
def execEncode (len : BitVec 16) (s : State) : Result :=
  withLength len s.cfg.k .encode s
    (done .ok .encode { s with cw := codewordOf s.cfg s.msg })

end Sys2Proof.Machine
end

