-- ==== Sys2Proof/Machine/BchErrorLocatorSolver.lean ====
section
/-!
DEFINITION. bch_error_locator_solver: SOLVE (spec/43_locator_solver.md R98 to R101).
-/

namespace Sys2Proof.Machine

/-- SOLVE (R101): the all-zero test, then the determinant D = S1, then Cramer's rule. -/
def execSolve (s : State) : Result :=
  let y : Syndromes := { s1 := s.syn1, s2 := s.syn2, s3 := s.syn3, s4 := s.syn4 }
  if y.allZero then done .ok .solve { s with det := y.s1, sigma1 := 0, sigma2 := 0 }
  else if y.s1 = 0 then done .uncorrectable .solve { s with det := y.s1, sigma1 := 0, sigma2 := 0 }
  else
    attempt (locatorOf s.cfg y) fun p =>
      done .ok .solve { s with det := y.s1, sigma1 := p.1, sigma2 := p.2 }

end Sys2Proof.Machine
end

