-- ==== Sys2Proof/Machine/BchSyndromeCalc.lean ====
section
/-!
DEFINITION. bch_syndrome_calc: SYNDROME (spec/42_syndrome.md R93, R94).
-/

namespace Sys2Proof.Machine

/-- SYNDROME (R94). -/
def execSyndrome (len : BitVec 16) (s : State) : Result :=
  withLength len s.cfg.n .syndrome s
    (attempt (syndromesOf s.cfg s.rx) fun y =>
      done .ok .syndrome { s with syn1 := y.s1, syn2 := y.s2, syn3 := y.s3, syn4 := y.s4 })

end Sys2Proof.Machine
end

