-- ==== Sys2Proof/Machine/DecodePipeline.lean ====
section
/-!
DEFINITION. The decode pipeline: DECODE (spec/46_decode.md R114).
-/

namespace Sys2Proof.Machine

/-- Steps 7 and 8 of R114, on the SIGMA values step 6 has written: the root search, and the correction where the
root count is right. -/
def searchAndCorrect (s : State) : Result :=
  attempt (scan s.cfg s.sigma1 s.sigma2 s.cfg.n) fun found =>
    if found.2 ≠ sigdegOf s.sigma1 s.sigma2 then
      done .miscorrectionDetected .decode { s with errcnt := found.2, errmask := 0, corr := s.rx }
    else done .ok .decode { s with errcnt := found.2, errmask := found.1, corr := s.rx ^^^ found.1 }

/-- Step 6 of R114 on the syndromes `y`, and what follows it. -/
def locateAndCorrect (y : Syndromes) (s : State) : Result :=
  if y.s1 = 0 then
    done .uncorrectable .decode
      { s with det := y.s1, sigma1 := 0, sigma2 := 0, errmask := 0, errcnt := 0, corr := s.rx }
  else
    attempt (locatorOf s.cfg y) fun p =>
      searchAndCorrect { s with det := y.s1, sigma1 := p.1, sigma2 := p.2 }

/-- DECODE (R114): step 5, the all-zero test, and steps 6 to 8. -/
def execDecode (len : BitVec 16) (s : State) : Result :=
  withLength len s.cfg.n .decode s
    (attempt (syndromesOf s.cfg s.rx) fun y =>
      let s5 := { s with syn1 := y.s1, syn2 := y.s2, syn3 := y.s3, syn4 := y.s4 }
      if y.allZero then
        done .ok .decode
          { s5 with det := 0, sigma1 := 0, sigma2 := 0, errmask := 0, errcnt := 0, corr := s.rx }
      else locateAndCorrect y s5)

end Sys2Proof.Machine
end

