-- ==== Sys2Proof/Machine/Gf2mArith.lean ====
section
/-!
DEFINITION. gf2m_arith: GF_ADD, GF_MUL, GF_INV and GF_POW (spec/40_gf2m_arith.md R81 to R84).
-/

namespace Sys2Proof.Machine

/-- GF_ADD (R81). -/
def execGfAdd (s : State) : Result :=
  done .ok .gfAdd { s with gfR := gfAdd s.gfA s.gfB }

/-- GF_MUL (R82). -/
def execGfMul (s : State) : Result :=
  attempt (gfMul s.cfg s.gfA s.gfB) fun r =>
    done .ok .gfMul { s with gfR := r }

/-- GF_INV (R83): DIVISION_BY_ZERO and GF_R unchanged when GF_A is 0. -/
def execGfInv (s : State) : Result :=
  if s.gfA = 0 then done .divisionByZero .gfInv s
  else
    attempt (gfInv s.cfg s.gfA) fun r =>
      done .ok .gfInv { s with gfR := r }

/-- GF_POW (R84). -/
def execGfPow (s : State) : Result :=
  done .ok .gfPow { s with gfR := gfPow s.cfg s.gfI }

end Sys2Proof.Machine
end

