-- ==== Sys2Proof/Machine/Dispatch.lean ====
section
/-!
DEFINITION. The meaning of every command, one arm a constructor (spec/30_encoding.md R66, R67).
-/

namespace Sys2Proof.Machine

-- A command whose word has passed the OP and RSV checks of R67; the length check of the commands that carry a
-- LEN is in their meanings.
def exec (i : Instr) (s : State) : Host.Outcome State Fault Refusal :=
  match i with
  | .gfAdd => Sys2Proof.Machine.execGfAdd s
  | .gfMul => Sys2Proof.Machine.execGfMul s
  | .gfInv => Sys2Proof.Machine.execGfInv s
  | .gfPow => Sys2Proof.Machine.execGfPow s
  | .encode len => Sys2Proof.Machine.execEncode len s
  | .syndrome len => Sys2Proof.Machine.execSyndrome len s
  | .solve => Sys2Proof.Machine.execSolve s
  | .chien => Sys2Proof.Machine.execChien s
  | .correct => Sys2Proof.Machine.execCorrect s
  | .decode len => Sys2Proof.Machine.execDecode len s

end Sys2Proof.Machine
end

