-- ==== Sys2Proof/Machine/Transactions.lean ====
section
/-!
DEFINITION. The host's transactions (spec/20_memory.md R50, R51), command acceptance (spec/30_encoding.md R67), the
reset event (spec/70_reset_and_hazards.md R134), and one step of the machine: the host issues the next line of its
program and the block carries it out (spec/10_state.md R45).
-/

namespace Sys2Proof.Machine

/-- `Execute(w)` of R67: an illegal word ends with ILLEGAL_COMMAND and LAST_OP = w[7:0] (R68); any other word runs
its command. -/
def execute (w : Word) (s : State) : Result :=
  match decode w with
  | .ok i => exec i s
  | .error _ => .next (finish .illegalCommand (opField w) s)

/-- `HostRead(addr)` of R50: the value read; an unmapped address reads 0 (R49). -/
def hostRead (s : State) (a : Addr) : Nat :=
  match regAt? a with
  | some r => readReg s r
  | none => 0

/-- `HostWrite(addr, v)` of R51: a write to CMD runs one command; a write to a host-writable register of width w
stores v mod 2^w; any other write has no effect (R49). -/
def hostWrite (a : Addr) (v : Nat) (s : State) : Result :=
  match regAt? a with
  | some .cmd => execute (BitVec.ofNat 32 v) s
  | some r => .next (storeReg s r (v % 2 ^ widthOf s.cfg r))
  | none => .next s

/-- The reset event (R134, R44): every stored register to its reset value; the configuration is unchanged, and so is
the host's side (DEDUCED, log entry 11). -/
def resetEvent (s : State) : State :=
  { State.resetOf s.cfg with program := s.program, reads := s.reads }

/-- 2^p1 xor … xor 2^pj, the pattern `INJECT` flips (R75). -/
def patternOf (positions : List Nat) : Nat :=
  positions.foldl (fun acc p => acc ^^^ (1 <<< p)) 0

/-- A read by the host: its value goes to the program's observation, and the block is unchanged (R50, R56, R146). -/
def observe (s : State) (a : Addr) : State := { s with reads := s.reads ++ [hostRead s a] }

/-- One line of the host program, `s` holding the lines after it. A macro of R75 is its read, with the write it
expands to left as the host's next line (DEDUCED, log entry 6). -/
def issue (l : HostLine) (s : State) : Result :=
  match l with
  | .read a => .next (observe s a)
  | .write a v => hostWrite a v s
  | .reset => .next (resetEvent s)
  | .movRxCw =>
    .next { observe s (addrOf .cw) with
      program := .write (addrOf .rx) (hostRead s (addrOf .cw)) :: s.program }
  | .inject ps =>
    .next { observe s (addrOf .rx) with
      program := .write (addrOf .rx) (hostRead s (addrOf .rx) ^^^ patternOf ps) :: s.program }

/-- STATUS.CODE is one of the reserved values 6 to 15 (I10). -/
abbrev codeReserved (s : State) : Prop := 5 < (codeField s.status).toNat

/-- One step: the host's next line. A host with no line left issues no transaction, and nothing changes (R43, R45;
DESIGN CHOICE, log entry 3). A state that holds a reserved STATUS.CODE is a bug of the model, and faults (I10, D29; log
entry 4). -/
def hostStep (s : State) : Result :=
  if codeReserved s then .fault .reservedStatusCode
  else
    match s.program with
    | [] => .next s
    | l :: rest => issue l { s with program := rest }

/-- The state whose next transaction writes `w` to CMD. -/
def withCommandWord (s : State) (w : Nat) : State :=
  { s with program := .write (addrOf .cmd) w :: s.program }

end Sys2Proof.Machine
end

