-- ==== Sys2Proof/Machine/Step.lean ====
section
/-!
DEFINITION. The step function, and the state whose next step runs a given command word.
-/

namespace Sys2Proof.Machine

/-- One host transaction (spec/10_state.md R45). -/
def step (s : State) : Host.Outcome State Fault Refusal := hostStep s

/-- The block fetches nothing (spec/20_memory.md R61): a command comes as the host's write to CMD, so the host's next
line is made that write. -/
def State.withFetchWord (s : State) (nbits w : Nat) : State := withCommandWord s (w % 2 ^ nbits)

end Sys2Proof.Machine
end

