-- ==== Sys2Proof/Machine/Serial.lean ====
section
/-!
DEFINITION. How a register value is carried outside the block: as a bit string, most significant bit first
(spec/00_scope.md R13), and as a big-endian byte buffer (spec/20_memory.md R54).
-/

namespace Sys2Proof.Machine

/-- The bit string of a value of width `w` (R13): the leftmost character is bit w-1. -/
def bitString (w v : Nat) : List Bool := (List.range w).map fun s => v.testBit (w - 1 - s)

/-- The value of a bit string (R13). -/
def ofBitString (bits : List Bool) : Nat := bits.foldl (fun acc b => acc * 2 + b.toNat) 0

/-- B = ⌈w/8⌉, the length of the buffer of a register of width `w` (R54). -/
def byteCount (w : Nat) : Nat := (w + 7) / 8

/-- The big-endian buffer of a value of width `w` (R54): byte 0 is the most significant. -/
def toBytes (w v : Nat) : List Byte :=
  (List.range (byteCount w)).map fun b => BitVec.ofNat 8 (v >>> (8 * (byteCount w - 1 - b)))

/-- The value a big-endian buffer carries, before the block drops the pad bits (R51, R54). -/
def ofBytes (bytes : List Byte) : Nat := bytes.foldl (fun acc b => acc * 256 + b.toNat) 0

end Sys2Proof.Machine
end

