-- ==== Sys2Proof/Machine/Assembler.lean ====
section
/-!
DEFINITION. The assembler syntax of spec/30_encoding.md R73 to R75: a line of text is read as a line of a host
program. Register names are those of spec/10_state.md R28; a mnemonic is a write to CMD with LEN filled in (R74).

What R73 leaves open of the text of a line is log entry 9 (DESIGN CHOICE). A line is a list of characters, so that it can
be read by evaluation.
-/

namespace Sys2Proof.Machine

/-- The name column of R28. -/
def nameOf : Reg → String
  | .cmd => "CMD"
  | .status => "STATUS"
  | .cfgMt => "CFG_MT"
  | .cfgNk => "CFG_NK"
  | .cfgPrim => "CFG_PRIM"
  | .cfgGen => "CFG_GEN"
  | .msg => "MSG"
  | .cw => "CW"
  | .rx => "RX"
  | .corr => "CORR"
  | .syn1 => "SYN1"
  | .syn2 => "SYN2"
  | .syn3 => "SYN3"
  | .syn4 => "SYN4"
  | .det => "DET"
  | .sigma1 => "SIGMA1"
  | .sigma2 => "SIGMA2"
  | .sigdeg => "SIGDEG"
  | .errmask => "ERRMASK"
  | .errcnt => "ERRCNT"
  | .gfA => "GF_A"
  | .gfB => "GF_B"
  | .gfI => "GF_I"
  | .gfR => "GF_R"

/-- Every register of R28, in the order of its table. -/
def allRegs : List Reg :=
  [.cmd, .status, .cfgMt, .cfgNk, .cfgPrim, .cfgGen, .msg, .cw, .rx, .corr, .syn1, .syn2, .syn3, .syn4, .det,
    .sigma1, .sigma2, .sigdeg, .errmask, .errcnt, .gfA, .gfB, .gfI, .gfR]

/-- The mnemonic column of R66. -/
def mnemonicOf : Opcode → String
  | .gfAdd => "GF_ADD"
  | .gfMul => "GF_MUL"
  | .gfInv => "GF_INV"
  | .gfPow => "GF_POW"
  | .encode => "ENCODE"
  | .syndrome => "SYNDROME"
  | .solve => "SOLVE"
  | .chien => "CHIEN"
  | .correct => "CORRECT"
  | .decode => "DECODE"

/-- Every opcode of R66, in the order of its table. -/
def allOpcodes : List Opcode :=
  [.gfAdd, .gfMul, .gfInv, .gfPow, .encode, .syndrome, .solve, .chien, .correct, .decode]

/-- The LEN that the pseudo-instruction of R74 fills in: K, N or 0. -/
def pseudoLen (c : Config) : Opcode → Nat
  | .gfAdd => 0
  | .gfMul => 0
  | .gfInv => 0
  | .gfPow => 0
  | .encode => c.k
  | .syndrome => c.n
  | .solve => 0
  | .chien => 0
  | .correct => 0
  | .decode => c.n

/-- The command word a mnemonic stands for (R74). -/
def pseudoWord (c : Config) (op : Opcode) : Word := commandWord (BitVec.ofNat 16 (pseudoLen c op)) op

/-- The host line a mnemonic stands for: `CMDW` of its word (R74). -/
def commandLine (c : Config) (op : Opcode) : HostLine := .write (addrOf .cmd) (pseudoWord c op).toNat

/-- Splits a line at spaces and commas, dropping empty pieces; `cur` is the piece being read, backwards. -/
def tokensFrom : (cs : List Char) → (cur : List Char) → List (List Char)
  | [], cur => if cur = [] then [] else [cur.reverse]
  | ch :: cs, cur =>
    if ch = ' ' ∨ ch = ',' ∨ ch = '\t' then
      if cur = [] then tokensFrom cs [] else cur.reverse :: tokensFrom cs []
    else tokensFrom cs (ch :: cur)

/-- The words of a line, its comment (from the first semicolon) left out (R73). -/
def tokensOf (line : List Char) : List (List Char) := tokensFrom (line.takeWhile (· ≠ ';')) []

/-- A digit's value: decimal digits, and the letters of hexadecimal in either case. -/
def digitOf? (ch : Char) : Option Nat :=
  if '0' ≤ ch ∧ ch ≤ '9' then some (ch.toNat - 48)
  else if 'a' ≤ ch ∧ ch ≤ 'f' then some (ch.toNat - 87)
  else if 'A' ≤ ch ∧ ch ≤ 'F' then some (ch.toNat - 55)
  else none

/-- The number a list of digits writes in a base, most significant digit first, after the digits in `acc`. -/
def digitsFrom (base : Nat) : (cs : List Char) → (acc : Nat) → Option Nat
  | [], acc => some acc
  | ch :: cs, acc =>
    match digitOf? ch with
    | some d => if d < base then digitsFrom base cs (acc * base + d) else none
    | none => none

/-- A non-empty list of digits in a base. -/
def numberOf? (base : Nat) (cs : List Char) : Option Nat :=
  if cs = [] then none else digitsFrom base cs 0

/-- A `<value>` of R73: hexadecimal after 0x, binary after 0b, a quoted bit string (R13), or decimal. -/
def valueOf? : List Char → Option Nat
  | '0' :: 'x' :: ds => numberOf? 16 ds
  | '0' :: 'b' :: ds => numberOf? 2 ds
  | '\'' :: ds => if ds.getLast? = some '\'' then numberOf? 2 ds.dropLast else none
  | ds => numberOf? 10 ds

/-- A `<reg>` of R73. -/
def regNamed? (cs : List Char) : Option Reg := allRegs.find? fun r => (nameOf r).toList == cs

/-- A mnemonic of R74. -/
def opcodeNamed? (cs : List Char) : Option Opcode := allOpcodes.find? fun op => (mnemonicOf op).toList == cs

/-- The values of a list of words, if each is one. -/
def valuesOf? : List (List Char) → Option (List Nat)
  | [] => some []
  | w :: ws =>
    match valueOf? w, valuesOf? ws with
    | some v, some vs => some (v :: vs)
    | _, _ => none

/-- A line with no operand: `RESET` or a mnemonic. -/
def bareLine? (c : Config) (op : List Char) : Option HostLine :=
  if op = ['R', 'E', 'S', 'E', 'T'] then some .reset
  else (opcodeNamed? op).map (commandLine c)

/-- A line with one operand: `RD`, `CMDW`, or `INJECT` of one position. -/
def oneOperandLine? (op x : List Char) : Option HostLine :=
  if op = ['R', 'D'] then (regNamed? x).map fun r => .read (addrOf r)
  else if op = ['C', 'M', 'D', 'W'] then (valueOf? x).map (.write (addrOf .cmd))
  else if op = ['I', 'N', 'J', 'E', 'C', 'T'] then (valueOf? x).map fun p => .inject [p]
  else none

/-- A line with two operands or more: `WR`, `MOV RX, CW`, or `INJECT`. -/
def moreOperandsLine? (op x y : List Char) (rest : List (List Char)) : Option HostLine :=
  if op = ['I', 'N', 'J', 'E', 'C', 'T'] then (valuesOf? (x :: y :: rest)).map .inject
  else if rest ≠ [] then none
  else if op = ['W', 'R'] then
    match regNamed? x, valueOf? y with
    | some r, some v => some (.write (addrOf r) v)
    | _, _ => none
  else if op = ['M', 'O', 'V'] ∧ x = ['R', 'X'] ∧ y = ['C', 'W'] then some .movRxCw
  else none

/-- One line of a host program (R73): the transaction or macro it stands for, on a block of configuration `c`. A
line of comment only, and a line that is not of the syntax, give none. -/
def assembleLine (c : Config) (line : List Char) : Option HostLine :=
  match tokensOf line with
  | [] => none
  | [op] => bareLine? c op
  | [op, x] => oneOperandLine? op x
  | op :: x :: y :: rest => moreOperandsLine? op x y rest

end Sys2Proof.Machine
end

