-- ==== Sys2Proof/Machine/Build.lean ====
section
/-!
DEFINITION. Building a block: the generator polynomial of spec/10_state.md R24, the configuration checks R19 to
R25, and `build`, which makes a machine for a configuration that passes and refuses any other (R18,
spec/60_exceptions.md R121). Which reason is reported where checks of both reasons fail is log entry 14 (DESIGN CHOICE).
-/

namespace Sys2Proof.Machine

/-- The cyclotomic coset of i modulo Q (R24). 2^M is 1 modulo Q, so the first M powers are all of them (DEDUCED, log
entry 7). -/
def coset (c : Config) (i : Nat) : List Nat :=
  ((List.range c.m).map fun s => i * 2 ^ s % c.q).dedup

/-- Every coefficient times `a`, in GF(2^M). -/
def scale (c : Config) (a : Nat) : List Nat → Except Fault (List Nat)
  | [] => .ok []
  | p :: ps => do
    let y ← gfMul c a p
    let ys ← scale c a ps
    .ok (y :: ys)

/-- (x + a) times a polynomial over GF(2^M), a list of coefficients with that of x^0 first. -/
def mulLinear (c : Config) (a : Nat) (p : List Nat) : Except Fault (List Nat) := do
  let ap ← scale c a p
  .ok (List.zipWith gfAdd (0 :: p) (ap ++ [0]))

/-- The product of (x + EXP[j]) over a list of exponents j (R24, the body of minpoly). -/
def rootProduct (c : Config) : List Nat → Except Fault (List Nat)
  | [] => .ok [1]
  | j :: js => do
    let p ← rootProduct c js
    mulLinear c (expEntry c j) p

/-- A polynomial whose coefficients are all 0 or 1, read as a binary polynomial; `none` if one is not. -/
def binaryOf? : List Nat → Option Nat
  | [] => some 0
  | p :: ps =>
    match binaryOf? ps with
    | some v => if p = 0 then some (v * 2) else if p = 1 then some (v * 2 + 1) else none
    | none => none

/-- `minpoly(i)` of R24. The spec says every coefficient is 0 or 1; where that fails there is none
(DESIGN CHOICE, log entry 8). -/
def minPoly? (c : Config) (i : Nat) : Option Nat :=
  match rootProduct c (coset c i) with
  | .ok p => binaryOf? p
  | .error _ => none

/-- The loop of `GenPoly` (R24) over the remaining i, on the product so far and the exponents done. -/
def genLoop (c : Config) : (todo : List Nat) → (g : Nat) → (done : List Nat) → Option Nat
  | [], g, _ => some g
  | i :: is, g, done =>
    if i % c.q ∈ done then genLoop c is g done
    else
      match minPoly? c i with
      | some p => genLoop c is (polyMul g p) (coset c i ++ done)
      | none => none

/-- `GenPoly(M, PRIM, T)` of R24. -/
def genPoly? (c : Config) : Option Nat :=
  genLoop c ((List.range (2 * c.t)).map (· + 1)) 1 []

/-- CHK_M_RANGE (R19). -/
abbrev ChkMRange (c : Config) : Prop := 2 ≤ c.m ∧ c.m ≤ 16

/-- CHK_PRIM_DEGREE (R20). -/
abbrev ChkPrimDegree (c : Config) : Prop := 2 ^ c.m ≤ c.prim ∧ c.prim < 2 ^ (c.m + 1)

/-- CHK_PRIM_PRIMITIVE (R21): the EXP entries are pairwise distinct, and the loop ends at 1. -/
abbrev ChkPrimPrimitive (c : Config) : Prop :=
  ((List.range c.q).map (expEntry c)).Nodup ∧ expEntry c c.q = 1

/-- CHK_T (R22). -/
abbrev ChkT (c : Config) : Prop := c.t = 2

/-- CHK_N_RANGE (R23). -/
abbrev ChkNRange (c : Config) : Prop := 1 ≤ c.n ∧ c.n ≤ c.q

/-- CHK_GEN_EQ (R24). -/
abbrev ChkGenEq (c : Config) : Prop := genPoly? c = some c.g

/-- CHK_GEN_DEGREE (R25): deg(G) = N - K and K ≥ 1. -/
abbrev ChkGenDegree (c : Config) : Prop := degree c.g + c.k = c.n ∧ 1 ≤ c.k

/-- The refusal of a configuration, `none` if it passes every check of R19 to R25: `InvalidField` for R19 to R21,
`ConfigurationError` for R22 to R25 (R18, R121). The spec gives the reason of each check and no order among them; where one
of R19 to R21 and one of R22 to R25 both fail, this reports `InvalidField` (DESIGN CHOICE, log entry 14; safe: there is
no block under either reason). -/
def refusalOf (c : Config) : Option Refusal :=
  if ¬ ChkMRange c then some .invalidField
  else if ¬ ChkPrimDegree c then some .invalidField
  else if ¬ ChkPrimPrimitive c then some .invalidField
  else if ¬ ChkT c then some .configurationError
  else if ¬ ChkNRange c then some .configurationError
  else if ¬ ChkGenEq c then some .configurationError
  else if ¬ ChkGenDegree c then some .configurationError
  else none

/-- A block exists for this configuration (R18). -/
abbrev Valid (c : Config) : Prop := refusalOf c = none

/-- Builds the block of a configuration, in its state after reset (R44), or refuses: no block is built and no
command runs under a refused configuration (R18). -/
def build (c : Config) : Except Refusal State :=
  match refusalOf c with
  | some r => .error r
  | none => .ok (State.resetOf c)

end Sys2Proof.Machine
end

