-- ==== Sys2Proof/WellFormed.lean ====
section
/-!
DEFINITION. When a command is legal for a configuration: its LEN is the one the command needs
(spec/30_encoding.md R65, R67). An ill-formed command is not undefined: it completes with INVALID_LENGTH
(R69).
-/

namespace Sys2Proof

/-- The LEN a command needs, for the three that carry one (R65): K for ENCODE, N for SYNDROME and
DECODE; `none` for a command that carries no LEN. -/
def Instr.neededLen (c : Config) : Instr → Option Nat
  | .gfAdd => none
  | .gfMul => none
  | .gfInv => none
  | .gfPow => none
  | .encode _ => some c.k
  | .syndrome _ => some c.n
  | .solve => none
  | .chien => none
  | .correct => none
  | .decode _ => some c.n

/-- The LEN field a command carries, 0 for a command that takes no bit string (R64). -/
def Instr.len : Instr → BitVec 16
  | .gfAdd => 0
  | .gfMul => 0
  | .gfInv => 0
  | .gfPow => 0
  | .encode len => len
  | .syndrome len => len
  | .solve => 0
  | .chien => 0
  | .correct => 0
  | .decode len => len

/-- The length check of R67: LEN = K for ENCODE, LEN = N for SYNDROME and DECODE. -/
def Instr.wellFormed (c : Config) (i : Instr) : Bool :=
  match i.neededLen c with
  | none => true
  | some need => i.len.toNat == need

end Sys2Proof
end

