-- ==== Sys2Proof/Safety.lean ====
section
/-!
DEFINITION. What a good state and a good outcome are, and the words the statements use: the invariant of
spec/10_state.md R46, the 18 registers alone, codewords, and the code a command ended with.
-/

namespace Sys2Proof.Machine

/-- Every stored register of a parameter's width holds a value of that width (R29, R46 invariant 1). STATUS has its
width by its type. -/
abbrev State.RegistersInRange (s : State) : Prop :=
  s.msg < 2 ^ s.cfg.k ∧ s.cw < 2 ^ s.cfg.n ∧ s.rx < 2 ^ s.cfg.n ∧ s.corr < 2 ^ s.cfg.n ∧
  s.syn1 < 2 ^ s.cfg.m ∧ s.syn2 < 2 ^ s.cfg.m ∧ s.syn3 < 2 ^ s.cfg.m ∧ s.syn4 < 2 ^ s.cfg.m ∧
  s.det < 2 ^ s.cfg.m ∧ s.sigma1 < 2 ^ s.cfg.m ∧ s.sigma2 < 2 ^ s.cfg.m ∧
  s.errmask < 2 ^ s.cfg.n ∧ s.errcnt < 2 ^ 16 ∧
  s.gfA < 2 ^ s.cfg.m ∧ s.gfB < 2 ^ s.cfg.m ∧ s.gfI < 2 ^ 16 ∧ s.gfR < 2 ^ s.cfg.m

/-- STATUS holds a code of R121 and its reserved bits are 0 (R30, R70). -/
abbrev StatusLegal (st : Word) : Prop :=
  (codeField st).toNat ≤ 5 ∧ reservedLow st = 0 ∧ reservedHigh st = 0

/-- The invariant of the machine: a configuration for which a block exists (R18), registers within their widths
(R46), and a legal STATUS. -/
abbrev State.Inv (s : State) : Prop :=
  Valid s.cfg ∧ s.RegistersInRange ∧ StatusLegal s.status

/-- The block alone: the host's program and what it has observed left out. -/
def blockOf (s : State) : State := { s with program := [], reads := [] }

/-- A state with STATUS left out. -/
def exceptStatus (s : State) : State := { s with status := 0 }

/-- The next state an outcome holds, if it is one. -/
def nextOf? (o : Result) : Option State :=
  match o with
  | .next s => some s
  | .fault _ => none
  | .refused _ => none

/-- The transaction ends in a next state, neither a fault nor a refusal. -/
abbrev Completes (o : Result) : Prop := ∃ t, o = .next t

/-- The code STATUS reports (R121). -/
def codeOf (s : State) : Nat := (codeField s.status).toNat

/-- A command has completed: the outcome is the state `s'`, its result registers written, with CODE and LAST_OP
written in STATUS and nothing else (R16, R30). Every other field of State is as in `s'`. -/
def EndsAs (o : Result) (s' : State) (code : Nat) (op : Byte) : Prop :=
  ∃ t, o = .next t ∧ exceptStatus t = exceptStatus s' ∧ codeOf t = code ∧ lastOpField t.status = op ∧
    reservedLow t.status = reservedLow s'.status ∧ reservedHigh t.status = reservedHigh s'.status

/-- The locator with coefficients `sigma1` and `sigma2` is 0 at the point of position `i` (R107, R108). -/
def IsZeroAt (c : Config) (sigma1 sigma2 i : Nat) : Prop :=
  lambdaAt c sigma1 sigma2 (pointOf c i) = .ok 0

/-- The number of 1 bits among the low `w` bits (`popcount`, spec/00_scope.md R15). -/
def popcount (w v : Nat) : Nat := ((List.range w).filter fun i => v.testBit i).length

/-- A codeword: an N-bit word that G divides (spec/41_encoder.md R91). -/
abbrev IsCodeword (c : Config) (v : Nat) : Prop := v < 2 ^ c.n ∧ (polyDivmod v c.g).2 = 0

/-- The ten assigned opcodes (spec/30_encoding.md R66). -/
def assignedOps : List Byte := [0x01, 0x02, 0x03, 0x04, 0x10, 0x20, 0x21, 0x22, 0x23, 0x30]

/-- The three opcodes that carry a length (R67). -/
def lengthOps : List Byte := [0x10, 0x20, 0x30]

end Sys2Proof.Machine
end

