-- ==== Sys2Proof/Certificates/Slice0/Obligations.lean ====
section
/-!
DEFINITION. The statements about the model, each a proposition named for what it says. A statement about every state
takes `State.Inv` (Safety.lean) where a rule of the spec speaks of states of a built block; that every step keeps it is
`EveryStepKeepsTheInvariant`.

`EndsAs o s' code op` says that the outcome `o` is the state `s'` with CODE and LAST_OP written in STATUS and nothing
else: `s'` names every register the command writes, and every other field is as `s'` has it.
-/

open Sys2Proof Sys2Proof.Machine

/-! ## Encoding and acceptance (spec/30_encoding.md) -/

/-- The decoder and the encoder agree in both directions, on every command and every word (R64, R66, R71). -/
def Obligations.DecodeAndEncodeAgree : Prop :=
  (∀ i : Instr, decode (encode i) = .ok i) ∧
  ∀ (w : Word) (i : Instr), decode w = .ok i → encode i = w

/-- The ten words of R74 for the worked instance, written out, decode to their commands. -/
def Obligations.WorkedCommandWordsDecode : Prop :=
  decode 0x00000001 = .ok .gfAdd ∧ decode 0x00000002 = .ok .gfMul ∧ decode 0x00000003 = .ok .gfInv ∧
  decode 0x00000004 = .ok .gfPow ∧ decode 0x00070010 = .ok (.encode 7) ∧ decode 0x000F0020 = .ok (.syndrome 15) ∧
  decode 0x00000021 = .ok .solve ∧ decode 0x00000022 = .ok .chien ∧ decode 0x00000023 = .ok .correct ∧
  decode 0x000F0030 = .ok (.decode 15)

/-- R74: each mnemonic, as the text of a line, is one CMDW with LEN filled in, and its word is that of a legal
command. -/
def Obligations.MnemonicsExpandToCommandWords : Prop :=
  (∀ c : Config, Valid c →
    (pseudoWord c .gfAdd).toNat = 0x00000001 ∧ (pseudoWord c .gfMul).toNat = 0x00000002 ∧
    (pseudoWord c .gfInv).toNat = 0x00000003 ∧ (pseudoWord c .gfPow).toNat = 0x00000004 ∧
    (pseudoWord c .encode).toNat = (c.k <<< 16) ||| 0x10 ∧ (pseudoWord c .syndrome).toNat = (c.n <<< 16) ||| 0x20 ∧
    (pseudoWord c .solve).toNat = 0x00000021 ∧ (pseudoWord c .chien).toNat = 0x00000022 ∧
    (pseudoWord c .correct).toNat = 0x00000023 ∧ (pseudoWord c .decode).toNat = (c.n <<< 16) ||| 0x30 ∧
    ∀ op, commandLine c op = .write 0x00 (pseudoWord c op).toNat ∧
      ∃ i, decode (pseudoWord c op) = .ok i ∧ i.opcode = op ∧ i.wellFormed c = true) ∧
  (∀ c : Config,
    assembleLine c "GF_ADD".toList = some (commandLine c .gfAdd) ∧
    assembleLine c "GF_MUL".toList = some (commandLine c .gfMul) ∧
    assembleLine c "GF_INV".toList = some (commandLine c .gfInv) ∧
    assembleLine c "GF_POW".toList = some (commandLine c .gfPow) ∧
    assembleLine c "ENCODE".toList = some (commandLine c .encode) ∧
    assembleLine c "SYNDROME".toList = some (commandLine c .syndrome) ∧
    assembleLine c "SOLVE".toList = some (commandLine c .solve) ∧
    assembleLine c "CHIEN".toList = some (commandLine c .chien) ∧
    assembleLine c "CORRECT".toList = some (commandLine c .correct) ∧
    assembleLine c "DECODE".toList = some (commandLine c .decode)) ∧
  (∀ c : Config, c.k = 7 → pseudoWord c .encode = 0x00070010) ∧
  (∀ c : Config, c.n = 15 → pseudoWord c .syndrome = 0x000F0020 ∧ pseudoWord c .decode = 0x000F0030)

/-- R67: a write to CMD of any natural number v runs w = v mod 2^32, whose fields are checked in the order OP, RSV,
LEN; the first failing check decides the code, and a word that passes runs the command of its OP. -/
def Obligations.AcceptanceChecksInOrder : Prop :=
  ∀ (s : State) (v : Nat),
    let op := v % 2 ^ 8
    let rsv := v / 2 ^ 8 % 2 ^ 8
    let len := v / 2 ^ 16 % 2 ^ 16
    let assigned := op ∈ [0x01, 0x02, 0x03, 0x04, 0x10, 0x20, 0x21, 0x22, 0x23, 0x30]
    let takesLength := op ∈ [0x10, 0x20, 0x30]
    let need := if op = 0x10 then s.cfg.k else s.cfg.n
    let o := hostWrite 0x00 v s
    (¬ assigned → EndsAs o s 5 (BitVec.ofNat 8 op)) ∧
    (assigned → rsv ≠ 0 → EndsAs o s 5 (BitVec.ofNat 8 op)) ∧
    (takesLength → rsv = 0 → len ≠ need → EndsAs o s 1 (BitVec.ofNat 8 op)) ∧
    (assigned → ¬ takesLength → rsv = 0 → len ≠ 0 → EndsAs o s 5 (BitVec.ofNat 8 op)) ∧
    (assigned → rsv = 0 → (takesLength → len = need) → (¬ takesLength → len = 0) →
      ∃ i : Instr, i.opcode.byte.toNat = op ∧ i.len.toNat = len ∧ o = exec i s)

/-- R68: an illegal word changes only STATUS, to CODE 5 and LAST_OP = w[7:0]. -/
def Obligations.IllegalCommandChangesOnlyStatus : Prop :=
  (∀ (w : Word) (s : State) (e : IllegalWord), decode w = .error e → EndsAs (execute w s) s 5 (w.extractLsb' 0 8)) ∧
  (∀ s : State, StatusLegal s.status →
    ∃ t, hostWrite 0x00 0x00000000 s = .next t ∧ t.status = 0x00000005) ∧
  ∀ s : State, StatusLegal s.status → ∃ t, hostWrite 0x00 0x00000105 s = .next t ∧ t.status = 0x00000505

/-- R69: a wrong LEN changes only STATUS, to CODE 1 and LAST_OP = OP. -/
def Obligations.InvalidLengthChangesOnlyStatus : Prop :=
  (∀ (i : Instr) (s : State), i.wellFormed s.cfg = false → EndsAs (exec i s) s 1 i.opcode.byte) ∧
  ∀ s : State, s.cfg.k = 7 → StatusLegal s.status →
    ∃ t, hostWrite 0x00 0x00080010 s = .next t ∧ t.status = 0x00001001 ∧ t.cw = s.cw

/-- R30: the fields of STATUS; every command word writes CODE and LAST_OP and nothing else there; CODE is never 6 to
15 and does not depend on the STATUS before; the reserved bits read 0; a host write leaves STATUS as it is; reset makes
STATUS 0. -/
def Obligations.EveryCommandReportsInStatus : Prop :=
  (∀ st : Word, (codeField st).toNat = st.toNat % 2 ^ 4 ∧ (reservedLow st).toNat = st.toNat / 2 ^ 4 % 2 ^ 4 ∧
    (lastOpField st).toNat = st.toNat / 2 ^ 8 % 2 ^ 8 ∧ (reservedHigh st).toNat = st.toNat / 2 ^ 16) ∧
  (∀ (w : Word) (s t : State), execute w s = .next t →
    codeOf t ≤ 5 ∧ lastOpField t.status = w.extractLsb' 0 8 ∧ reservedLow t.status = reservedLow s.status ∧
    reservedHigh t.status = reservedHigh s.status ∧
    ∀ st : Word, ∃ t', execute w { s with status := st } = .next t' ∧ codeOf t' = codeOf t) ∧
  (∀ s : State, s.Inv → hostRead s 0x01 / 2 ^ 4 % 2 ^ 4 = 0 ∧ hostRead s 0x01 / 2 ^ 16 = 0) ∧
  (∀ (s : State) (v : Nat), hostWrite 0x01 v s = .next s) ∧
  ∀ c : Config, (State.resetOf c).status = 0x00000000

/-- R122, R123: ILLEGAL_COMMAND is raised exactly for an unassigned OP, a nonzero RSV, or a nonzero LEN on an opcode that
takes none; INVALID_LENGTH exactly for ENCODE with LEN not K and SYNDROME or DECODE with LEN not N; both change only
STATUS. -/
def Obligations.AcceptanceCodesExactly : Prop :=
  ∀ (w : Word) (s t : State), execute w s = .next t →
    let op := w.extractLsb' 0 8
    let rsv := w.extractLsb' 8 8
    let len := w.extractLsb' 16 16
    (codeOf t = 5 ↔ op ∉ assignedOps ∨ rsv ≠ 0 ∨ (op ∉ lengthOps ∧ len ≠ 0)) ∧
    (codeOf t = 1 ↔ rsv = 0 ∧
      ((op = 0x10 ∧ len.toNat ≠ s.cfg.k) ∨ ((op = 0x20 ∨ op = 0x30) ∧ len.toNat ≠ s.cfg.n))) ∧
    (codeOf t = 5 ∨ codeOf t = 1 → exceptStatus t = exceptStatus s ∧ lastOpField t.status = op)

/-! ## Host transactions (spec/20_memory.md, spec/10_state.md) -/

/-- A step is the host's next line (the model's own fields `program` and `reads`, log entry 2), on the state whose program
has gone on by that line. A write to CMD runs the command its word decodes to, or ends with ILLEGAL_COMMAND; any other
write is HostWrite; a read records its value; a reset leaves the host's program and what it has read, which is the
model's choice (DEDUCED, log entry 11); with no line left nothing changes (the model's choice, log entry 3); and a state
with a reserved STATUS.CODE faults (I10; when it is checked is the model's choice, log entry 4). -/
def Obligations.StepRunsTheDecodedCommand : Prop :=
  (∀ (s : State) (v : Nat) (rest : List HostLine), ¬ codeReserved s → s.program = .write 0x00 v :: rest →
    (∀ i, decode (BitVec.ofNat 32 v) = .ok i → step s = exec i { s with program := rest }) ∧
    (∀ e, decode (BitVec.ofNat 32 v) = .error e →
      EndsAs (step s) { s with program := rest } 5 (BitVec.ofNat 8 v))) ∧
  (∀ (s : State) (a : Addr) (v : Nat) (rest : List HostLine), ¬ codeReserved s → s.program = .write a v :: rest →
    step s = hostWrite a v { s with program := rest }) ∧
  (∀ (s : State) (a : Addr) (rest : List HostLine), ¬ codeReserved s → s.program = .read a :: rest →
    step s = .next { s with program := rest, reads := s.reads ++ [hostRead s a] }) ∧
  (∀ (s : State) (rest : List HostLine), ¬ codeReserved s → s.program = .reset :: rest →
    ∃ t, step s = .next t ∧ t.program = rest ∧ t.reads = s.reads) ∧
  (∀ s : State, ¬ codeReserved s → s.program = [] → step s = .next s) ∧
  ∀ s : State, 5 < codeOf s → step s = .fault .reservedStatusCode

/-- R50: what each address of the register space reads as. Unmapped addresses and CMD read 0, and a read changes nothing
of the block. -/
def Obligations.HostReadAnswersTheRegister : Prop :=
  (∀ s : State,
    hostRead s 0x00 = 0 ∧ hostRead s 0x01 = s.status.toNat ∧ hostRead s 0x02 = cfgMtOf s.cfg ∧
    hostRead s 0x03 = cfgNkOf s.cfg ∧ hostRead s 0x04 = s.cfg.prim ∧ hostRead s 0x05 = s.cfg.g ∧
    hostRead s 0x10 = s.msg ∧ hostRead s 0x11 = s.cw ∧ hostRead s 0x12 = s.rx ∧ hostRead s 0x13 = s.corr ∧
    hostRead s 0x20 = s.syn1 ∧ hostRead s 0x21 = s.syn2 ∧ hostRead s 0x22 = s.syn3 ∧ hostRead s 0x23 = s.syn4 ∧
    hostRead s 0x24 = s.det ∧ hostRead s 0x25 = s.sigma1 ∧ hostRead s 0x26 = s.sigma2 ∧
    hostRead s 0x27 = (if s.sigma2 ≠ 0 then 2 else if s.sigma1 ≠ 0 then 1 else 0) ∧
    hostRead s 0x28 = s.errmask ∧ hostRead s 0x29 = s.errcnt ∧ hostRead s 0x30 = s.gfA ∧ hostRead s 0x31 = s.gfB ∧
    hostRead s 0x32 = s.gfI ∧ hostRead s 0x33 = s.gfR) ∧
  (∀ (s : State) (a : Addr), (5 < a.toNat ∧ a.toNat < 0x10) ∨ (0x13 < a.toNat ∧ a.toNat < 0x20) ∨
    (0x29 < a.toNat ∧ a.toNat < 0x30) ∨ 0x33 < a.toNat → hostRead s a = 0) ∧
  ∀ (s : State) (a : Addr) (rest : List HostLine), ¬ codeReserved s → s.program = .read a :: rest →
    ∃ t, step s = .next t ∧ blockOf t = blockOf s

/-- R51: what a write to each address does, for every natural number v. -/
def Obligations.HostWriteStoresModuloTheWidth : Prop :=
  (∀ (s : State) (v : Nat),
    hostWrite 0x00 v s = execute (BitVec.ofNat 32 (v % 2 ^ 32)) s ∧
    hostWrite 0x10 v s = .next { s with msg := v % 2 ^ s.cfg.k } ∧
    hostWrite 0x12 v s = .next { s with rx := v % 2 ^ s.cfg.n } ∧
    hostWrite 0x20 v s = .next { s with syn1 := v % 2 ^ s.cfg.m } ∧
    hostWrite 0x21 v s = .next { s with syn2 := v % 2 ^ s.cfg.m } ∧
    hostWrite 0x22 v s = .next { s with syn3 := v % 2 ^ s.cfg.m } ∧
    hostWrite 0x23 v s = .next { s with syn4 := v % 2 ^ s.cfg.m } ∧
    hostWrite 0x25 v s = .next { s with sigma1 := v % 2 ^ s.cfg.m } ∧
    hostWrite 0x26 v s = .next { s with sigma2 := v % 2 ^ s.cfg.m } ∧
    hostWrite 0x28 v s = .next { s with errmask := v % 2 ^ s.cfg.n } ∧
    hostWrite 0x30 v s = .next { s with gfA := v % 2 ^ s.cfg.m } ∧
    hostWrite 0x31 v s = .next { s with gfB := v % 2 ^ s.cfg.m } ∧
    hostWrite 0x32 v s = .next { s with gfI := v % 2 ^ 16 }) ∧
  ∀ (s : State) (a : Addr) (v : Nat),
    a.toNat ∉ [0x00, 0x10, 0x12, 0x20, 0x21, 0x22, 0x23, 0x25, 0x26, 0x28, 0x30, 0x31, 0x32] →
    hostWrite a v s = .next s

/-- R58, R56: a read after a write to a host-writable register gives the value written, reduced to the width; every other
address reads as before, but for SIGDEG, which follows SIGMA1 and SIGMA2; and writing the value again changes nothing. -/
def Obligations.ReadAfterWrite : Prop :=
  ∀ (s : State) (r : Reg) (v : Nat), accessOf r = .readWrite →
    ∃ t, hostWrite (addrOf r) v s = .next t ∧ hostRead t (addrOf r) = v % 2 ^ widthOf s.cfg r ∧
      (∀ a : Addr, a ≠ addrOf r → a ≠ 0x27 → hostRead t a = hostRead s a) ∧
      (r ≠ .sigma1 → r ≠ .sigma2 → hostRead t 0x27 = hostRead s 0x27) ∧
      hostWrite (addrOf r) v t = .next t

/-- R31 to R34: the fields of the configuration words and their values on the worked instance; CFG_GEN holds G, of
N - K + 1 bits, whose top and bottom bits are 1; and no host write changes one. -/
def Obligations.ConfigurationWordsHoldTheirFields : Prop :=
  (∀ s : State, Valid s.cfg →
    hostRead s 0x02 % 2 ^ 5 = s.cfg.m ∧ hostRead s 0x02 / 2 ^ 5 % 2 ^ 3 = 0 ∧
    hostRead s 0x02 / 2 ^ 8 % 2 ^ 4 = s.cfg.t ∧ hostRead s 0x02 / 2 ^ 12 = 0 ∧
    hostRead s 0x03 % 2 ^ 16 = s.cfg.n ∧ hostRead s 0x03 / 2 ^ 16 = s.cfg.k ∧ s.cfg.k < 2 ^ 16 ∧
    hostRead s 0x04 % 2 ^ 17 = s.cfg.prim ∧ hostRead s 0x04 / 2 ^ 17 = 0 ∧
    hostRead s 0x05 = s.cfg.g ∧ widthOf s.cfg .cfgGen = s.cfg.n - s.cfg.k + 1 ∧
    s.cfg.g < 2 ^ (s.cfg.n - s.cfg.k + 1) ∧ s.cfg.g.testBit (s.cfg.n - s.cfg.k) = true ∧
    s.cfg.g.testBit 0 = true) ∧
  (∀ (s : State) (v : Nat), ∀ a ∈ [(0x02 : Addr), 0x03, 0x04, 0x05], hostWrite a v s = .next s) ∧
  ∀ s : State, s.cfg = Config.worked →
    hostRead s 0x02 = 0x00000204 ∧ hostRead s 0x03 = 0x0007000F ∧ hostRead s 0x04 = 0x00000013 ∧
    hostRead s 0x05 = 0x1D1

/-- R75: the two macros, as the transactions they expand to. That the read is recorded in `reads` as an RD's is, and the
write is left as the host's next line, is the model's choice (DEDUCED, log entry 6). The word `INJECT` writes differs from RX exactly at the positions named an odd number of times. -/
def Obligations.MacrosExpandToTransactions : Prop :=
  (∀ (s : State) (rest : List HostLine), ¬ codeReserved s → s.program = .movRxCw :: rest →
    step s = .next { s with program := .write 0x12 s.cw :: rest, reads := s.reads ++ [s.cw] }) ∧
  (∀ (s : State) (ps : List Nat) (rest : List HostLine), ¬ codeReserved s → s.program = .inject ps :: rest →
    ∃ v, step s = .next { s with program := .write 0x12 v :: rest, reads := s.reads ++ [s.rx] } ∧
      ∀ i, v.testBit i = (s.rx.testBit i ^^ (ps.count i % 2 == 1)))

/-! ## Reset and build (spec/70_reset_and_hazards.md, spec/10_state.md) -/

/-- R44: reset sets every stored register to its reset value; SIGDEG then reads 0, and the configuration words, EXP and
LOG are as before (the configuration is). -/
def Obligations.ResetSetsEveryStoredRegister : Prop :=
  ∀ (s : State) (rest : List HostLine), ¬ codeReserved s → s.program = .reset :: rest →
    ∃ t, step s = .next t ∧ t.status = 0x00000000 ∧ t.msg = 0 ∧ t.cw = 0 ∧ t.rx = 0 ∧ t.corr = 0 ∧
      t.syn1 = 0 ∧ t.syn2 = 0 ∧ t.syn3 = 0 ∧ t.syn4 = 0 ∧ t.det = 0 ∧ t.sigma1 = 0 ∧ t.sigma2 = 0 ∧
      t.errmask = 0 ∧ t.errcnt = 0 ∧ t.gfA = 0 ∧ t.gfB = 0 ∧ t.gfI = 0 ∧ t.gfR = 0 ∧ hostRead t 0x27 = 0 ∧
      t.cfg = s.cfg ∧ (∀ a ∈ [(0x02 : Addr), 0x03, 0x04, 0x05], hostRead t a = hostRead s a) ∧
      (∀ i, expEntry t.cfg i = expEntry s.cfg i) ∧ ∀ a, logOf t.cfg a = logOf s.cfg a

/-- R18: a block is built exactly for the configurations that pass R19 to R25, in its reset state. A failing one is
refused: with `InvalidField` only if it fails R19, R20 or R21, with `ConfigurationError` only if it fails R22, R23, R24 or
R25, and with no other reason. -/
def Obligations.OnlyValidConfigurationsAreBuilt : Prop :=
  ∀ c : Config,
    let fieldOk := ChkMRange c ∧ ChkPrimDegree c ∧ ChkPrimPrimitive c
    let codeOk := ChkT c ∧ ChkNRange c ∧ ChkGenEq c ∧ ChkGenDegree c
    (fieldOk ∧ codeOk → build c = .ok (State.resetOf c)) ∧
    (¬ (fieldOk ∧ codeOk) → build c = .error .invalidField ∨ build c = .error .configurationError) ∧
    (build c = .error .invalidField → ¬ fieldOk) ∧
    (build c = .error .configurationError → ¬ codeOk) ∧
    (fieldOk → ¬ codeOk → build c = .error .configurationError)

/-- The reset state of the machine, and of every block that is built, meets the invariant. -/
def Obligations.ResetMeetsTheInvariant : Prop :=
  State.reset.Inv ∧ ∀ (c : Config) (s : State), build c = .ok s → s.Inv

/-- R46 invariant 1, with R18 and R30: every transaction from a state that meets the invariant leaves one that does. -/
def Obligations.EveryStepKeepsTheInvariant : Prop :=
  ∀ s t : State, s.Inv → step s = .next t → t.Inv

/-- R86, R145: from a state that meets the invariant, every transaction and every command ends in a next state: no
fault and no refusal is ever reached. -/
def Obligations.EveryTransactionCompletes : Prop :=
  ∀ s : State, s.Inv → Completes (step s) ∧ (∀ w, Completes (execute w s)) ∧ ∀ i, Completes (exec i s)

/-- R26, R61, R134: no command, host write or reset changes the configuration, and so neither EXP, LOG nor G. -/
def Obligations.TheConfigurationNeverChanges : Prop :=
  ∀ s t : State, step s = .next t → t.cfg = s.cfg

/-- R137: operation straight from the reset values, on every block that is built. -/
def Obligations.CommandsAfterReset : Prop :=
  ∀ c : Config, Valid c →
    (∃ t, exec (.decode (BitVec.ofNat 16 c.n)) (State.resetOf c) = .next t ∧ codeOf t = 0 ∧ t.corr = 0 ∧ t.errmask = 0) ∧
    (∃ t, exec .solve (State.resetOf c) = .next t ∧ codeOf t = 0 ∧ t.sigma1 = 0 ∧ t.sigma2 = 0) ∧
    ∃ t, exec .gfInv (State.resetOf c) = .next t ∧ codeOf t = 2

/-! ## Frames -/

/-- R40: the four field commands read GF_A, GF_B, GF_I and write GF_R and STATUS, and no other register: nothing else
changes, and what they answer is the same whatever the other registers hold. -/
def Obligations.FieldCommandsTouchOnlyTheirRegisters : Prop :=
  ∀ i ∈ [Instr.gfAdd, .gfMul, .gfInv, .gfPow], ∀ s t : State, exec i s = .next t →
    t = { s with gfR := t.gfR, status := t.status } ∧
    ∀ s' : State, s'.cfg = s.cfg → s'.status = s.status → s'.gfA = s.gfA → s'.gfB = s.gfB → s'.gfI = s.gfI →
      s'.gfR = s.gfR → exec i s' = .next { s' with gfR := t.gfR, status := t.status }

/-- R40: no codec command reads or writes GF_A, GF_B, GF_I or GF_R. -/
def Obligations.CodecCommandsIgnoreTheFieldRegisters : Prop :=
  ∀ (i : Instr) (s t : State), i ∉ [Instr.gfAdd, .gfMul, .gfInv, .gfPow] → exec i s = .next t →
    t.gfA = s.gfA ∧ t.gfB = s.gfB ∧ t.gfI = s.gfI ∧ t.gfR = s.gfR ∧
    ∀ a b e r : Nat, exec i { s with gfA := a, gfB := b, gfI := e, gfR := r } =
      .next { t with gfA := a, gfB := b, gfI := e, gfR := r }

/-- R28, R35, R66: the registers each codec command writes; every other field is unchanged, whatever the outcome's code.
No command word, accepted or not, changes a register that only the host writes, nor the host's side. -/
def Obligations.CodecCommandsWriteOnlyTheirResults : Prop :=
  (∀ (len : BitVec 16) (s t : State), exec (.encode len) s = .next t → t = { s with cw := t.cw, status := t.status }) ∧
  (∀ (len : BitVec 16) (s t : State), exec (.syndrome len) s = .next t →
    t = { s with syn1 := t.syn1, syn2 := t.syn2, syn3 := t.syn3, syn4 := t.syn4, status := t.status }) ∧
  (∀ s t : State, exec .solve s = .next t →
    t = { s with det := t.det, sigma1 := t.sigma1, sigma2 := t.sigma2, status := t.status }) ∧
  (∀ s t : State, exec .chien s = .next t →
    t = { s with errmask := t.errmask, errcnt := t.errcnt, status := t.status }) ∧
  (∀ s t : State, exec .correct s = .next t → t = { s with corr := t.corr, status := t.status }) ∧
  (∀ (len : BitVec 16) (s t : State), exec (.decode len) s = .next t →
    t = { s with
      syn1 := t.syn1, syn2 := t.syn2, syn3 := t.syn3, syn4 := t.syn4, det := t.det, sigma1 := t.sigma1,
      sigma2 := t.sigma2, errmask := t.errmask, errcnt := t.errcnt, corr := t.corr, status := t.status }) ∧
  ∀ (w : Word) (s t : State), execute w s = .next t →
    t.rx = s.rx ∧ t.msg = s.msg ∧ t.gfA = s.gfA ∧ t.gfB = s.gfB ∧ t.gfI = s.gfI ∧
    t.program = s.program ∧ t.reads = s.reads

/-! ## Field arithmetic (spec/40_gf2m_arith.md) -/

/-- R26, R27: the EXP table is the construction loop's; LOG maps each nonzero field element to the one index below Q whose
EXP entry it is; zero has no entry; and the entries of both on the worked instance. -/
def Obligations.ExpAndLogTables : Prop :=
  (∀ c : Config, expEntry c 0 = 1 ∧ ∀ i, expEntry c (i + 1) =
    if (expEntry c i * 2).testBit c.m then (expEntry c i * 2) ^^^ c.prim else expEntry c i * 2) ∧
  (∀ c : Config, Valid c →
    (∀ a, 1 ≤ a → a ≤ c.q →
      ∃ i < c.q, logOf c a = .ok i ∧ expEntry c i = a ∧ ∀ j < c.q, expEntry c j = a → j = i) ∧
    (∀ i < c.q, 1 ≤ expEntry c i ∧ expEntry c i ≤ c.q ∧ logOf c (expEntry c i) = .ok i) ∧
    logOf c 0 = .error .logNoEntry) ∧
  (List.range 15).map (expEntry Config.worked) = [1, 2, 4, 8, 3, 6, 12, 11, 5, 10, 7, 14, 15, 13, 9] ∧
  ∀ j < 15, logOf Config.worked (j + 1) = .ok ([0, 1, 4, 2, 8, 5, 10, 3, 14, 9, 7, 6, 13, 11, 12].getD j 0)

/-- R81: GF_ADD. -/
def Obligations.GfAddXorsItsOperands : Prop :=
  decode 0x00000001 = .ok .gfAdd ∧
  (∀ s : State, EndsAs (exec .gfAdd s) { s with gfR := s.gfA ^^^ s.gfB } 0 0x01) ∧
  (∀ s t : State, exec .gfAdd s = .next t →
    (s.gfA = s.gfB → t.gfR = 0) ∧ (s.gfA = 0 → t.gfR = s.gfB) ∧ (s.gfB = 0 → t.gfR = s.gfA) ∧
    (s.gfA = 7 → s.gfB = 9 → t.gfR = 14)) ∧
  ∀ (s t : State) (v : Nat), v % 2 ^ 8 = 0x01 → hostWrite 0x00 v s = .next t → codeOf t = 0 ∨ codeOf t = 5

/-- R82: GF_MUL on every two field elements: zero if an operand is, else the EXP entry at the sum of the logarithms
modulo Q. -/
def Obligations.GfMulAddsLogarithms : Prop :=
  decode 0x00000002 = .ok .gfMul ∧
  (∀ s : State, Valid s.cfg → s.gfA < 2 ^ s.cfg.m → s.gfB < 2 ^ s.cfg.m →
    ∃ r < 2 ^ s.cfg.m, EndsAs (exec .gfMul s) { s with gfR := r } 0 0x02 ∧
      (s.gfA = 0 ∨ s.gfB = 0 → r = 0) ∧
      (s.gfA ≠ 0 → s.gfB ≠ 0 → ∃ i < s.cfg.q, ∃ j < s.cfg.q, expEntry s.cfg i = s.gfA ∧ expEntry s.cfg j = s.gfB ∧
        r = expEntry s.cfg ((i + j) % s.cfg.q)) ∧
      (s.gfA = 1 → r = s.gfB) ∧ (s.gfB = 1 → r = s.gfA) ∧
      (s.gfA ≠ 0 → gfInv s.cfg s.gfA = .ok s.gfB → r = 1)) ∧
  (∀ s : State, s.cfg = Config.worked → s.gfA = 7 → s.gfB = 9 →
    EndsAs (exec .gfMul s) { s with gfR := 10 } 0 0x02) ∧
  ∀ (s t : State) (v : Nat), v % 2 ^ 8 = 0x02 → hostWrite 0x00 v s = .next t → codeOf t = 0 ∨ codeOf t = 5

/-- R83: GF_INV: DIVISION_BY_ZERO and GF_R unchanged on 0, else the EXP entry at Q minus the logarithm, modulo Q, whose
product with GF_A is 1. -/
def Obligations.GfInvInvertsOrReportsDivisionByZero : Prop :=
  decode 0x00000003 = .ok .gfInv ∧
  (∀ s : State, s.gfA = 0 → EndsAs (exec .gfInv s) s 2 0x03) ∧
  (∀ s : State, Valid s.cfg → s.gfA ≠ 0 → s.gfA < 2 ^ s.cfg.m →
    ∃ r < 2 ^ s.cfg.m, EndsAs (exec .gfInv s) { s with gfR := r } 0 0x03 ∧
      (∃ i < s.cfg.q, expEntry s.cfg i = s.gfA ∧ r = expEntry s.cfg ((s.cfg.q - i) % s.cfg.q)) ∧
      gfMul s.cfg s.gfA r = .ok 1 ∧ (s.gfA = 1 → r = 1)) ∧
  (∀ s : State, s.cfg = Config.worked → s.gfA = 2 → EndsAs (exec .gfInv s) { s with gfR := 9 } 0 0x03) ∧
  (∀ s : State, StatusLegal s.status → s.gfA = 0 → s.gfR = 9 →
    ∃ t, exec .gfInv s = .next t ∧ t.status = 0x00000302 ∧ t.gfR = 9) ∧
  ∀ (s t : State) (v : Nat), v % 2 ^ 8 = 0x03 → hostWrite 0x00 v s = .next t →
    codeOf t = 0 ∨ codeOf t = 2 ∨ codeOf t = 5

/-- R84: GF_POW is the EXP entry at the exponent modulo Q, never 0. -/
def Obligations.GfPowReadsExpModuloQ : Prop :=
  decode 0x00000004 = .ok .gfPow ∧
  (∀ s : State, EndsAs (exec .gfPow s) { s with gfR := expEntry s.cfg (s.gfI % s.cfg.q) } 0 0x04) ∧
  (∀ s t : State, Valid s.cfg → exec .gfPow s = .next t →
    t.gfR ≠ 0 ∧ t.gfR < 2 ^ s.cfg.m ∧ (s.gfI = 0 → t.gfR = 1) ∧ (s.gfI = s.cfg.q → t.gfR = 1) ∧
    (s.gfI = 65535 → t.gfR = expEntry s.cfg (65535 % s.cfg.q))) ∧
  (∀ s t : State, s.cfg = Config.worked → exec .gfPow s = .next t →
    (s.gfI = 4 → t.gfR = 3) ∧ (s.gfI = 16 → t.gfR = 2)) ∧
  ∀ (s t : State) (v : Nat), v % 2 ^ 8 = 0x04 → hostWrite 0x00 v s = .next t → codeOf t = 0 ∨ codeOf t = 5

/-- R85: the field laws, on every configuration for which a block exists and every field element. -/
def Obligations.FieldLawsHold : Prop :=
  ∀ (c : Config) (a b d : Nat), Valid c → a < 2 ^ c.m → b < 2 ^ c.m → d < 2 ^ c.m →
    (a ≠ 0 → (gfInv c a).bind (gfMul c a) = .ok 1) ∧
    gfMul c a (gfAdd b d) = (gfMul c a b).bind (fun x => (gfMul c a d).map (gfAdd x)) ∧
    gfAdd a a = 0 ∧
    (∃ v < 2 ^ c.m, gfMul c a b = .ok v) ∧
    gfMul c a b = gfMul c b a ∧
    (gfMul c a b).bind (fun x => gfMul c x d) = (gfMul c b d).bind (gfMul c a) ∧
    gfMul c a 1 = .ok a ∧
    ∀ i j : Nat, gfMul c (gfPow c i) (gfPow c j) = .ok (gfPow c (i + j))

/-- The table product is the product of polynomials over GF(2) modulo PRIM (R12, R76, R78). -/
def Obligations.GfMulIsPolynomialProductModuloPrim : Prop :=
  ∀ (c : Config) (a b : Nat), Valid c → a < 2 ^ c.m → b < 2 ^ c.m →
    gfMul c a b = .ok (polyDivmod (polyMul a b) c.prim).2

/-- R124: DIVISION_BY_ZERO is raised only by GF_INV on GF_A = 0, which does not write GF_R. -/
def Obligations.DivisionByZeroOnlyFromGfInv : Prop :=
  ∀ (w : Word) (s t : State), execute w s = .next t →
    (codeOf t = 2 ↔ decode w = .ok .gfInv ∧ s.gfA = 0) ∧ (codeOf t = 2 → t.gfR = s.gfR)

/-! ## Encoder (spec/41_encoder.md) -/

/-- R24, R87: poly_mul is the convolution of the coefficients modulo 2 and adds degrees; poly_divmod answers the one
quotient and remainder with p = poly_mul(q, g) xor r and deg(r) < deg(g). -/
def Obligations.PolynomialProductAndDivision : Prop :=
  (∀ p q i : Nat, (polyMul p q).testBit i =
    (((List.range (i + 1)).filter fun j => q.testBit j && p.testBit (i - j)).length % 2 == 1)) ∧
  (∀ p q : Nat, p ≠ 0 → q ≠ 0 → polyMul p q ≠ 0 ∧ degree (polyMul p q) = degree p + degree q) ∧
  ∀ p g : Nat, 1 ≤ g →
    p = polyMul (polyDivmod p g).1 g ^^^ (polyDivmod p g).2 ∧ (polyDivmod p g).2 < 2 ^ degree g ∧
    ((polyDivmod p g).2 ≠ 0 → degree (polyDivmod p g).2 < degree g) ∧
    ∀ q r : Nat, p = polyMul q g ^^^ r → r < 2 ^ degree g → polyDivmod p g = (q, r)

/-- R89: ENCODE. -/
def Obligations.EncodeAppendsTheRemainder : Prop :=
  (∀ c : Config, Valid c → decode (BitVec.ofNat 32 ((c.k <<< 16) ||| 0x10)) = .ok (.encode (BitVec.ofNat 16 c.k))) ∧
  (∀ (len : BitVec 16) (s : State), len.toNat = s.cfg.k →
    EndsAs (exec (.encode len) s)
      { s with cw := (s.msg <<< (s.cfg.n - s.cfg.k)) |||
          (polyDivmod (s.msg <<< (s.cfg.n - s.cfg.k)) s.cfg.g).2 } 0 0x10) ∧
  (∀ (len : BitVec 16) (s : State), len.toNat ≠ s.cfg.k → EndsAs (exec (.encode len) s) s 1 0x10) ∧
  (∀ (len : BitVec 16) (s t : State), Valid s.cfg → s.msg < 2 ^ s.cfg.k → len.toNat = s.cfg.k →
    exec (.encode len) s = .next t →
    (polyDivmod (s.msg <<< (s.cfg.n - s.cfg.k)) s.cfg.g).2 < 2 ^ (s.cfg.n - s.cfg.k) ∧ t.cw < 2 ^ s.cfg.n ∧
    (s.msg = 0 → t.cw = 0) ∧ (s.msg = 1 → t.cw = s.cfg.g) ∧ t.msg = s.msg ∧
    t.cw = (s.msg <<< (s.cfg.n - s.cfg.k)) ^^^ (polyDivmod (s.msg <<< (s.cfg.n - s.cfg.k)) s.cfg.g).2) ∧
  (∀ s : State, s.cfg = Config.worked → s.msg = 0x55 →
    EndsAs (exec (.encode 7) s) { s with cw := 0x55E5 } 0 0x10) ∧
  ∀ (s t : State) (v : Nat), v % 2 ^ 8 = 0x10 → hostWrite 0x00 v s = .next t →
    codeOf t = 0 ∨ codeOf t = 1 ∨ codeOf t = 5

/-- R90, R91: the codeword's high K bits are the message and its low N - K bits the remainder, in string form the first
K characters are the message, and G divides it. -/
def Obligations.CodewordIsSystematicAndDivisible : Prop :=
  ∀ (len : BitVec 16) (s : State), s.Inv → len.toNat = s.cfg.k →
    ∃ t, exec (.encode len) s = .next t ∧
      t.cw / 2 ^ (s.cfg.n - s.cfg.k) = s.msg ∧
      t.cw % 2 ^ (s.cfg.n - s.cfg.k) = (polyDivmod (s.msg <<< (s.cfg.n - s.cfg.k)) s.cfg.g).2 ∧
      (bitString s.cfg.n t.cw).take s.cfg.k = bitString s.cfg.k s.msg ∧
      (polyDivmod t.cw s.cfg.g).2 = 0

/-- R92: ENCODE is linear, and the set of the 2^K codewords is closed under xor. -/
def Obligations.EncodeIsLinear : Prop :=
  ∀ c : Config, Valid c →
    (∀ a b : Nat, a < 2 ^ c.k → b < 2 ^ c.k → codewordOf c (a ^^^ b) = codewordOf c a ^^^ codewordOf c b) ∧
    (∀ a b : Nat, a < 2 ^ c.k → b < 2 ^ c.k → codewordOf c a = codewordOf c b → a = b) ∧
    (∀ v : Nat, IsCodeword c v ↔ ∃ a < 2 ^ c.k, v = codewordOf c a) ∧
    ∀ u v : Nat, IsCodeword c u → IsCodeword c v → IsCodeword c (u ^^^ v)

/-- R24, G1: G is the polynomial of least degree with the roots α to α^4, and the worked instance's G is 0x1D1. -/
def Obligations.GeneratorIsMinimalWithItsRoots : Prop :=
  (∀ c : Config, Valid c →
    (∀ i ∈ [1, 2, 3, 4], polyEval c c.g (degree c.g + 1) (gfPow c i) = .ok 0) ∧
    ∀ p w : Nat, p ≠ 0 → p < 2 ^ w → (∀ i ∈ [1, 2, 3, 4], polyEval c p w (gfPow c i) = .ok 0) →
      degree c.g ≤ degree p) ∧
  minPoly? Config.worked 1 = some 0x13 ∧ minPoly? Config.worked 3 = some 0x1F ∧ polyMul 0x13 0x1F = 0x1D1 ∧
  genPoly? Config.worked = some 0x1D1

/-! ## Syndromes (spec/42_syndrome.md) -/

/-- R93: Horner's scheme gives the sum of gf_pow(j·LOG[a]) over the 1 bits j of the word. -/
def Obligations.HornerEvaluatesTheSum : Prop :=
  ∀ (c : Config) (v w a la : Nat), Valid c → a < 2 ^ c.m → logOf c a = .ok la →
    polyEval c v w a =
      .ok ((List.range w).foldl (fun acc j => if v.testBit j then gfAdd acc (gfPow c (j * la)) else acc) 0)

/-- R94: SYNDROME. -/
def Obligations.SyndromeEvaluatesTheReceivedWord : Prop :=
  (∀ c : Config, Valid c → decode (BitVec.ofNat 32 ((c.n <<< 16) ||| 0x20)) = .ok (.syndrome (BitVec.ofNat 16 c.n))) ∧
  (∀ (len : BitVec 16) (s : State), len.toNat ≠ s.cfg.n → EndsAs (exec (.syndrome len) s) s 1 0x20) ∧
  (∀ (len : BitVec 16) (s : State), Valid s.cfg → s.rx < 2 ^ s.cfg.n → len.toNat = s.cfg.n →
    ∃ y1 y2 y3 y4 : Nat,
      polyEval s.cfg s.rx s.cfg.n (gfPow s.cfg 1) = .ok y1 ∧ polyEval s.cfg s.rx s.cfg.n (gfPow s.cfg 2) = .ok y2 ∧
      polyEval s.cfg s.rx s.cfg.n (gfPow s.cfg 3) = .ok y3 ∧ polyEval s.cfg s.rx s.cfg.n (gfPow s.cfg 4) = .ok y4 ∧
      EndsAs (exec (.syndrome len) s) { s with syn1 := y1, syn2 := y2, syn3 := y3, syn4 := y4 } 0 0x20 ∧
      (s.rx = 0 → y1 = 0 ∧ y2 = 0 ∧ y3 = 0 ∧ y4 = 0) ∧
      (IsCodeword s.cfg s.rx → y1 = 0 ∧ y2 = 0 ∧ y3 = 0 ∧ y4 = 0) ∧
      ∀ j < s.cfg.n, s.rx = 2 ^ j →
        y1 = gfPow s.cfg (1 * j) ∧ y2 = gfPow s.cfg (2 * j) ∧ y3 = gfPow s.cfg (3 * j) ∧ y4 = gfPow s.cfg (4 * j)) ∧
  (∀ s : State, s.cfg = Config.worked → s.rx = 0x55E5 ^^^ 0x0001 →
    EndsAs (exec (.syndrome 15) s) { s with syn1 := 1, syn2 := 1, syn3 := 1, syn4 := 1 } 0 0x20) ∧
  (∀ s : State, s.cfg = Config.worked → s.rx = 0x55E5 ^^^ 0x4000 →
    EndsAs (exec (.syndrome 15) s) { s with syn1 := 9, syn2 := 13, syn3 := 15, syn4 := 14 } 0 0x20) ∧
  ∀ (s t : State) (v : Nat), v % 2 ^ 8 = 0x20 → hostWrite 0x00 v s = .next t →
    codeOf t = 0 ∨ codeOf t = 1 ∨ codeOf t = 5

/-- R95: all four syndromes of a word are 0 exactly when G divides it; so an error pattern that is itself a codeword
leaves DECODE reporting OK with CORR = RX. -/
def Obligations.ZeroSyndromesExactlyOnCodewords : Prop :=
  (∀ (c : Config) (r : Nat), Valid c → r < 2 ^ c.n →
    (syndromesOf c r = .ok { s1 := 0, s2 := 0, s3 := 0, s4 := 0 } ↔ (polyDivmod r c.g).2 = 0)) ∧
  ∀ (len : BitVec 16) (s : State) (v e : Nat), s.Inv → len.toNat = s.cfg.n → IsCodeword s.cfg v → IsCodeword s.cfg e →
    s.rx = v ^^^ e →
    ∃ t, exec (.decode len) s = .next t ∧ codeOf t = 0 ∧ t.corr = s.rx ∧ t.errmask = 0 ∧
      t.syn1 = 0 ∧ t.syn2 = 0 ∧ t.syn3 = 0 ∧ t.syn4 = 0

/-- R96: evaluation is linear in the word, and the syndromes of a codeword with errors at distinct positions are the
power sums of their locators. -/
def Obligations.SyndromesArePowerSumsOfTheErrors : Prop :=
  (∀ (c : Config) (r e a : Nat), Valid c → a < 2 ^ c.m →
    ∃ x y : Nat, polyEval c r c.n a = .ok x ∧ polyEval c e c.n a = .ok y ∧
      polyEval c (r ^^^ e) c.n a = .ok (gfAdd x y)) ∧
  ∀ (c : Config) (v : Nat) (ps : List Nat) (i : Nat), Valid c → IsCodeword c v → ps.Nodup → (∀ p ∈ ps, p < c.n) →
    i ∈ [1, 2, 3, 4] →
    polyEval c (v ^^^ patternOf ps) c.n (gfPow c i) = .ok (ps.foldl (fun acc p => gfAdd acc (gfPow c (p * i))) 0)

/-- R97: the syndromes of any binary word satisfy S2 = S1² and S4 = S2² = S1⁴, and SYNDROME always leaves such ones. The
host may write others, and SOLVE does not check them. -/
def Obligations.SyndromesAreConjugate : Prop :=
  (∀ (c : Config) (r : Nat), Valid c →
    ∃ y : Syndromes, syndromesOf c r = .ok y ∧ gfMul c y.s1 y.s1 = .ok y.s2 ∧ gfMul c y.s2 y.s2 = .ok y.s4) ∧
  (∀ (len : BitVec 16) (s : State), s.Inv → len.toNat = s.cfg.n →
    ∃ t, exec (.syndrome len) s = .next t ∧ gfMul s.cfg t.syn1 t.syn1 = .ok t.syn2 ∧
      gfMul s.cfg t.syn2 t.syn2 = .ok t.syn4) ∧
  ∀ (s : State) (b d e : Nat), s.Inv → s.syn1 ≠ 0 → b < 2 ^ s.cfg.m → d < 2 ^ s.cfg.m →
    ∃ t, exec .solve { s with syn2 := b, syn3 := d, syn4 := e } = .next t ∧ codeOf t = 0

/-! ## Solver (spec/43_locator_solver.md) -/

/-- R101: SOLVE, with R99 (D = S1), R98 (the system it solves) and R100 (σ1 = S1); on the syndromes X, X², X³ of a single
error σ2 is 0. -/
def Obligations.SolveSolvesTheNewtonSystem : Prop :=
  decode 0x00000021 = .ok .solve ∧
  (∀ s : State, s.syn1 = 0 → s.syn2 = 0 → s.syn3 = 0 → s.syn4 = 0 →
    EndsAs (exec .solve s) { s with det := 0, sigma1 := 0, sigma2 := 0 } 0 0x21) ∧
  (∀ s : State, s.syn1 = 0 → ¬ (s.syn2 = 0 ∧ s.syn3 = 0 ∧ s.syn4 = 0) →
    EndsAs (exec .solve s) { s with det := 0, sigma1 := 0, sigma2 := 0 } 3 0x21) ∧
  (∀ s : State, s.Inv → s.syn1 ≠ 0 →
    ∃ sigma2 dinv s1s2 x y : Nat,
      EndsAs (exec .solve s) { s with det := s.syn1, sigma1 := s.syn1, sigma2 := sigma2 } 0 0x21 ∧
      gfInv s.cfg s.syn1 = .ok dinv ∧ gfMul s.cfg s.syn1 s.syn2 = .ok s1s2 ∧
      gfMul s.cfg (gfAdd s.syn3 s1s2) dinv = .ok sigma2 ∧
      gfMul s.cfg s.syn2 s.syn1 = .ok x ∧ gfMul s.cfg s.syn1 sigma2 = .ok y ∧ gfAdd x y = s.syn3) ∧
  (∀ s : State, s.Inv → s.syn1 ≠ 0 → gfMul s.cfg s.syn1 s.syn1 = .ok s.syn2 → gfMul s.cfg s.syn1 s.syn2 = .ok s.syn3 →
    EndsAs (exec .solve s) { s with det := s.syn1, sigma1 := s.syn1, sigma2 := 0 } 0 0x21) ∧
  (∀ s : State, s.cfg = Config.worked → s.syn1 = 9 → s.syn2 = 13 → s.syn3 = 11 → s.syn4 = 14 →
    EndsAs (exec .solve s) { s with det := 9, sigma1 := 9, sigma2 := 8 } 0 0x21) ∧
  ∀ (s t : State) (v : Nat), v % 2 ^ 8 = 0x21 → hostWrite 0x00 v s = .next t →
    codeOf t = 0 ∨ codeOf t = 3 ∨ codeOf t = 5

/-- R102: on the syndromes of a codeword with at most two errors, σ1 is the sum and σ2 the product of the locators, and
SOLVE is never UNCORRECTABLE. -/
def Obligations.SolveFindsTheLocatorsOfTwoErrors : Prop :=
  ∀ (len : BitVec 16) (s : State) (v : Nat), s.Inv → len.toNat = s.cfg.n → IsCodeword s.cfg v →
    (s.rx = v → ∃ t u, exec (.syndrome len) s = .next t ∧ exec .solve t = .next u ∧ codeOf u = 0 ∧
      u.sigma1 = 0 ∧ u.sigma2 = 0 ∧ u.det = u.sigma1) ∧
    (∀ p < s.cfg.n, s.rx = v ^^^ 2 ^ p → ∃ t u, exec (.syndrome len) s = .next t ∧ exec .solve t = .next u ∧
      codeOf u = 0 ∧ u.sigma1 = gfPow s.cfg p ∧ u.sigma2 = 0 ∧ u.det = u.sigma1 ∧ u.det ≠ 0) ∧
    ∀ p r : Nat, p < s.cfg.n → r < s.cfg.n → p ≠ r → s.rx = v ^^^ 2 ^ p ^^^ 2 ^ r →
      ∃ t u, exec (.syndrome len) s = .next t ∧ exec .solve t = .next u ∧ codeOf u = 0 ∧
        u.sigma1 = gfAdd (gfPow s.cfg p) (gfPow s.cfg r) ∧ gfMul s.cfg (gfPow s.cfg p) (gfPow s.cfg r) = .ok u.sigma2 ∧
        (s.cfg = Config.worked → p = 0 → r = 3 →
          gfPow s.cfg p = 1 ∧ gfPow s.cfg r = 8 ∧ u.sigma1 = 9 ∧ u.sigma2 = 8) ∧ u.det = u.sigma1 ∧ u.det ≠ 0

/-! ## Search and correction (spec/44_chien_search.md, spec/45_corrector.md) -/

/-- R108: CHIEN: the mask of the positions below N at which the locator is 0, and their number; the mask is cleared, with
MISCORRECTION_DETECTED, where the number is not SIGDEG. -/
def Obligations.ChienFindsTheZerosOfTheLocator : Prop :=
  decode 0x00000022 = .ok .chien ∧
  (∀ s : State, s.Inv →
    ∃ mask < 2 ^ s.cfg.n, (∀ i < s.cfg.n, (mask.testBit i = true ↔ IsZeroAt s.cfg s.sigma1 s.sigma2 i)) ∧
      (popcount s.cfg.n mask = hostRead s 0x27 →
        EndsAs (exec .chien s) { s with errmask := mask, errcnt := popcount s.cfg.n mask } 0 0x22) ∧
      (popcount s.cfg.n mask ≠ hostRead s 0x27 →
        EndsAs (exec .chien s) { s with errmask := 0, errcnt := popcount s.cfg.n mask } 4 0x22)) ∧
  (∀ s : State, s.Inv → s.sigma1 = 0 → s.sigma2 = 0 →
    EndsAs (exec .chien s) { s with errmask := 0, errcnt := 0 } 0 0x22) ∧
  (∀ s : State, s.Inv → s.sigma1 = 0 → s.sigma2 ≠ 0 → ∃ t, exec .chien s = .next t ∧ codeOf t = 4 ∧ t.errcnt ≤ 1) ∧
  (∀ s : State, s.cfg = Config.worked → s.sigma1 = 9 → s.sigma2 = 8 →
    EndsAs (exec .chien s) { s with errmask := 0x0009, errcnt := 2 } 0 0x22) ∧
  (∀ s t : State, s.cfg = Config.worked → s.sigma1 = 9 → s.sigma2 = 8 → StatusLegal s.status → exec .chien s = .next t →
    t.status = 0x00002200) ∧
  ∀ (s t : State) (v : Nat), v % 2 ^ 8 = 0x22 → hostWrite 0x00 v s = .next t →
    codeOf t = 0 ∨ codeOf t = 4 ∨ codeOf t = 5

/-- R110: at every position, Λ(α^(-i)) = α^(-2i)·σ(α^i) for the monic σ(x) = x² + σ1·x + σ2; so the two have the same
zeros. -/
def Obligations.ReciprocalAndMonicLocatorAgree : Prop :=
  ∀ (c : Config) (a b i : Nat), Valid c → a < 2 ^ c.m → b < 2 ^ c.m → i < c.n →
    ∃ xx ax sigma lam : Nat,
      gfMul c (gfPow c i) (gfPow c i) = .ok xx ∧ gfMul c a (gfPow c i) = .ok ax ∧ sigma = gfAdd (gfAdd xx ax) b ∧
      lambdaAt c a b (pointOf c i) = .ok lam ∧
      (gfMul c (pointOf c i) (pointOf c i)).bind (fun yy => gfMul c yy sigma) = .ok lam ∧
      (IsZeroAt c a b i ↔ sigma = 0)

/-- R111: after every CHIEN at most two zeros are counted; with SIGDEG = 1 the only root is at LOG[σ1], found exactly
when that position is below N; and for the locator of v ≤ 2 errors at distinct positions the zeros are those, with
ERRCNT = v = SIGDEG. -/
def Obligations.ChienRootFacts : Prop :=
  (∀ s t : State, s.Inv → exec .chien s = .next t → t.errcnt ≤ 2) ∧
  (∀ s : State, s.Inv → s.sigma1 = 0 → s.sigma2 = 0 → hostRead s 0x27 = 0 ∧
    ∃ t, exec .chien s = .next t ∧ codeOf t = 0 ∧ t.errmask = 0 ∧ t.errcnt = 0) ∧
  (∀ (s : State) (p : Nat), s.Inv → p < s.cfg.n → s.sigma1 = gfPow s.cfg p → s.sigma2 = 0 → hostRead s 0x27 = 1 ∧
    ∃ t, exec .chien s = .next t ∧ codeOf t = 0 ∧ t.errmask = 2 ^ p ∧ t.errcnt = 1) ∧
  (∀ s : State, s.Inv → s.sigma2 = 0 → s.sigma1 ≠ 0 →
    ∃ p < s.cfg.q, logOf s.cfg s.sigma1 = .ok p ∧
      (p < s.cfg.n → ∃ t, exec .chien s = .next t ∧ codeOf t = 0 ∧ t.errmask = 2 ^ p ∧ t.errcnt = 1) ∧
      (¬ p < s.cfg.n → ∃ t, exec .chien s = .next t ∧ codeOf t = 4 ∧ t.errmask = 0 ∧ t.errcnt = 0)) ∧
  (∀ (s : State) (p r : Nat), s.Inv → p < s.cfg.n → r < s.cfg.n → p ≠ r →
    s.sigma1 = gfAdd (gfPow s.cfg p) (gfPow s.cfg r) → s.sigma2 = gfPow s.cfg (p + r) → hostRead s 0x27 = 2 ∧
    ∃ t, exec .chien s = .next t ∧ codeOf t = 0 ∧ t.errmask = 2 ^ p ^^^ 2 ^ r ∧ t.errcnt = 2) ∧
  (∀ s : State, s.cfg = Config.worked → s.sigma1 = 2 → s.sigma2 = 0 →
    EndsAs (exec .chien s) { s with errmask := 0x0002, errcnt := 1 } 0 0x22) ∧
  (∀ s : State, s.cfg = Config.worked → s.sigma1 = 0 → s.sigma2 = 1 →
    EndsAs (exec .chien s) { s with errmask := 0, errcnt := 1 } 4 0x22) ∧
  ∀ s : State, s.cfg = { Config.worked with n := 12, k := 4 } → s.sigma1 = 13 → s.sigma2 = 0 →
    EndsAs (exec .chien s) { s with errmask := 0, errcnt := 0 } 4 0x22

/-- R112, R113: CORRECT flips exactly the masked bits into CORR and leaves RX; the xor of the two is the mask. -/
def Obligations.CorrectFlipsTheMaskedBits : Prop :=
  decode 0x00000023 = .ok .correct ∧
  (∀ s : State, EndsAs (exec .correct s) { s with corr := s.rx ^^^ s.errmask } 0 0x23) ∧
  (∀ s t : State, exec .correct s = .next t →
    (∀ i, t.corr.testBit i = (s.rx.testBit i ^^ s.errmask.testBit i)) ∧ (s.errmask = 0 → t.corr = s.rx) ∧
    t.rx = s.rx ∧ t.errmask = s.errmask ∧ t.rx ^^^ t.corr = s.errmask ∧
    (s.rx = 0x55EC → s.errmask = 0x0009 → t.corr = 0x55E5)) ∧
  ∀ (s t : State) (v : Nat), v % 2 ^ 8 = 0x23 → hostWrite 0x00 v s = .next t → codeOf t = 0 ∨ codeOf t = 5

/-! ## Decode pipeline (spec/46_decode.md, spec/60_exceptions.md, spec/70_reset_and_hazards.md) -/

/-- R114: DECODE, by the four ways it can end once its length is right. The syndromes are those of RX, the locator is
Cramer's, and the zeros are counted at the positions below N. -/
def Obligations.DecodeRunsThePipeline : Prop :=
  (∀ c : Config, Valid c → decode (BitVec.ofNat 32 ((c.n <<< 16) ||| 0x30)) = .ok (.decode (BitVec.ofNat 16 c.n))) ∧
  (∀ (len : BitVec 16) (s : State), len.toNat ≠ s.cfg.n → EndsAs (exec (.decode len) s) s 1 0x30) ∧
  (∀ (len : BitVec 16) (s : State), s.Inv → len.toNat = s.cfg.n →
    ∃ y : Syndromes, syndromesOf s.cfg s.rx = .ok y ∧
      (y.s1 = 0 ∧ y.s2 = 0 ∧ y.s3 = 0 ∧ y.s4 = 0 →
        EndsAs (exec (.decode len) s)
          { s with syn1 := 0, syn2 := 0, syn3 := 0, syn4 := 0, det := 0, sigma1 := 0, sigma2 := 0, errmask := 0,
                   errcnt := 0, corr := s.rx } 0 0x30) ∧
      (y.s1 = 0 → ¬ (y.s2 = 0 ∧ y.s3 = 0 ∧ y.s4 = 0) →
        EndsAs (exec (.decode len) s)
          { s with syn1 := y.s1, syn2 := y.s2, syn3 := y.s3, syn4 := y.s4, det := 0, sigma1 := 0, sigma2 := 0,
                   errmask := 0, errcnt := 0, corr := s.rx } 3 0x30) ∧
      (y.s1 ≠ 0 →
        ∃ sigma2 dinv s1s2 mask : Nat, gfInv s.cfg y.s1 = .ok dinv ∧ gfMul s.cfg y.s1 y.s2 = .ok s1s2 ∧
          gfMul s.cfg (gfAdd y.s3 s1s2) dinv = .ok sigma2 ∧ mask < 2 ^ s.cfg.n ∧
          (∀ i < s.cfg.n, (mask.testBit i = true ↔ IsZeroAt s.cfg y.s1 sigma2 i)) ∧
          (popcount s.cfg.n mask = (if sigma2 ≠ 0 then 2 else 1) →
            EndsAs (exec (.decode len) s)
              { s with syn1 := y.s1, syn2 := y.s2, syn3 := y.s3, syn4 := y.s4, det := y.s1, sigma1 := y.s1,
                       sigma2 := sigma2, errmask := mask, errcnt := popcount s.cfg.n mask,
                       corr := s.rx ^^^ mask } 0 0x30) ∧
          (popcount s.cfg.n mask ≠ (if sigma2 ≠ 0 then 2 else 1) →
            EndsAs (exec (.decode len) s)
              { s with syn1 := y.s1, syn2 := y.s2, syn3 := y.s3, syn4 := y.s4, det := y.s1, sigma1 := y.s1,
                       sigma2 := sigma2, errmask := 0, errcnt := popcount s.cfg.n mask,
                       corr := s.rx } 4 0x30))) ∧
  (∀ (len : BitVec 16) (s : State), s.Inv → len.toNat = s.cfg.n → IsCodeword s.cfg s.rx →
    EndsAs (exec (.decode len) s)
      { s with syn1 := 0, syn2 := 0, syn3 := 0, syn4 := 0, det := 0, sigma1 := 0, sigma2 := 0, errmask := 0,
               errcnt := 0, corr := s.rx } 0 0x30) ∧
  (∀ s : State, s.cfg = Config.worked → s.rx = 0x55EC →
    EndsAs (exec (.decode 15) s)
      { s with syn1 := 9, syn2 := 13, syn3 := 11, syn4 := 14, det := 9, sigma1 := 9, sigma2 := 8, errmask := 0x0009,
               errcnt := 2, corr := 0x55E5 } 0 0x30) ∧
  ∀ (s t : State) (v : Nat), v % 2 ^ 8 = 0x30 → hostWrite 0x00 v s = .next t →
    codeOf t = 0 ∨ codeOf t = 1 ∨ codeOf t = 3 ∨ codeOf t = 4 ∨ codeOf t = 5

/-- R115: from any state of a built block, DECODE leaves every register but STATUS as SYNDROME, SOLVE, CHIEN and CORRECT
in turn do, and its CODE is the first non-OK code of that sequence, or OK. -/
def Obligations.DecodeIsTheSequenceOfItsSteps : Prop :=
  ∀ (len : BitVec 16) (s : State), s.Inv → len.toNat = s.cfg.n →
    ∃ t s1 s2 s3 s4 : State, exec (.decode len) s = .next t ∧ exec (.syndrome len) s = .next s1 ∧
      exec .solve s1 = .next s2 ∧ exec .chien s2 = .next s3 ∧ exec .correct s3 = .next s4 ∧
      exceptStatus t = exceptStatus s4 ∧
      codeOf t = (if codeOf s1 ≠ 0 then codeOf s1 else if codeOf s2 ≠ 0 then codeOf s2
        else if codeOf s3 ≠ 0 then codeOf s3 else codeOf s4)

/-- R116: the transactions WR MSG, m; ENCODE; MOV RX, CW (a read of CW and a write of RX, R75); DECODE, from any state of
a built block, end with CODE = OK, CORR = CW, no error position, and the message in the high K bits of CORR. -/
def Obligations.RoundTripRecoversTheMessage : Prop :=
  ∀ (s : State) (m : Nat), s.Inv → m < 2 ^ s.cfg.k →
    ∃ s1 s2 s3 t, hostWrite 0x10 m s = .next s1 ∧ hostWrite 0x00 (pseudoWord s.cfg .encode).toNat s1 = .next s2 ∧
      hostWrite 0x12 (hostRead s2 0x11) s2 = .next s3 ∧ hostWrite 0x00 (pseudoWord s.cfg .decode).toNat s3 = .next t ∧
      codeOf t = 0 ∧ t.corr = t.cw ∧ t.errmask = 0 ∧ t.corr / 2 ^ (s.cfg.n - s.cfg.k) = m

/-- R117: for every codeword and every set of at most two positions, after WR RX of the corrupted word and DECODE the
codeword and exactly those positions are recovered. -/
def Obligations.DecodeCorrectsUpToTwoErrors : Prop :=
  ∀ (s : State) (v : Nat) (ps : List Nat), s.Inv → IsCodeword s.cfg v → ps.Nodup → ps.length ≤ 2 →
    (∀ p ∈ ps, p < s.cfg.n) →
    ∃ s1 t, hostWrite 0x12 (v ^^^ patternOf ps) s = .next s1 ∧
      hostWrite 0x00 (pseudoWord s.cfg .decode).toNat s1 = .next t ∧
      codeOf t = 0 ∧ t.corr = v ∧ t.errmask = patternOf ps ∧ t.errmask = (ps.map (2 ^ ·)).sum

/-- R118: on a word at distance more than 2 from a codeword v, DECODE is UNCORRECTABLE or MISCORRECTION_DETECTED with
CORR = RX, or OK with CORR a codeword other than v within distance 2 of RX; the last exactly when there is such a
codeword. -/
def Obligations.BeyondTheRadiusThreeOutcomes : Prop :=
  (∀ (len : BitVec 16) (s : State) (v : Nat), s.Inv → len.toNat = s.cfg.n → IsCodeword s.cfg v →
    2 < popcount s.cfg.n (s.rx ^^^ v) →
    ∃ t, exec (.decode len) s = .next t ∧
      ((codeOf t = 3 ∧ t.corr = s.rx) ∨ (codeOf t = 4 ∧ t.corr = s.rx) ∨
        (codeOf t = 0 ∧ IsCodeword s.cfg t.corr ∧ t.corr ≠ v ∧ popcount s.cfg.n (t.corr ^^^ s.rx) ≤ 2)) ∧
      (codeOf t = 0 ↔ ∃ u, IsCodeword s.cfg u ∧ u ≠ v ∧ popcount s.cfg.n (u ^^^ s.rx) ≤ 2)) ∧
  ∀ s : State, s.cfg = Config.worked → s.rx = 0x55E5 ^^^ 0x0007 →
    ∃ t, exec (.decode 15) s = .next t ∧ codeOf t = 0 ∧ t.errmask = 0x2200 ∧ t.corr = 0x77E2

/-- R46 invariants 3 to 5: after SOLVE, and after a DECODE that passed its command checks, DET = SYN1; after CHIEN or
DECODE, ERRMASK is 0 on a failure code and has ERRCNT 1 bits on OK. -/
def Obligations.ResultsAgreeAfterACommand : Prop :=
  (∀ s t : State, exec .solve s = .next t → t.det = t.syn1) ∧
  (∀ (len : BitVec 16) (s t : State), len.toNat = s.cfg.n → exec (.decode len) s = .next t → t.det = t.syn1) ∧
  (∀ (i : Instr) (s t : State), s.Inv → i = .chien ∨ (∃ len, i = .decode len) → exec i s = .next t →
    (codeOf t = 4 ∨ codeOf t = 3 → t.errmask = 0) ∧ (codeOf t = 0 → popcount s.cfg.n t.errmask = t.errcnt))

/-- R125: UNCORRECTABLE is raised by SOLVE and DECODE alone, exactly when the syndromes are not all 0 and D = S1 is 0,
and what it records. -/
def Obligations.UncorrectableExactlyWhenSingular : Prop :=
  ∀ (w : Word) (s t : State), execute w s = .next t →
    (codeOf t = 3 →
      (decode w = .ok .solve ∨ ∃ len, decode w = .ok (.decode len)) ∧ t.det = 0 ∧ t.sigma1 = 0 ∧ t.sigma2 = 0) ∧
    (decode w = .ok .solve →
      (codeOf t = 3 ↔ s.syn1 = 0 ∧ ¬ (s.syn2 = 0 ∧ s.syn3 = 0 ∧ s.syn4 = 0)) ∧
      t.syn1 = s.syn1 ∧ t.syn2 = s.syn2 ∧ t.syn3 = s.syn3 ∧ t.syn4 = s.syn4) ∧
    ∀ len, decode w = .ok (.decode len) → len.toNat = s.cfg.n →
      syndromesOf s.cfg s.rx = .ok { s1 := t.syn1, s2 := t.syn2, s3 := t.syn3, s4 := t.syn4 } ∧
      (codeOf t = 3 ↔ t.syn1 = 0 ∧ ¬ (t.syn2 = 0 ∧ t.syn3 = 0 ∧ t.syn4 = 0)) ∧
      (codeOf t = 3 → t.corr = s.rx ∧ t.errmask = 0 ∧ t.errcnt = 0)

/-- R126: MISCORRECTION_DETECTED is raised by CHIEN and DECODE alone, exactly when the number of zeros found, which is in
ERRCNT, is not SIGDEG, and what it records. DECODE gets as far as the search exactly when S1 is not 0. -/
def Obligations.MiscorrectionExactlyOnRootCountMismatch : Prop :=
  ∀ (w : Word) (s t : State), s.Inv → execute w s = .next t →
    (codeOf t = 4 → (decode w = .ok .chien ∨ ∃ len, decode w = .ok (.decode len)) ∧ t.errmask = 0) ∧
    (decode w = .ok .chien →
      (codeOf t = 4 ↔ t.errcnt ≠ hostRead s 0x27) ∧
      (∃ mask, (∀ i < s.cfg.n, (mask.testBit i = true ↔ IsZeroAt s.cfg s.sigma1 s.sigma2 i)) ∧
        t.errcnt = popcount s.cfg.n mask) ∧
      t.sigma1 = s.sigma1 ∧ t.sigma2 = s.sigma2 ∧
      t.syn1 = s.syn1 ∧ t.syn2 = s.syn2 ∧ t.syn3 = s.syn3 ∧ t.syn4 = s.syn4) ∧
    ∀ len, decode w = .ok (.decode len) → len.toNat = s.cfg.n →
      (codeOf t = 4 ↔ t.syn1 ≠ 0 ∧ t.errcnt ≠ hostRead t 0x27) ∧
      (t.syn1 ≠ 0 → ∃ mask, (∀ i < s.cfg.n, (mask.testBit i = true ↔ IsZeroAt s.cfg t.sigma1 t.sigma2 i)) ∧
        t.errcnt = popcount s.cfg.n mask) ∧
      (codeOf t = 4 → t.corr = s.rx ∧ t.det = t.syn1 ∧ t.sigma1 = t.syn1 ∧
        syndromesOf s.cfg s.rx = .ok { s1 := t.syn1, s2 := t.syn2, s3 := t.syn3, s4 := t.syn4 })

/-- R141: the standalone steps do not stop on each other's failures: what a command does is the same whatever code STATUS
holds; after an UNCORRECTABLE SOLVE a CHIEN reports OK with an empty mask; CORRECT applies whatever mask the host wrote;
and a CORRECT after a CHIEN or DECODE that failed flips nothing. -/
def Obligations.StandaloneStepsDoNotStop : Prop :=
  (∀ (i : Instr) (s t : State) (st : Word), exec i s = .next t →
    ∃ t', exec i { s with status := st } = .next t' ∧ exceptStatus t' = exceptStatus t ∧ codeOf t' = codeOf t) ∧
  (∀ s t : State, s.Inv → exec .solve s = .next t → codeOf t = 3 → t.sigma1 = 0 ∧ t.sigma2 = 0 ∧
    ∃ u, exec .chien t = .next u ∧ codeOf u = 0 ∧ u.errmask = 0) ∧
  (∀ (s : State) (v : Nat), ∃ t u, hostWrite 0x28 v s = .next t ∧ exec .correct t = .next u ∧
    u.corr = s.rx ^^^ (v % 2 ^ s.cfg.n)) ∧
  ∀ (i : Instr) (s t : State), i = .chien ∨ (∃ len, i = .decode len) → exec i s = .next t →
    codeOf t = 3 ∨ codeOf t = 4 → ∃ u, exec .correct t = .next u ∧ u.corr = s.rx

/-- R143: a write drops the bits at or above the register's width, without a code; and ENCODE succeeds on the bits
stored. -/
def Obligations.OverWideMessageIsTruncatedAndEncoded : Prop :=
  (∀ (s : State) (r : Reg) (v : Nat), accessOf r = .readWrite →
    ∃ t, hostWrite (addrOf r) v s = .next t ∧ hostRead t (addrOf r) = v % 2 ^ widthOf s.cfg r ∧ t.status = s.status) ∧
  ∀ (len : BitVec 16) (s : State) (v : Nat), len.toNat = s.cfg.k →
    ∃ t, hostWrite 0x10 v s = .next t ∧ t.msg = v % 2 ^ s.cfg.k ∧ t.status = s.status ∧
      EndsAs (exec (.encode len) t) { t with cw := codewordOf s.cfg (v % 2 ^ s.cfg.k) } 0 0x10

/-! ## Serialization (spec/20_memory.md R54, spec/00_scope.md R13) -/

/-- R13: the leftmost character of the bit string of width w is bit w - 1 and the rightmost bit 0, and the string gives the
value back; the first K characters of a codeword are its message; a literal's most significant digit is first. R54: the
big-endian buffer of a value of width w: its length, each byte, the pad bits 0, and the value it carries back. A host
write of a buffer of the register's length, its pad bits at any value, stores the buffer's value modulo 2^width, and
the register serializes as that buffer with its pad bits 0. -/
def Obligations.BitStringsAndByteBuffers : Prop :=
  (∀ w v : Nat, (bitString w v).length = w ∧
    (∀ i (hi : i < (bitString w v).length), (bitString w v)[i] = v.testBit (w - 1 - i)) ∧
    (v < 2 ^ w → ofBitString (bitString w v) = v)) ∧
  ofBitString [true, false, true, false, true, false, true] = 0x55 ∧
  (∀ (c : Config) (m : Nat), Valid c → m < 2 ^ c.k → (bitString c.n (codewordOf c m)).take c.k = bitString c.k m) ∧
  (∀ bits : List Bool, bits ≠ [] →
    let digits := bits.map fun b => if b then '1' else '0'
    valueOf? ('\'' :: digits ++ ['\'']) = some (ofBitString bits) ∧
    valueOf? ('0' :: 'b' :: digits) = some (ofBitString bits)) ∧
  valueOf? "0x55E5".toList = some 0x55E5 ∧
  (∀ w v : Nat, v < 2 ^ w →
    (toBytes w v).length = (w + 7) / 8 ∧
    (∀ b (hb : b < (toBytes w v).length), ((toBytes w v)[b]).toNat = v / 2 ^ (8 * ((w + 7) / 8 - 1 - b)) % 256) ∧
    ofBytes (toBytes w v) = v ∧
    (∀ hb : 0 < (toBytes w v).length, ((toBytes w v)[0]).toNat < 2 ^ (w - 8 * ((w + 7) / 8 - 1)))) ∧
  (∀ (s : State) (r : Reg) (bytes : List Byte), accessOf r = .readWrite →
    bytes.length = byteCount (widthOf s.cfg r) →
    ∃ t, hostWrite (addrOf r) (ofBytes bytes) s = .next t ∧
      hostRead t (addrOf r) = ofBytes bytes % 2 ^ widthOf s.cfg r ∧
      ∀ (b : Byte) (rest : List Byte), bytes = b :: rest →
        toBytes (widthOf s.cfg r) (hostRead t (addrOf r)) =
          BitVec.ofNat 8 (b.toNat % 2 ^ (widthOf s.cfg r - 8 * rest.length)) :: rest) ∧
  toBytes 15 0x55E5 = [0x55, 0xE5]

/-! ## A choice of the model beside R18 (log entry 14) -/

/-- A configuration that fails one of R19 to R21 is refused with `InvalidField`, whether or not it also fails one of R22
to R25. R18 gives the reason of each check and no order among them: that `InvalidField` wins is the model's choice
(DESIGN CHOICE, log entry 14). -/
def Obligations.FieldChecksComeFirst : Prop :=
  ∀ c : Config, ¬ (ChkMRange c ∧ ChkPrimDegree c ∧ ChkPrimPrimitive c) → build c = .error .invalidField
end

