-- ==== Sys2Proof/Laws/Field.lean ====
section
/-!
SUPPORT. The EXP and LOG tables of a configuration that passes R19 to R21 (spec/10_state.md R26, R27): one turn of
the construction loop is linear, the EXP entries are the nonzero field elements, each once, with period Q, and LOG
is their inverse. From these, what each field function answers (spec/40_gf2m_arith.md R77 to R80).
-/

namespace Sys2Proof.Machine

/-- The checks of R19 to R21, which make the tables those of a field. -/
structure FieldOk (c : Config) : Prop where
  range : ChkMRange c
  prim : ChkPrimDegree c
  primitive : ChkPrimPrimitive c

theorem Valid.checks {c : Config} (h : Valid c) :
    ChkMRange c ∧ ChkPrimDegree c ∧ ChkPrimPrimitive c ∧ ChkT c ∧ ChkNRange c ∧ ChkGenEq c ∧ ChkGenDegree c := by
  unfold Valid refusalOf at h
  split_ifs at h with h1 h2 h3 h4 h5 h6 h7
  exact ⟨h1, h2, h3, h4, h5, h6, h7⟩

theorem Valid.fieldOk {c : Config} (h : Valid c) : FieldOk c :=
  ⟨h.checks.1, h.checks.2.1, h.checks.2.2.1⟩

theorem Valid.chkT {c : Config} (h : Valid c) : c.t = 2 := h.checks.2.2.2.1

theorem Valid.chkN {c : Config} (h : Valid c) : 1 ≤ c.n ∧ c.n ≤ c.q := h.checks.2.2.2.2.1

theorem Valid.genEq {c : Config} (h : Valid c) : genPoly? c = some c.g := h.checks.2.2.2.2.2.1

theorem Valid.genDegree {c : Config} (h : Valid c) : degree c.g + c.k = c.n ∧ 1 ≤ c.k := h.checks.2.2.2.2.2.2

theorem FieldOk.two_le_pow {c : Config} (h : FieldOk c) : 4 ≤ 2 ^ c.m :=
  (by decide : 4 ≤ 2 ^ 2).trans (Nat.pow_le_pow_right (by decide) h.range.1)

theorem FieldOk.q_succ {c : Config} (h : FieldOk c) : c.q + 1 = 2 ^ c.m := by
  have := h.two_le_pow
  unfold Config.q
  omega

theorem FieldOk.q_pos {c : Config} (h : FieldOk c) : 3 ≤ c.q := by
  have := h.two_le_pow
  have := h.q_succ
  omega

/-! ### The construction loop -/

@[simp] theorem timesX_zero (c : Config) : timesX c 0 = 0 := by
  simp [timesX]

theorem timesX_xor (c : Config) (a b : Nat) : timesX c (a ^^^ b) = timesX c a ^^^ timesX c b := by
  unfold timesX
  rw [Nat.shiftLeft_xor_distrib, Nat.testBit_xor]
  cases (a <<< 1).testBit c.m <;> cases (b <<< 1).testBit c.m <;> simp
  · rw [Nat.xor_assoc]
  · rw [Nat.xor_assoc, Nat.xor_comm (b <<< 1), ← Nat.xor_assoc]
  · rw [Nat.xor_assoc, Nat.xor_comm c.prim, Nat.xor_assoc, Nat.xor_self, Nat.xor_zero]

theorem timesX_lt {c : Config} (h : FieldOk c) {e : Nat} (he : e < 2 ^ c.m) : timesX c e < 2 ^ c.m := by
  have hs : e <<< 1 < 2 ^ (c.m + 1) := by
    rw [Nat.shiftLeft_eq, Nat.pow_succ]
    omega
  unfold timesX
  split
  · next hb =>
    refine Nat.lt_pow_two_of_testBit _ fun i hi => ?_
    rw [Nat.testBit_xor]
    rcases Nat.eq_or_lt_of_le hi with rfl | hlt
    · have hp : c.prim.testBit c.m = true := by
        rw [Nat.testBit_eq_decide_div_mod_eq]
        have := h.prim
        have h1 : c.prim / 2 ^ c.m = 1 := by
          apply Nat.div_eq_of_lt_le
          · omega
          · have := this.2
            rw [Nat.pow_succ] at this
            omega
        simp [h1]
      rw [hb, hp]
      rfl
    · have hpow : 2 ^ (c.m + 1) ≤ 2 ^ i := Nat.pow_le_pow_right (by decide) hlt
      rw [Nat.testBit_lt_two_pow (by omega), Nat.testBit_lt_two_pow (by have := h.prim.2; omega)]
      rfl
  · next hb =>
    refine Nat.lt_pow_two_of_testBit _ fun i hi => ?_
    rcases Nat.eq_or_lt_of_le hi with rfl | hlt
    · simpa using hb
    · have hpow : 2 ^ (c.m + 1) ≤ 2 ^ i := Nat.pow_le_pow_right (by decide) hlt
      exact Nat.testBit_lt_two_pow (by omega)

@[simp] theorem expEntry_zero (c : Config) : expEntry c 0 = 1 := rfl

theorem expEntry_succ (c : Config) (i : Nat) : expEntry c (i + 1) = timesX c (expEntry c i) := rfl

theorem expEntry_lt {c : Config} (h : FieldOk c) (i : Nat) : expEntry c i < 2 ^ c.m := by
  induction i with
  | zero => have := h.two_le_pow; change 1 < 2 ^ c.m; omega
  | succ i ih => exact timesX_lt h ih

theorem expEntry_period {c : Config} (h : FieldOk c) (i : Nat) : expEntry c (i + c.q) = expEntry c i := by
  induction i with
  | zero => simpa using h.primitive.2
  | succ i ih => rw [Nat.succ_add_eq_add_succ, Nat.add_succ, expEntry_succ, expEntry_succ, ih]

theorem expEntry_mod {c : Config} (h : FieldOk c) (i : Nat) : expEntry c (i % c.q) = expEntry c i := by
  conv_rhs => rw [← Nat.mod_add_div i c.q]
  generalize i / c.q = k
  induction k with
  | zero => simp
  | succ k ih => rw [Nat.mul_succ, ← Nat.add_assoc, expEntry_period h]; exact ih

theorem iterate_timesX_expEntry (c : Config) (i j : Nat) : (timesX c)^[j] (expEntry c i) = expEntry c (i + j) := by
  induction j with
  | zero => rfl
  | succ j ih => rw [Function.iterate_succ_apply', ih]; rfl

@[simp] theorem iterate_timesX_zero (c : Config) (j : Nat) : (timesX c)^[j] 0 = 0 := by
  induction j with
  | zero => rfl
  | succ j ih => rw [Function.iterate_succ_apply', ih, timesX_zero]

theorem iterate_timesX_xor (c : Config) (j a b : Nat) :
    (timesX c)^[j] (a ^^^ b) = (timesX c)^[j] a ^^^ (timesX c)^[j] b := by
  induction j with
  | zero => rfl
  | succ j ih => simp only [Function.iterate_succ_apply', ih, timesX_xor]

theorem expEntry_ne_zero {c : Config} (h : FieldOk c) (i : Nat) : expEntry c i ≠ 0 := by
  rw [← expEntry_mod h]
  intro h0
  have hlt : i % c.q < c.q := Nat.mod_lt _ (by have := h.q_pos; omega)
  have := iterate_timesX_expEntry c (i % c.q) (c.q - i % c.q)
  rw [h0, iterate_timesX_zero, Nat.add_sub_cancel' hlt.le, h.primitive.2] at this
  exact absurd this (by decide)

theorem expEntry_injOn {c : Config} (h : FieldOk c) {i j : Nat} (hi : i < c.q) (hj : j < c.q)
    (he : expEntry c i = expEntry c j) : i = j :=
  List.inj_on_of_nodup_map h.primitive.1 (List.mem_range.mpr hi) (List.mem_range.mpr hj) he

/-- Every nonzero field element is an EXP entry (R21, R27): there are Q of each. -/
theorem exists_expEntry {c : Config} (h : FieldOk c) {a : Nat} (ha : a ≠ 0) (hlt : a < 2 ^ c.m) :
    ∃ i < c.q, expEntry c i = a := by
  have hsub : (Finset.range c.q).image (expEntry c) ⊆ Finset.Ico 1 (2 ^ c.m) := by
    intro x hx
    obtain ⟨i, -, rfl⟩ := Finset.mem_image.mp hx
    have := expEntry_ne_zero h i
    have := expEntry_lt h i
    exact Finset.mem_Ico.mpr ⟨by omega, by omega⟩
  have hcard : ((Finset.range c.q).image (expEntry c)).card = c.q := by
    rw [Finset.card_image_of_injOn, Finset.card_range]
    intro i hi j hj he
    exact expEntry_injOn h (by simpa using hi) (by simpa using hj) he
  have heq := Finset.eq_of_subset_of_card_le hsub (by rw [hcard, Nat.card_Ico]; have := h.q_succ; omega)
  have hmem : a ∈ (Finset.range c.q).image (expEntry c) := by
    rw [heq]
    exact Finset.mem_Ico.mpr ⟨by omega, hlt⟩
  obtain ⟨i, hi, he⟩ := Finset.mem_image.mp hmem
  exact ⟨i, Finset.mem_range.mp hi, he⟩

/-! ### LOG -/

theorem logFrom_some (c : Config) (a : Nat) {fuel i j : Nat}
    (h : logFrom c a fuel i (expEntry c i) = some j) : expEntry c j = a ∧ i ≤ j ∧ j < i + fuel := by
  induction fuel generalizing i with
  | zero => simp [logFrom] at h
  | succ fuel ih =>
    rw [logFrom] at h
    split at h
    · next he => obtain rfl := Option.some.inj h; exact ⟨he, le_refl _, by omega⟩
    · obtain ⟨h1, h2, h3⟩ := ih h
      exact ⟨h1, by omega, by omega⟩

theorem logFrom_isSome (c : Config) {fuel i j : Nat} (hij : i ≤ j) (hj : j < i + fuel) :
    ∃ k, logFrom c (expEntry c j) fuel i (expEntry c i) = some k := by
  induction fuel generalizing i with
  | zero => omega
  | succ fuel ih =>
    rw [logFrom]
    split
    · exact ⟨i, rfl⟩
    · next hne =>
      have : i ≠ j := fun h => hne (by rw [h])
      exact ih (by omega) (by omega)

@[simp] theorem logOf_zero (c : Config) : logOf c 0 = .error .logNoEntry := rfl

/-- LOG answers an index below Q whose EXP entry is the argument, or there is no entry (R27). -/
theorem logOf_ok {c : Config} {a i : Nat} (h : logOf c a = .ok i) : a ≠ 0 ∧ i < c.q ∧ expEntry c i = a := by
  unfold logOf at h
  split at h
  · cases h
  · next ha =>
    split at h
    · next j hj =>
      obtain rfl := Except.ok.inj h
      obtain ⟨h1, -, h3⟩ := logFrom_some c a (i := 0) hj
      exact ⟨ha, by omega, h1⟩
    · cases h

theorem logOf_expEntry {c : Config} (h : FieldOk c) {i : Nat} (hi : i < c.q) : logOf c (expEntry c i) = .ok i := by
  obtain ⟨k, hk⟩ := logFrom_isSome c (fuel := c.q) (Nat.zero_le i) (by omega)
  have hk' : logOf c (expEntry c i) = .ok k := by
    unfold logOf
    rw [if_neg (expEntry_ne_zero h i)]
    rw [expEntry_zero] at hk
    rw [hk]
  obtain ⟨-, h2, h3⟩ := logOf_ok hk'
  rw [hk', expEntry_injOn h h2 hi h3]

/-! ### The field functions -/

theorem gfAdd_lt {c : Config} {a b : Nat} (ha : a < 2 ^ c.m) (hb : b < 2 ^ c.m) : gfAdd a b < 2 ^ c.m :=
  Nat.xor_lt_two_pow ha hb

@[simp] theorem gfMul_zero_left (c : Config) (b : Nat) : gfMul c 0 b = .ok 0 := by
  simp [gfMul]

@[simp] theorem gfMul_zero_right (c : Config) (a : Nat) : gfMul c a 0 = .ok 0 := by
  simp [gfMul]

/-- gf_mul on two EXP entries adds the exponents (R78). -/
theorem gfMul_expEntry {c : Config} (h : FieldOk c) (i j : Nat) :
    gfMul c (expEntry c i) (expEntry c j) = .ok (expEntry c (i + j)) := by
  have hq : 0 < c.q := by have := h.q_pos; omega
  unfold gfMul
  rw [if_neg (by simp [expEntry_ne_zero h]), ← expEntry_mod h i, ← expEntry_mod h j,
    logOf_expEntry h (Nat.mod_lt _ hq), logOf_expEntry h (Nat.mod_lt _ hq), ← expEntry_mod h (i + j), Nat.add_mod]
  rfl

/-- gf_mul by an EXP entry is that many turns of the construction loop: linear in the other operand. -/
theorem gfMul_iterate {c : Config} (h : FieldOk c) {a : Nat} (ha : a < 2 ^ c.m) (j : Nat) :
    gfMul c a (expEntry c j) = .ok ((timesX c)^[j] a) := by
  by_cases h0 : a = 0
  · subst h0; simp
  · obtain ⟨i, -, rfl⟩ := exists_expEntry h h0 ha
    rw [gfMul_expEntry h, iterate_timesX_expEntry]

theorem gfInv_expEntry {c : Config} (h : FieldOk c) {i : Nat} (hi : i < c.q) :
    gfInv c (expEntry c i) = .ok (expEntry c (c.q - i)) := by
  unfold gfInv
  rw [if_neg (expEntry_ne_zero h i), logOf_expEntry h hi]
  change Except.ok _ = _
  rw [expEntry_mod h]

theorem gfPow_eq {c : Config} (h : FieldOk c) (i : Nat) : gfPow c i = expEntry c i := expEntry_mod h i

theorem gfPow_lt {c : Config} (h : FieldOk c) (i : Nat) : gfPow c i < 2 ^ c.m := expEntry_lt h _

theorem gfPow_ne_zero {c : Config} (h : FieldOk c) (i : Nat) : gfPow c i ≠ 0 := expEntry_ne_zero h _

end Sys2Proof.Machine
end

