-- ==== Sys2Proof/Laws/GaloisField.lean ====
section
/-!
SUPPORT. The field elements of a configuration that passes R19 to R21 are a field of characteristic 2 under gf_add and
gf_mul (spec/40_gf2m_arith.md R85), as a `Field` of the library, so that its algebra can be cited.
-/

namespace Sys2Proof.Machine

/-- The product of two field elements as a number, where gf_mul answers one. -/
def mulVal (c : Config) (a b : Nat) : Nat :=
  match gfMul c a b with
  | .ok v => v
  | .error _ => 0

@[simp] theorem mulVal_zero_left (c : Config) (b : Nat) : mulVal c 0 b = 0 := by simp [mulVal]

@[simp] theorem mulVal_zero_right (c : Config) (a : Nat) : mulVal c a 0 = 0 := by simp [mulVal]

theorem mulVal_iterate {c : Config} (h : FieldOk c) {a : Nat} (ha : a < 2 ^ c.m) (j : Nat) :
    mulVal c a (expEntry c j) = (timesX c)^[j] a := by
  rw [mulVal, gfMul_iterate h ha]

theorem mulVal_expEntry {c : Config} (h : FieldOk c) (i j : Nat) :
    mulVal c (expEntry c i) (expEntry c j) = expEntry c (i + j) := by
  rw [mulVal, gfMul_expEntry h]

/-- gf_mul answers on every two field elements, and answers a field element (R76, R86). -/
theorem gfMul_ok {c : Config} (h : FieldOk c) {a b : Nat} (ha : a < 2 ^ c.m) (hb : b < 2 ^ c.m) :
    gfMul c a b = .ok (mulVal c a b) := by
  by_cases h0 : b = 0
  · subst h0; simp
  · obtain ⟨j, -, rfl⟩ := exists_expEntry h h0 hb
    rw [mulVal_iterate h ha, gfMul_iterate h ha]

theorem iterate_timesX_lt {c : Config} (h : FieldOk c) {a : Nat} (ha : a < 2 ^ c.m) (j : Nat) :
    (timesX c)^[j] a < 2 ^ c.m := by
  induction j with
  | zero => exact ha
  | succ j ih => rw [Function.iterate_succ_apply']; exact timesX_lt h ih

theorem mulVal_lt {c : Config} (h : FieldOk c) {a b : Nat} (ha : a < 2 ^ c.m) (hb : b < 2 ^ c.m) :
    mulVal c a b < 2 ^ c.m := by
  by_cases h0 : b = 0
  · subst h0; simp
  · obtain ⟨j, -, rfl⟩ := exists_expEntry h h0 hb
    rw [mulVal_iterate h ha]
    exact iterate_timesX_lt h ha j

theorem mulVal_comm {c : Config} (h : FieldOk c) {a b : Nat} (ha : a < 2 ^ c.m) (hb : b < 2 ^ c.m) :
    mulVal c a b = mulVal c b a := by
  by_cases ha0 : a = 0
  · subst ha0; simp
  by_cases hb0 : b = 0
  · subst hb0; simp
  obtain ⟨i, -, rfl⟩ := exists_expEntry h ha0 ha
  obtain ⟨j, -, rfl⟩ := exists_expEntry h hb0 hb
  rw [mulVal_expEntry h, mulVal_expEntry h, Nat.add_comm]

theorem mulVal_assoc {c : Config} (h : FieldOk c) {a b d : Nat} (ha : a < 2 ^ c.m) (hb : b < 2 ^ c.m)
    (hd : d < 2 ^ c.m) : mulVal c (mulVal c a b) d = mulVal c a (mulVal c b d) := by
  by_cases hb0 : b = 0
  · subst hb0; simp
  by_cases hd0 : d = 0
  · subst hd0; simp
  obtain ⟨j, -, rfl⟩ := exists_expEntry h hb0 hb
  obtain ⟨k, -, rfl⟩ := exists_expEntry h hd0 hd
  rw [mulVal_expEntry h, mulVal_iterate h ha, mulVal_iterate h ha, mulVal_iterate h (iterate_timesX_lt h ha j),
    Nat.add_comm, Function.iterate_add_apply]

theorem mulVal_xor_left {c : Config} (h : FieldOk c) {a b d : Nat} (ha : a < 2 ^ c.m) (hb : b < 2 ^ c.m)
    (hd : d < 2 ^ c.m) : mulVal c (a ^^^ b) d = mulVal c a d ^^^ mulVal c b d := by
  by_cases hd0 : d = 0
  · subst hd0; simp
  obtain ⟨k, -, rfl⟩ := exists_expEntry h hd0 hd
  rw [mulVal_iterate h ha, mulVal_iterate h hb, mulVal_iterate h (Nat.xor_lt_two_pow ha hb), iterate_timesX_xor]

/-- A field element of a configuration: an M-bit value (R76). -/
@[ext] structure Gf (c : Config) where
  val : Nat
  lt : val < 2 ^ c.m

/-- The inverse as a number, 0 for 0. -/
def invVal (c : Config) (a : Nat) : Nat :=
  match gfInv c a with
  | .ok v => v
  | .error _ => 0

theorem gfInv_ok {c : Config} (h : FieldOk c) {a : Nat} (h0 : a ≠ 0) (ha : a < 2 ^ c.m) :
    gfInv c a = .ok (invVal c a) := by
  obtain ⟨i, hi, rfl⟩ := exists_expEntry h h0 ha
  rw [invVal, gfInv_expEntry h hi]

theorem invVal_lt {c : Config} (h : FieldOk c) {a : Nat} (ha : a < 2 ^ c.m) : invVal c a < 2 ^ c.m := by
  by_cases h0 : a = 0
  · subst h0; have := h.two_le_pow; simp [invVal, gfInv]
  · obtain ⟨i, hi, rfl⟩ := exists_expEntry h h0 ha
    rw [invVal, gfInv_expEntry h hi]
    exact expEntry_lt h _

theorem mulVal_invVal {c : Config} (h : FieldOk c) {a : Nat} (h0 : a ≠ 0) (ha : a < 2 ^ c.m) :
    mulVal c a (invVal c a) = 1 := by
  obtain ⟨i, hi, rfl⟩ := exists_expEntry h h0 ha
  rw [invVal, gfInv_expEntry h hi]
  rw [mulVal_expEntry h, Nat.add_sub_cancel' hi.le, h.primitive.2]

theorem mulVal_one {c : Config} (h : FieldOk c) {a : Nat} (ha : a < 2 ^ c.m) : mulVal c a 1 = a :=
  mulVal_iterate h ha 0

/-- The commutative ring under gf_add and gf_mul (R85). -/
@[reducible] def gfRing {c : Config} (h : FieldOk c) : CommRing (Gf c) :=
  letI : Zero (Gf c) := ⟨⟨0, by have := h.two_le_pow; omega⟩⟩
  letI : Add (Gf c) := ⟨fun a b => ⟨gfAdd a.val b.val, gfAdd_lt a.lt b.lt⟩⟩
  letI : Neg (Gf c) := ⟨fun a => a⟩
  letI : One (Gf c) := ⟨⟨1, by have := h.two_le_pow; omega⟩⟩
  letI : Mul (Gf c) := ⟨fun a b => ⟨mulVal c a.val b.val, mulVal_lt h a.lt b.lt⟩⟩
  { add_assoc := fun a b d => Gf.ext (Nat.xor_assoc _ _ _)
    zero_add := fun a => Gf.ext (Nat.zero_xor _)
    add_zero := fun a => Gf.ext (Nat.xor_zero _)
    add_comm := fun a b => Gf.ext (Nat.xor_comm _ _)
    nsmul := nsmulRec
    zsmul := zsmulRec
    neg_add_cancel := fun a => Gf.ext (Nat.xor_self _)
    left_distrib := fun a b d => Gf.ext (by
      change mulVal c a.val (b.val ^^^ d.val) = mulVal c a.val b.val ^^^ mulVal c a.val d.val
      rw [mulVal_comm h a.lt (Nat.xor_lt_two_pow b.lt d.lt), mulVal_xor_left h b.lt d.lt a.lt, mulVal_comm h b.lt a.lt,
        mulVal_comm h d.lt a.lt])
    right_distrib := fun a b d => Gf.ext (mulVal_xor_left h a.lt b.lt d.lt)
    zero_mul := fun a => Gf.ext (mulVal_zero_left c a.val)
    mul_zero := fun a => Gf.ext (mulVal_zero_right c a.val)
    mul_assoc := fun a b d => Gf.ext (mulVal_assoc h a.lt b.lt d.lt)
    one_mul := fun a => Gf.ext ((mulVal_comm h (One.one : Gf c).lt a.lt).trans (mulVal_one h a.lt))
    mul_one := fun a => Gf.ext (mulVal_one h a.lt)
    mul_comm := fun a b => Gf.ext (mulVal_comm h a.lt b.lt) }

/-- The field of a configuration that passes R19 to R21 (R85). -/
@[reducible] def gfField {c : Config} (h : FieldOk c) : Field (Gf c) :=
  letI := gfRing h
  { inv := fun a => ⟨invVal c a.val, invVal_lt h a.lt⟩
    exists_pair_ne := ⟨0, 1, fun he => zero_ne_one (congrArg Gf.val he : (0 : Nat) = 1)⟩
    mul_inv_cancel := fun a ha => Gf.ext (mulVal_invVal h (fun h0 => ha (Gf.ext h0)) a.lt)
    inv_zero := Gf.ext (show invVal c 0 = 0 by rfl)
    nnqsmul := _
    nnqsmul_def := fun _ _ => rfl
    qsmul := _
    qsmul_def := fun _ _ => rfl }

section
variable {c : Config} (h : FieldOk c)

theorem gfField_add_self (a : Gf c) : letI := gfField h; a + a = 0 := Gf.ext (Nat.xor_self _)

theorem gfField_charTwo : letI := gfField h; CharP (Gf c) 2 := by
  let := gfField h
  exact CharTwo.of_one_ne_zero_of_two_eq_zero one_ne_zero (by
    rw [← one_add_one_eq_two]; exact gfField_add_self h 1)

/-- An EXP entry as a field element: α^i. -/
def gfExp (i : Nat) : Gf c := ⟨expEntry c i, expEntry_lt h i⟩

theorem gfExp_add (i j : Nat) : letI := gfField h; gfExp h (i + j) = gfExp h i * gfExp h j :=
  Gf.ext (mulVal_expEntry h i j).symm

theorem gfExp_ne_zero (i : Nat) : letI := gfField h; gfExp h i ≠ 0 := fun he =>
  expEntry_ne_zero h i (congrArg Gf.val he)

theorem gfExp_eq_pow (i : Nat) : letI := gfField h; gfExp h i = gfExp h 1 ^ i := by
  let := gfField h
  induction i with
  | zero => exact (pow_zero _).symm
  | succ i ih => rw [gfExp_add, ih, pow_succ]

theorem gfExp_q : letI := gfField h; gfExp h c.q = 1 := Gf.ext h.primitive.2

/-- gf_mul is the product of the field. -/
theorem gfMul_val (a b : Gf c) : letI := gfField h; gfMul c a.val b.val = .ok (a * b).val :=
  gfMul_ok h a.lt b.lt

theorem gfInv_val (a : Gf c) (ha : a.val ≠ 0) : letI := gfField h; gfInv c a.val = .ok (a⁻¹).val :=
  gfInv_ok h ha a.lt

theorem gfAdd_val (a b : Gf c) : letI := gfField h; gfAdd a.val b.val = (a + b).val := rfl

end

end Sys2Proof.Machine
end

