-- ==== Sys2Proof/Laws/Poly.lean ====
section
/-!
SUPPORT. Binary polynomials (spec/10_state.md R24, spec/41_encoder.md R87): poly_mul is linear in its first operand and
adds degrees, and poly_divmod answers the one quotient and remainder there are.
-/

namespace Sys2Proof.Machine

theorem lt_two_pow_degree (p : Nat) : p < 2 ^ (degree p + 1) := by
  unfold degree
  exact Nat.lt_log2_self

theorem degree_lt {p k : Nat} (h0 : p ≠ 0) : degree p < k ↔ p < 2 ^ k := Nat.log2_lt h0

theorem testBit_degree {p : Nat} (h0 : p ≠ 0) : p.testBit (degree p) = true := Nat.testBit_log2 h0

/-- Clearing the top bit lowers the degree. -/
theorem lt_of_xor_top {a b k : Nat} (ha : a < 2 ^ (k + 1)) (hb : b < 2 ^ (k + 1)) (hak : a.testBit k = true)
    (hbk : b.testBit k = true) : a ^^^ b < 2 ^ k := by
  refine Nat.lt_pow_two_of_testBit _ fun i hi => ?_
  rcases Nat.eq_or_lt_of_le hi with rfl | hlt
  · rw [Nat.testBit_xor, hak, hbk]; rfl
  · have : 2 ^ (k + 1) ≤ 2 ^ i := Nat.pow_le_pow_right (by decide) hlt
    exact Nat.testBit_lt_two_pow ((Nat.xor_lt_two_pow ha hb).trans_le this)

theorem shiftLeft_lt {p w s : Nat} (h : p < 2 ^ w) : p <<< s < 2 ^ (w + s) := by
  rw [Nat.shiftLeft_eq, Nat.pow_add]
  exact Nat.mul_lt_mul_of_pos_right h (by positivity)

theorem testBit_shiftLeft_add (p s j : Nat) : (p <<< s).testBit (j + s) = p.testBit j := by
  rw [Nat.testBit_shiftLeft]
  simp

theorem testBit_shiftLeft_lt {p s j : Nat} (h : j < s) : (p <<< s).testBit j = false := by
  rw [Nat.testBit_shiftLeft]
  simp; omega

/-! ### poly_mul -/

theorem polyMulBits_succ (p q i : Nat) :
    polyMulBits p q (i + 1) = polyMulBits p q i ^^^ (if q.testBit i then p <<< i else 0) := by
  rw [polyMulBits]
  split <;> simp

theorem polyMulBits_xor_left (a b g n : Nat) :
    polyMulBits (a ^^^ b) g n = polyMulBits a g n ^^^ polyMulBits b g n := by
  induction n with
  | zero => simp [polyMulBits]
  | succ n ih =>
    simp only [polyMulBits_succ, ih]
    split
    · rw [Nat.shiftLeft_xor_distrib]
      simp only [Nat.xor_assoc, Nat.xor_left_comm (polyMulBits b g n)]
    · simp

theorem polyMul_xor_left (a b g : Nat) : polyMul (a ^^^ b) g = polyMul a g ^^^ polyMul b g :=
  polyMulBits_xor_left a b g _

@[simp] theorem polyMulBits_zero_left (g n : Nat) : polyMulBits 0 g n = 0 := by
  induction n with
  | zero => rfl
  | succ n ih => rw [polyMulBits_succ, ih]; simp

@[simp] theorem polyMul_zero_left (g : Nat) : polyMul 0 g = 0 := polyMulBits_zero_left g _

theorem mod_two_pow_succ_xor (g n : Nat) :
    g % 2 ^ (n + 1) = (g % 2 ^ n) ^^^ (if g.testBit n then 1 <<< n else 0) := by
  apply Nat.eq_of_testBit_eq
  intro j
  have hif : (if g.testBit n then 1 <<< n else 0).testBit j = (decide (n = j) && g.testBit n) := by
    cases g.testBit n <;> simp [Nat.one_shiftLeft, Nat.testBit_two_pow]
  rw [Nat.testBit_xor, hif, Nat.testBit_mod_two_pow, Nat.testBit_mod_two_pow]
  rcases Nat.lt_trichotomy j n with h | rfl | h
  · simp [h, show j < n + 1 by omega, show n ≠ j by omega]
  · simp
  · simp [show ¬ j < n by omega, show ¬ j < n + 1 by omega, show n ≠ j by omega]

theorem polyMulBits_one_shift (s g n : Nat) : polyMulBits (1 <<< s) g n = (g % 2 ^ n) <<< s := by
  induction n with
  | zero => simp [polyMulBits, Nat.mod_one]
  | succ n ih =>
    rw [polyMulBits_succ, ih, mod_two_pow_succ_xor, Nat.shiftLeft_xor_distrib]
    congr 1
    split
    · rw [← Nat.shiftLeft_add, ← Nat.shiftLeft_add, Nat.add_comm]
    · simp

theorem polyMul_one_shift (s g : Nat) : polyMul (1 <<< s) g = g <<< s := by
  rw [polyMul, polyMulBits_one_shift, Nat.mod_eq_of_lt (lt_two_pow_degree g)]

theorem polyMulBits_lt {q w : Nat} (g n : Nat) (hq : q < 2 ^ (w + 1)) : polyMulBits q g n < 2 ^ (w + n) := by
  induction n with
  | zero => exact Nat.two_pow_pos _
  | succ n ih =>
    rw [polyMulBits_succ]
    refine Nat.xor_lt_two_pow (ih.trans (Nat.pow_lt_pow_right (by decide) (by omega))) ?_
    split
    · have := shiftLeft_lt (s := n) hq
      rwa [show w + 1 + n = w + (n + 1) by omega] at this
    · exact Nat.two_pow_pos _

/-- deg(poly_mul(p, q)) = deg(p) + deg(q) (R24). -/
theorem degree_polyMul {q g : Nat} (hq : q ≠ 0) (hg : g ≠ 0) :
    polyMul q g ≠ 0 ∧ degree (polyMul q g) = degree q + degree g := by
  have hlt : polyMul q g < 2 ^ (degree q + degree g + 1) := by
    have := polyMulBits_lt g (degree g + 1) (lt_two_pow_degree q)
    rwa [← Nat.add_assoc] at this
  have htop : (polyMul q g).testBit (degree q + degree g) = true := by
    rw [polyMul, polyMulBits_succ, if_pos (testBit_degree hg), Nat.testBit_xor, testBit_shiftLeft_add,
      testBit_degree hq, Nat.testBit_lt_two_pow (polyMulBits_lt g (degree g) (lt_two_pow_degree q))]
    rfl
  have h0 : polyMul q g ≠ 0 := by
    intro h0
    rw [h0] at htop
    simp at htop
  refine ⟨h0, le_antisymm ?_ ?_⟩
  · have := (degree_lt h0).mpr hlt
    omega
  · by_contra hcon
    have := (degree_lt h0).mp (Nat.lt_of_not_le hcon)
    rw [Nat.testBit_lt_two_pow this] at htop
    cases htop

/-! ### poly_divmod -/

theorem divLoop_spec {g : Nat} (hg : g ≠ 0) (fuel : Nat) {q r : Nat} (hfuel : r ≠ 0 → degree r < fuel + degree g)
    (hq : r ≠ 0 → ∀ s, s ≤ degree r - degree g → degree g ≤ degree r → q.testBit s = false) :
    polyMul (divLoop g fuel q r).1 g ^^^ (divLoop g fuel q r).2 = polyMul q g ^^^ r ∧
      (divLoop g fuel q r).2 < 2 ^ degree g := by
  induction fuel generalizing q r with
  | zero =>
    refine ⟨rfl, ?_⟩
    by_cases h0 : r = 0
    · subst h0; exact Nat.two_pow_pos _
    · exact (degree_lt h0).mp (by have := hfuel h0; omega)
  | succ fuel ih =>
    rw [divLoop]
    split
    · next hcond =>
      obtain ⟨h0, hle⟩ := hcond
      have hr' : r ^^^ (g <<< (degree r - degree g)) < 2 ^ degree r := by
        refine lt_of_xor_top (lt_two_pow_degree r) ?_ (testBit_degree h0) ?_
        · have := shiftLeft_lt (s := degree r - degree g) (lt_two_pow_degree g)
          rwa [show degree g + 1 + (degree r - degree g) = degree r + 1 by omega] at this
        · have := testBit_shiftLeft_add g (degree r - degree g) (degree g)
          rw [show degree g + (degree r - degree g) = degree r by omega] at this
          rw [this, testBit_degree hg]
      have hclear := hq h0 _ le_rfl hle
      have hor : q ||| (1 <<< (degree r - degree g)) = q ^^^ (1 <<< (degree r - degree g)) := by
        apply Nat.eq_of_testBit_eq
        intro j
        rw [Nat.testBit_or, Nat.testBit_xor]
        by_cases hj : j = degree r - degree g
        · subst hj; rw [hclear]; simp
        · have : (1 <<< (degree r - degree g)).testBit j = false := by
            rw [Nat.one_shiftLeft]
            exact Nat.testBit_two_pow_of_ne (by omega)
          rw [this]; simp
      obtain ⟨h1, h2⟩ := ih (q := q ||| (1 <<< (degree r - degree g))) (r := r ^^^ (g <<< (degree r - degree g)))
        (fun h0' => by have := (degree_lt h0').mpr hr'; have := hfuel h0; omega)
        (fun h0' s hs hle' => by
          have hdeg := (degree_lt h0').mpr hr'
          rw [hor, Nat.testBit_xor, hq h0 s (by omega) hle, Nat.one_shiftLeft,
            Nat.testBit_two_pow_of_ne (by omega)]
          rfl)
      refine ⟨?_, h2⟩
      rw [h1, hor, polyMul_xor_left, polyMul_one_shift, Nat.xor_assoc, ← Nat.xor_assoc (g <<< _), Nat.xor_comm (g <<< _) r,
        Nat.xor_assoc r, Nat.xor_self, Nat.xor_zero]
    · next hcond =>
      refine ⟨rfl, ?_⟩
      by_cases h0 : r = 0
      · subst h0; exact Nat.two_pow_pos _
      · exact (degree_lt h0).mp (by by_contra hc; exact hcond ⟨h0, by omega⟩)

/-- poly_divmod answers a quotient and a remainder of degree below deg(g) (R87). -/
theorem polyDivmod_spec {g : Nat} (hg : g ≠ 0) (p : Nat) :
    polyMul (polyDivmod p g).1 g ^^^ (polyDivmod p g).2 = p ∧ (polyDivmod p g).2 < 2 ^ degree g := by
  obtain ⟨h1, h2⟩ := divLoop_spec hg (degree p + 1) (q := 0) (r := p) (fun _ => by omega) (fun _ s _ _ => by simp)
  exact ⟨by rw [polyDivmod, h1]; simp, h2⟩

/-- There is one quotient and remainder. -/
theorem polyDivmod_unique {g : Nat} (hg : g ≠ 0) {p q r : Nat} (hp : polyMul q g ^^^ r = p) (hr : r < 2 ^ degree g) :
    polyDivmod p g = (q, r) := by
  obtain ⟨h1, h2⟩ := polyDivmod_spec hg p
  generalize polyDivmod p g = x at h1 h2 ⊢
  obtain ⟨q', r'⟩ := x
  have hsum : polyMul (q' ^^^ q) g = r' ^^^ r := by
    rw [polyMul_xor_left]
    have : polyMul q' g ^^^ r' = polyMul q g ^^^ r := h1.trans hp.symm
    calc polyMul q' g ^^^ polyMul q g = (polyMul q' g ^^^ r') ^^^ r' ^^^ polyMul q g := by simp
      _ = (polyMul q g ^^^ r) ^^^ r' ^^^ polyMul q g := by rw [this]
      _ = r' ^^^ r := by
        rw [Nat.xor_comm (polyMul q g) r, Nat.xor_assoc, Nat.xor_assoc, Nat.xor_comm (polyMul q g), Nat.xor_assoc,
          Nat.xor_self, Nat.xor_zero, Nat.xor_comm]
  have hq0 : q' ^^^ q = 0 := by
    by_contra hne
    obtain ⟨h0, hd⟩ := degree_polyMul hne hg
    have : polyMul (q' ^^^ q) g < 2 ^ degree g := hsum ▸ Nat.xor_lt_two_pow h2 hr
    have := (degree_lt h0).mpr this
    omega
  have hqq : q' = q := Nat.xor_eq_zero_iff.mp hq0
  have hrr : r' = r := Nat.xor_eq_zero_iff.mp (by rw [← hsum, hq0, polyMul_zero_left])
  rw [hqq, hrr]

/-- The remainder is linear in the dividend (R92). -/
theorem polyDivmod_xor {g : Nat} (hg : g ≠ 0) (a b : Nat) :
    polyDivmod (a ^^^ b) g =
      ((polyDivmod a g).1 ^^^ (polyDivmod b g).1, (polyDivmod a g).2 ^^^ (polyDivmod b g).2) := by
  obtain ⟨ha, ha2⟩ := polyDivmod_spec hg a
  obtain ⟨hb, hb2⟩ := polyDivmod_spec hg b
  refine polyDivmod_unique hg ?_ (Nat.xor_lt_two_pow ha2 hb2)
  conv_rhs => rw [← ha, ← hb]
  rw [polyMul_xor_left]
  simp only [Nat.xor_assoc, Nat.xor_left_comm, Nat.xor_comm]

end Sys2Proof.Machine
end

