-- ==== Sys2Proof/Laws/Ops.lean ====
section
/-!
SUPPORT. What each shared operation answers on field elements, in the terms of the field: poly_eval
(spec/42_syndrome.md R93), the syndromes (R94), the solver (spec/43_locator_solver.md R100), the locator polynomial and
its search (spec/44_chien_search.md R105 to R108). Each answers, on every field element: no fault is reached (R86).
-/

namespace Sys2Proof.Machine

/-- The value of a binary polynomial of width `w` at a point, as a sum over its 1 bits (R93). -/
def evalAt {F : Type} [CommRing F] (x : F) (w v : Nat) : F :=
  ∑ j ∈ Finset.range w, if v.testBit j then x ^ j else 0

theorem evalAt_succ {F : Type} [CommRing F] (x : F) (w v : Nat) :
    evalAt x (w + 1) v = evalAt x w v + if v.testBit w then x ^ w else 0 :=
  Finset.sum_range_succ _ _

theorem evalAt_widen {F : Type} [CommRing F] (x : F) {w w' v : Nat} (hv : v < 2 ^ w) (hw : w ≤ w') :
    evalAt x w' v = evalAt x w v := by
  refine (Finset.sum_subset (by simpa using hw) fun j _ hj => ?_).symm
  have hj : w ≤ j := by simpa using hj
  rw [Nat.testBit_lt_two_pow (hv.trans_le (Nat.pow_le_pow_right (by decide) hj))]
  rfl

theorem evalAt_xor {F : Type} [CommRing F] (htwo : ∀ a : F, a + a = 0) (x : F) (w a b : Nat) :
    evalAt x w (a ^^^ b) = evalAt x w a + evalAt x w b := by
  unfold evalAt
  rw [← Finset.sum_add_distrib]
  refine Finset.sum_congr rfl fun j _ => ?_
  rw [Nat.testBit_xor]
  cases a.testBit j <;> cases b.testBit j <;> simp [htwo]

theorem evalAt_shift {F : Type} [CommRing F] (x : F) (w v s : Nat) :
    evalAt x (w + s) (v <<< s) = evalAt x w v * x ^ s := by
  unfold evalAt
  rw [Nat.add_comm w s, Finset.sum_range_add, Finset.sum_mul, Finset.sum_eq_zero, zero_add]
  · refine Finset.sum_congr rfl fun j _ => ?_
    rw [Nat.add_comm s j, testBit_shiftLeft_add, pow_add]
    split <;> simp
  · intro j hj
    rw [testBit_shiftLeft_lt (by simpa using hj)]
    rfl

theorem evalAt_zero {F : Type} [CommRing F] (x : F) (w : Nat) : evalAt x w 0 = 0 := by
  simp [evalAt]

theorem evalAt_two_pow {F : Type} [CommRing F] (x : F) {w j : Nat} (hj : j < w) : evalAt x w (2 ^ j) = x ^ j := by
  unfold evalAt
  rw [Finset.sum_eq_single j]
  · simp
  · intro i _ hne
    rw [Nat.testBit_two_pow_of_ne (Ne.symm hne)]
    rfl
  · intro h
    exact absurd (Finset.mem_range.mpr hj) h

theorem evalAt_polyMulBits {F : Type} [CommRing F] (htwo : ∀ a : F, a + a = 0) (x : F) {w p : Nat} (q n : Nat)
    (hp : p < 2 ^ w) : evalAt x (w + n) (polyMulBits p q n) = evalAt x w p * evalAt x n q := by
  induction n with
  | zero => simp [polyMulBits, evalAt]
  | succ n ih =>
    have hb : polyMulBits p q n < 2 ^ (w + n) := by
      rcases w with _ | w
      · obtain rfl : p = 0 := by simpa using hp
        rw [polyMulBits_zero_left]
        exact Nat.two_pow_pos _
      · exact (polyMulBits_lt q n hp).trans_le (Nat.pow_le_pow_right (by decide) (by omega))
    rw [polyMulBits_succ, evalAt_xor htwo, evalAt_widen x hb (by omega), ih, evalAt_succ x n q, mul_add]
    congr 1
    split
    · rw [evalAt_widen x (shiftLeft_lt hp) (by omega), evalAt_shift]
    · simp [evalAt_zero]

/-- Evaluation turns poly_mul into the product. -/
theorem evalAt_polyMul {F : Type} [CommRing F] (htwo : ∀ a : F, a + a = 0) (x : F) {w w' p q : Nat} (hp : p < 2 ^ w)
    (hq : q < 2 ^ w') {W : Nat} (hW : w + w' ≤ W) (hpq : polyMul p q < 2 ^ W) :
    evalAt x W (polyMul p q) = evalAt x w p * evalAt x w' q := by
  have h1 := evalAt_polyMulBits htwo x q (degree q + 1) hp
  have hlt : polyMul p q < 2 ^ (w + (degree q + 1)) := by
    rcases w with _ | w
    · obtain rfl : p = 0 := by simpa using hp
      rw [polyMul_zero_left]
      exact Nat.two_pow_pos _
    · exact (polyMulBits_lt q _ hp).trans_le (Nat.pow_le_pow_right (by decide) (by omega))
  have hq' : evalAt x (degree q + 1) q = evalAt x w' q := by
    rcases Nat.le_total (degree q + 1) w' with hle | hle
    · exact (evalAt_widen x (lt_two_pow_degree q) hle).symm
    · exact evalAt_widen x hq hle
  rw [← hq', ← h1]
  rcases Nat.le_total W (w + (degree q + 1)) with hle | hle
  · exact (evalAt_widen x hpq hle).symm
  · exact evalAt_widen x hlt hle

section
variable {c : Config} (h : FieldOk c)

theorem bitOf_val (v j : Nat) :
    letI := gfField h; bitOf v j = (if v.testBit j then (1 : Gf c) else 0).val := by
  unfold bitOf
  split <;> rfl

theorem hornerFrom_val (v : Nat) (a acc : Gf c) (j : Nat) :
    letI := gfField h; hornerFrom c v a.val j acc.val = .ok (acc * a ^ j + evalAt a j v).val := by
  let := gfField h
  induction j generalizing acc with
  | zero => simp [hornerFrom, evalAt]
  | succ j ih =>
    rw [hornerFrom, gfMul_val h]
    change hornerFrom c v a.val j (gfAdd (acc * a).val (bitOf v j)) = _
    rw [bitOf_val h, gfAdd_val h, ih, evalAt_succ]
    congr 2
    split <;> ring

/-- poly_eval answers the value of the word at the field element (R93). -/
theorem polyEval_val (v w : Nat) (a : Gf c) :
    letI := gfField h; polyEval c v w a.val = .ok (evalAt a w v).val := by
  let := gfField h
  have := hornerFrom_val h v a 0 w
  rw [zero_mul, zero_add] at this
  exact this

theorem gfPow_val (i : Nat) : gfPow c i = (gfExp h i).val := gfPow_eq h i

/-- The four syndromes are the values of the word at α to α^4 (R94). -/
theorem syndromesOf_val (r : Nat) :
    letI := gfField h
    syndromesOf c r = .ok
      { s1 := (evalAt (gfExp h 1) c.n r).val, s2 := (evalAt (gfExp h 2) c.n r).val,
        s3 := (evalAt (gfExp h 3) c.n r).val, s4 := (evalAt (gfExp h 4) c.n r).val } := by
  let := gfField h
  unfold syndromesOf
  simp only [gfPow_val h, polyEval_val h]
  rfl

/-- Cramer's rule answers on every syndrome vector with S1 ≠ 0 (R100). -/
theorem locatorOf_val (a b d e : Gf c) (ha : a.val ≠ 0) :
    letI := gfField h
    locatorOf c { s1 := a.val, s2 := b.val, s3 := d.val, s4 := e.val } =
      .ok ((a * a * a⁻¹).val, ((d + a * b) * a⁻¹).val) := by
  let := gfField h
  unfold locatorOf
  simp only [gfInv_val h a ha, gfMul_val h, bind, Except.bind, gfAdd_val h]

theorem lambdaAt_val (a b y : Gf c) :
    letI := gfField h; lambdaAt c a.val b.val y.val = .ok (1 + a * y + b * (y * y)).val := by
  let := gfField h
  unfold lambdaAt
  simp only [gfMul_val h, bind, Except.bind]
  rfl

theorem pointOf_val (i : Nat) : pointOf c i = (gfExp h (c.q - i)).val := by
  rw [pointOf, gfPow_eq h, expEntry_mod h]
  rfl

end

/-! ### The search -/

theorem popcount_le (w v : Nat) : popcount w v ≤ w := by
  unfold popcount
  exact (List.length_filter_le _ _).trans (by simp)

theorem popcount_succ (w v : Nat) : popcount (w + 1) v = popcount w v + if v.testBit w then 1 else 0 := by
  unfold popcount
  rw [List.range_succ, List.filter_append, List.length_append]
  congr 1
  cases hb : v.testBit w <;> simp [hb]

theorem popcount_congr {w a b : Nat} (hab : ∀ i < w, a.testBit i = b.testBit i) : popcount w a = popcount w b := by
  unfold popcount
  congr 1
  exact List.filter_congr fun i hi => hab i (List.mem_range.mp hi)

/-- The search answers the mask of the zeros below `n` and their number (R108), where the locator is `lam`. -/
theorem scan_spec {c : Config} {sigma1 sigma2 : Nat} {lam : Nat → Nat}
    (hlam : ∀ i, lambdaAt c sigma1 sigma2 (pointOf c i) = .ok (lam i)) (n : Nat) :
    ∃ mask, scan c sigma1 sigma2 n = .ok (mask, popcount n mask) ∧ mask < 2 ^ n ∧
      ∀ i < n, (mask.testBit i = true ↔ lam i = 0) := by
  induction n with
  | zero => exact ⟨0, rfl, by simp, by simp⟩
  | succ n ih =>
    obtain ⟨mask, hs, hlt, hbit⟩ := ih
    have hstep : scan c sigma1 sigma2 (n + 1) =
        .ok (if lam n = 0 then (mask ||| (1 <<< n), popcount n mask + 1) else (mask, popcount n mask)) := by
      rw [scan, hs, hlam n]
      rfl
    have htop : mask.testBit n = false := Nat.testBit_lt_two_pow hlt
    by_cases h0 : lam n = 0
    · have hb : ∀ i < n, (mask ||| (1 <<< n)).testBit i = mask.testBit i := by
        intro i hi
        rw [Nat.testBit_or, Nat.one_shiftLeft, Nat.testBit_two_pow_of_ne (by omega), Bool.or_false]
      have hn : (mask ||| (1 <<< n)).testBit n = true := by
        rw [Nat.testBit_or, Nat.one_shiftLeft, Nat.testBit_two_pow_self, Bool.or_true]
      refine ⟨mask ||| (1 <<< n), ?_, ?_, ?_⟩
      · rw [hstep, if_pos h0, popcount_succ, if_pos hn, popcount_congr hb]
      · refine Nat.or_lt_two_pow (hlt.trans_le (Nat.pow_le_pow_right (by decide) (by omega))) ?_
        rw [Nat.one_shiftLeft]
        exact Nat.pow_lt_pow_right (by decide) (by omega)
      · intro i hi
        rcases Nat.lt_succ_iff_lt_or_eq.mp hi with hi | rfl
        · rw [hb i hi]; exact hbit i hi
        · rw [hn]; simp [h0]
    · refine ⟨mask, ?_, hlt.trans_le (Nat.pow_le_pow_right (by decide) (by omega)), ?_⟩
      · rw [hstep, if_neg h0, popcount_succ, htop]
        rfl
      · intro i hi
        rcases Nat.lt_succ_iff_lt_or_eq.mp hi with hi | rfl
        · exact hbit i hi
        · rw [htop]; simp [h0]

/-- On field elements the search answers: bit i of the mask is 1 iff Λ(α^(-i)) = 0 (R107, R108). -/
theorem scan_val {c : Config} (h : FieldOk c) (a b : Gf c) (n : Nat) :
    letI := gfField h
    ∃ mask, scan c a.val b.val n = .ok (mask, popcount n mask) ∧ mask < 2 ^ n ∧
      ∀ i < n, (mask.testBit i = true ↔
        1 + a * gfExp h (c.q - i) + b * (gfExp h (c.q - i) * gfExp h (c.q - i)) = 0) := by
  let := gfField h
  obtain ⟨mask, h1, h2, h3⟩ := scan_spec (c := c) (sigma1 := a.val) (sigma2 := b.val)
    (lam := fun i => (1 + a * gfExp h (c.q - i) + b * (gfExp h (c.q - i) * gfExp h (c.q - i))).val)
    (fun i => by rw [pointOf_val h, lambdaAt_val h]) n
  refine ⟨mask, h1, h2, fun i hi => (h3 i hi).trans ⟨fun h0 => Gf.ext h0, fun h0 => congrArg Gf.val h0⟩⟩

end Sys2Proof.Machine
end

