-- ==== Sys2Proof/Laws/Build.lean ====
section
/-!
SUPPORT. What the functions of spec/10_state.md R24 answer, in the terms of the field: the product of linear factors
over a coset, the minimal polynomial read as a binary polynomial, and the generator polynomial as the product of the
factors x + α^j over a set of exponents that holds 1 to 4 and is closed under doubling.
-/

namespace Sys2Proof.Machine

/-! ### Lists of coefficients -/

/-- The value at a point of a polynomial given by its coefficients, that of x^0 first. -/
def listEval {F : Type} [CommRing F] (x : F) : List F → F
  | [] => 0
  | p :: ps => p + x * listEval x ps

theorem listEval_append_zero {F : Type} [CommRing F] (x : F) (ps : List F) :
    listEval x (ps ++ [0]) = listEval x ps := by
  induction ps with
  | nil => simp [listEval]
  | cons p ps ih => simp [listEval, ih]

theorem listEval_map_mul {F : Type} [CommRing F] (x a : F) (ps : List F) :
    listEval x (ps.map (a * ·)) = a * listEval x ps := by
  induction ps with
  | nil => simp [listEval]
  | cons p ps ih => simp only [List.map_cons, listEval, ih]; ring

theorem listEval_zipWith {F : Type} [CommRing F] (x : F) (ps qs : List F) (hl : ps.length = qs.length) :
    listEval x (List.zipWith (· + ·) ps qs) = listEval x ps + listEval x qs := by
  induction ps generalizing qs with
  | nil =>
    obtain rfl : qs = [] := List.length_eq_zero_iff.mp hl.symm
    simp [listEval]
  | cons p ps ih =>
    cases qs with
    | nil => simp at hl
    | cons q qs =>
      simp only [List.zipWith_cons_cons, listEval, ih qs (by simpa using hl)]
      ring

theorem evalAt_double_add {F : Type} [CommRing F] (x : F) (w v : Nat) (b : Bool) :
    evalAt x (w + 1) (v * 2 + b.toNat) = (if b then 1 else 0) + x * evalAt x w v := by
  have hb : ∀ j, (v * 2 + b.toNat).testBit (j + 1) = v.testBit j := by
    intro j
    rw [Nat.testBit_succ]
    congr 1
    cases b
    · simp
    · simp; omega
  have h0 : (v * 2 + b.toNat).testBit 0 = b := by
    rw [Nat.testBit_zero]
    cases b <;> simp
  unfold evalAt
  rw [Finset.sum_range_succ', h0, pow_zero, add_comm, Finset.mul_sum]
  congr 1
  refine Finset.sum_congr rfl fun j _ => ?_
  rw [hb, pow_succ']
  split <;> simp

section
variable {c : Config} (h : FieldOk c)

/-- `Gf.val` over a list. -/
def vals (ps : List (Gf c)) : List Nat := ps.map Gf.val

theorem scale_val (a : Gf c) (ps : List (Gf c)) :
    letI := gfField h; scale c a.val (vals ps) = .ok (vals (ps.map (a * ·))) := by
  let := gfField h
  induction ps with
  | nil => rfl
  | cons p ps ih =>
    change scale c a.val (p.val :: vals ps) = _
    rw [scale, gfMul_val h, ih]
    rfl

theorem zipWith_vals (ps qs : List (Gf c)) :
    letI := gfField h; List.zipWith gfAdd (vals ps) (vals qs) = vals (List.zipWith (· + ·) ps qs) := by
  let := gfField h
  unfold vals
  rw [List.zipWith_map, List.map_zipWith]
  rfl

theorem mulLinear_val (a : Gf c) (ps : List (Gf c)) :
    letI := gfField h
    mulLinear c a.val (vals ps) = .ok (vals (List.zipWith (· + ·) (0 :: ps) (ps.map (a * ·) ++ [0]))) := by
  let := gfField h
  unfold mulLinear
  rw [scale_val h, ← zipWith_vals h]
  change Except.ok _ = _
  unfold vals
  rw [List.map_append]
  rfl

/-- The product of the factors x + α^j is monic of as many coefficients, and its value is the product of the values. -/
theorem rootProduct_val (js : List Nat) :
    letI := gfField h
    ∃ qs : List (Gf c), rootProduct c js = .ok (vals (qs ++ [1])) ∧ qs.length = js.length ∧
      ∀ x, listEval x (qs ++ [1]) = (js.map fun j => x + gfExp h j).prod := by
  let := gfField h
  induction js with
  | nil => exact ⟨[], rfl, rfl, fun x => by simp [listEval]⟩
  | cons j js ih =>
    obtain ⟨qs, hp, hl, hx⟩ := ih
    have hz : List.zipWith (· + ·) (0 :: (qs ++ [1])) ((qs ++ [1]).map (gfExp h j * ·) ++ [0]) =
        List.zipWith (· + ·) (0 :: qs) ((qs ++ [1]).map (gfExp h j * ·)) ++ [1] := by
      rw [← List.cons_append, List.zipWith_append (by simp)]
      simp
    refine ⟨List.zipWith (· + ·) (0 :: qs) ((qs ++ [1]).map (gfExp h j * ·)), ?_, by simp [hl], fun x => ?_⟩
    · rw [rootProduct, hp]
      change mulLinear c (gfExp h j).val (vals (qs ++ [1])) = _
      rw [mulLinear_val h, hz]
    · rw [← hz, listEval_zipWith _ _ _ (by simp), listEval_append_zero, listEval_map_mul, List.map_cons, List.prod_cons,
        ← hx, listEval, zero_add]
      ring

/-- A list of coefficients 0 and 1 read as a binary polynomial has the same value at every point. -/
theorem binaryOf_val {ps : List (Gf c)} {v : Nat} (hv : binaryOf? (vals ps) = some v) :
    letI := gfField h
    v < 2 ^ ps.length ∧ ∀ x, listEval x ps = evalAt x ps.length v := by
  let := gfField h
  induction ps generalizing v with
  | nil =>
    obtain rfl := Option.some.inj hv
    exact ⟨by simp, fun x => by simp [listEval, evalAt]⟩
  | cons p ps ih =>
    change binaryOf? (p.val :: vals ps) = _ at hv
    rw [binaryOf?] at hv
    split at hv
    · next u hu =>
      obtain ⟨hlt, hx⟩ := ih hu
      have key : ∀ b : Bool, v = u * 2 + b.toNat → p = (if b then 1 else 0) →
          v < 2 ^ (p :: ps).length ∧ ∀ x, listEval x (p :: ps) = evalAt x (p :: ps).length v := by
        rintro b rfl rfl
        refine ⟨?_, fun x => ?_⟩
        · have := b.toNat_le
          rw [List.length_cons, Nat.pow_succ]
          omega
        · rw [List.length_cons, evalAt_double_add, listEval, hx]
      split_ifs at hv with h0 h1
      · exact key false (Option.some.inj hv).symm (Gf.ext h0)
      · exact key true (Option.some.inj hv).symm (Gf.ext h1)
    · cases hv

theorem binaryOf_top {qs : List (Gf c)} {v : Nat}
    (hv : letI := gfField h; binaryOf? (vals (qs ++ [1])) = some v) : v.testBit qs.length = true := by
  let := gfField h
  induction qs generalizing v with
  | nil =>
    obtain rfl : 1 = v := Option.some.inj hv
    simp
  | cons p qs ih =>
    change binaryOf? (p.val :: vals (qs ++ [1])) = _ at hv
    rw [binaryOf?] at hv
    split at hv
    · next u hu =>
      have hu' := ih hu
      split_ifs at hv
      · obtain rfl := Option.some.inj hv
        rw [List.length_cons, Nat.testBit_succ, ← hu']
        congr 1
        omega
      · obtain rfl := Option.some.inj hv
        rw [List.length_cons, Nat.testBit_succ, ← hu']
        congr 1
        omega
    · cases hv

theorem degree_eq {v k : Nat} (hlt : v < 2 ^ (k + 1)) (ht : v.testBit k = true) : v ≠ 0 ∧ degree v = k := by
  have h0 : v ≠ 0 := by
    rintro rfl
    simp at ht
  refine ⟨h0, le_antisymm ?_ ?_⟩
  · have := (degree_lt h0).mpr hlt
    omega
  · by_contra hc
    have := Nat.testBit_lt_two_pow ((degree_lt h0).mp (Nat.lt_of_not_le hc))
    rw [ht] at this
    cases this

/-- A polynomial p is the product of the factors x + α^j over the list of exponents `js` (R24). -/
structure HasRoots (p : Nat) (js : List Nat) : Prop where
  ne_zero : p ≠ 0
  degree : degree p = js.length
  eval : letI := gfField h; ∀ x w, p < 2 ^ w → evalAt x w p = (js.map fun j => x + gfExp h j).prod

theorem HasRoots.one : HasRoots h 1 [] := by
  let := gfField h
  refine ⟨one_ne_zero, rfl, fun x w hw => ?_⟩
  have := evalAt_two_pow x (w := w) (j := 0) (by rcases w with _ | w <;> simp at hw ⊢)
  simpa using this

theorem HasRoots.mul {p r : Nat} {js ks : List Nat} (hp : HasRoots h p js) (hr : HasRoots h r ks) :
    HasRoots h (polyMul p r) (ks ++ js) := by
  let := gfField h
  obtain ⟨h0, hd⟩ := degree_polyMul hp.ne_zero hr.ne_zero
  refine ⟨h0, by rw [hd, hp.degree, hr.degree, List.length_append, Nat.add_comm], fun x w hw => ?_⟩
  have hdw := (degree_lt h0).mpr hw
  have hm := evalAt_polyMul (gfField_add_self h) x (lt_two_pow_degree p) (lt_two_pow_degree r)
    (W := w + 1) (by omega) (hw.trans (Nat.pow_lt_pow_right (by decide) (Nat.lt_succ_self w)))
  rw [evalAt_widen x hw (Nat.le_succ w)] at hm
  rw [hm, hp.eval x _ (lt_two_pow_degree p), hr.eval x _ (lt_two_pow_degree r), List.map_append, List.prod_append]
  exact mul_comm _ _

/-- A minimal polynomial is the product over its coset (R24). -/
theorem minPoly_hasRoots {i p : Nat} (hp : minPoly? c i = some p) : HasRoots h p (coset c i) := by
  let := gfField h
  obtain ⟨qs, hr, hl, hx⟩ := rootProduct_val h (coset c i)
  unfold minPoly? at hp
  rw [hr] at hp
  change binaryOf? (vals (qs ++ [1])) = some p at hp
  obtain ⟨hlt, he⟩ := binaryOf_val h hp
  rw [List.length_append] at hlt he
  obtain ⟨h0, hd⟩ := degree_eq hlt (binaryOf_top h hp)
  refine ⟨h0, hd.trans hl, fun x w hw => ?_⟩
  rw [← hx x, he x]
  rcases Nat.le_total w (qs.length + 1) with hle | hle
  · exact (evalAt_widen x hw hle).symm
  · exact evalAt_widen x hlt hle

/-! ### Cosets and the loop of GenPoly -/

theorem mul_two_pow_mod (i s : Nat) : i * 2 ^ s % c.q * 2 % c.q = i * 2 ^ (s + 1) % c.q := by
  rw [pow_succ, ← mul_assoc, Nat.mod_mul_mod]

theorem two_pow_m_mod (h : FieldOk c) (i : Nat) : i * 2 ^ c.m % c.q = i % c.q := by
  rw [← h.q_succ, Nat.mul_add, Nat.mul_one, Nat.add_comm, Nat.add_mul_mod_self_right]

theorem mem_coset {i j : Nat} : j ∈ coset c i ↔ ∃ s < c.m, i * 2 ^ s % c.q = j := by
  simp [coset]

theorem coset_double {i j : Nat} (h : FieldOk c) (hj : j ∈ coset c i) : j * 2 % c.q ∈ coset c i := by
  obtain ⟨s, hs, rfl⟩ := mem_coset.mp hj
  rw [mul_two_pow_mod]
  rcases Nat.eq_or_lt_of_le (Nat.succ_le_of_lt hs) with he | hlt
  · have h0 : s + 1 = c.m := he
    exact mem_coset.mpr ⟨0, by omega, by rw [h0, two_pow_m_mod h, pow_zero, mul_one]⟩
  · exact mem_coset.mpr ⟨s + 1, hlt, rfl⟩

theorem mod_mem_coset (h : FieldOk c) (i : Nat) : i % c.q ∈ coset c i :=
  mem_coset.mpr ⟨0, by have := h.range.1; omega, by simp⟩

/-- A set of exponents of GenPoly: each once, below Q, closed under doubling, and each one i·2^s for some i of 1 to 4. -/
structure Exponents (c : Config) (js : List Nat) : Prop where
  nodup : js.Nodup
  lt : ∀ j ∈ js, j < c.q
  double : ∀ j ∈ js, j * 2 % c.q ∈ js
  source : ∀ j ∈ js, ∃ i ∈ [1, 2, 3, 4], ∃ s, j = i * 2 ^ s % c.q

theorem Exponents.mul_two_pow {js : List Nat} (hj : Exponents c js) {i : Nat} (hi : i % c.q ∈ js) (s : Nat) :
    i * 2 ^ s % c.q ∈ js := by
  induction s with
  | zero => simpa using hi
  | succ s ih => rw [← mul_two_pow_mod]; exact hj.double _ ih

theorem Exponents.coset_append {js : List Nat} (h : FieldOk c) (hj : Exponents c js) {i : Nat} (hi : i % c.q ∉ js)
    (hi4 : i ∈ [1, 2, 3, 4]) : Exponents c (coset c i ++ js) := by
  have hq : 0 < c.q := by have := h.q_pos; omega
  refine ⟨List.nodup_append'.mpr ⟨List.nodup_dedup _, hj.nodup, fun j hjc hjs => hi ?_⟩, ?_, ?_, ?_⟩
  · obtain ⟨s, hs, rfl⟩ := mem_coset.mp hjc
    have := hj.mul_two_pow (i := i * 2 ^ s) hjs (c.m - s)
    rwa [mul_assoc, ← pow_add, Nat.add_sub_cancel' hs.le, two_pow_m_mod h] at this
  · intro j hjm
    rcases List.mem_append.mp hjm with hjc | hjs
    · obtain ⟨s, -, rfl⟩ := mem_coset.mp hjc
      exact Nat.mod_lt _ hq
    · exact hj.lt j hjs
  · intro j hjm
    rcases List.mem_append.mp hjm with hjc | hjs
    · exact List.mem_append_left _ (coset_double h hjc)
    · exact List.mem_append_right _ (hj.double j hjs)
  · intro j hjm
    rcases List.mem_append.mp hjm with hjc | hjs
    · obtain ⟨s, -, rfl⟩ := mem_coset.mp hjc
      exact ⟨i, hi4, s, rfl⟩
    · exact hj.source j hjs

/-- What the loop of GenPoly answers: the product over a set of exponents that holds those done and those to do. -/
theorem genLoop_hasRoots {todo : List Nat} {g r : Nat} {js : List Nat} (htodo : ∀ i ∈ todo, i ∈ [1, 2, 3, 4])
    (hg : HasRoots h g js) (hjs : Exponents c js) (hr : genLoop c todo g js = some r) :
    ∃ ks, HasRoots h r ks ∧ Exponents c ks ∧ (∀ j ∈ js, j ∈ ks) ∧ ∀ i ∈ todo, i % c.q ∈ ks := by
  induction todo generalizing g js with
  | nil =>
    obtain rfl := Option.some.inj hr
    exact ⟨js, hg, hjs, fun _ hj => hj, by simp⟩
  | cons i is ih =>
    have his : ∀ i ∈ is, i ∈ [1, 2, 3, 4] := fun k hk => htodo k (List.mem_cons_of_mem _ hk)
    rw [genLoop] at hr
    split at hr
    · next hmem =>
      obtain ⟨ks, h1, h2, h3, h4⟩ := ih his hg hjs hr
      exact ⟨ks, h1, h2, h3, List.forall_mem_cons.mpr ⟨h3 _ hmem, h4⟩⟩
    · next hmem =>
      split at hr
      · next p hp =>
        obtain ⟨ks, h1, h2, h3, h4⟩ := ih his (hg.mul h (minPoly_hasRoots h hp))
          (hjs.coset_append h hmem (htodo i (List.mem_cons_self ..))) hr
        exact ⟨ks, h1, h2, fun j hj => h3 j (List.mem_append_right _ hj),
          List.forall_mem_cons.mpr ⟨h3 _ (List.mem_append_left _ (mod_mem_coset h i)), h4⟩⟩
      · cases hr

end

/-- The generator polynomial of a configuration for which a block exists (R24): the product of the factors x + α^j over
a set of exponents that holds 1 to 4. -/
theorem Valid.generator {c : Config} (hv : Valid c) :
    ∃ ks, HasRoots hv.fieldOk c.g ks ∧ Exponents c ks ∧ ∀ i ∈ [1, 2, 3, 4], i % c.q ∈ ks := by
  have hgen := hv.genEq
  unfold genPoly? at hgen
  rw [hv.chkT] at hgen
  obtain ⟨ks, h1, h2, -, h4⟩ := genLoop_hasRoots hv.fieldOk (todo := [1, 2, 3, 4]) (by simp) (HasRoots.one hv.fieldOk)
    ⟨List.nodup_nil, by simp, by simp, by simp⟩ hgen
  exact ⟨ks, h1, h2, h4⟩

theorem Valid.gen_ne_zero {c : Config} (hv : Valid c) : c.g ≠ 0 := by
  obtain ⟨_, hg, -⟩ := hv.generator
  exact hg.ne_zero

/-- The first failing check of two groups, by groups. -/
theorem first_of_groups {α : Type} (p1 p2 p3 p4 p5 p6 p7 : Prop) [Decidable p1] [Decidable p2] [Decidable p3]
    [Decidable p4] [Decidable p5] [Decidable p6] [Decidable p7] (a b d : α) :
    (if ¬ p1 then a else if ¬ p2 then a else if ¬ p3 then a else if ¬ p4 then b else if ¬ p5 then b
      else if ¬ p6 then b else if ¬ p7 then b else d) =
    if ¬ (p1 ∧ p2 ∧ p3) then a else if ¬ (p4 ∧ p5 ∧ p6 ∧ p7) then b else d := by
  by_cases p1 <;> by_cases p2 <;> by_cases p3 <;> simp [*]
  by_cases p4 <;> by_cases p5 <;> simp [*]
  by_cases p6 <;> simp [*]

/-- The refusal by its two reasons (R18; InvalidField wins, log entry 14). -/
theorem refusalOf_eq (c : Config) : refusalOf c =
    if ¬ (ChkMRange c ∧ ChkPrimDegree c ∧ ChkPrimPrimitive c) then some .invalidField
    else if ¬ (ChkT c ∧ ChkNRange c ∧ ChkGenEq c ∧ ChkGenDegree c) then some .configurationError
    else none :=
  first_of_groups ..

/-- N is what K and the degree of G leave (R25). -/
theorem Valid.degree_gen {c : Config} (hv : Valid c) : degree c.g = c.n - c.k ∧ c.k ≤ c.n := by
  have := hv.genDegree
  omega

end Sys2Proof.Machine
end

