-- ==== Sys2Proof/Laws/Code.lean ====
section
/-!
SUPPORT. The algebra of the code, on a configuration for which a block exists: squaring commutes with evaluation, a
nonzero binary polynomial has at most as many zeros as its degree, and a polynomial that vanishes at α to α^4 vanishes at
every root of the generator polynomial.
-/

namespace Sys2Proof.Machine

section
variable {c : Config} (h : FieldOk c)

/-- Squaring is additive in characteristic 2, and a binary polynomial has coefficients 0 and 1 (R97). -/
theorem evalAt_square (x : Gf c) (w v : Nat) :
    letI := gfField h; evalAt (x * x) w v = evalAt x w v * evalAt x w v := by
  let := gfField h
  induction w with
  | zero => simp [evalAt]
  | succ w ih =>
    rw [evalAt_succ, evalAt_succ, ih]
    generalize evalAt x w v = e
    have hcross : ∀ y : Gf c, (e + y) * (e + y) = e * e + y * y := by
      intro y
      have := gfField_add_self h (e * y)
      calc (e + y) * (e + y) = e * e + y * y + (e * y + e * y) := by ring
        _ = e * e + y * y := by rw [this, add_zero]
    rw [hcross]
    congr 1
    split
    · exact mul_pow x x w
    · exact (mul_zero _).symm

theorem gfExp_double (j : Nat) : letI := gfField h; gfExp h (j * 2) = gfExp h j * gfExp h j := by
  rw [Nat.mul_two, gfExp_add]

theorem gfExp_mod (j : Nat) : gfExp h (j % c.q) = gfExp h j := Gf.ext (expEntry_mod h j)

theorem gfExp_inj {i j : Nat} (hi : i < c.q) (hj : j < c.q) (he : gfExp h i = gfExp h j) : i = j :=
  expEntry_injOn h hi hj (congrArg Gf.val he)

/-- A zero α^i of a binary polynomial makes α^(i·2^s) one. -/
theorem evalAt_conjugate {w v i : Nat} (h0 : letI := gfField h; evalAt (gfExp h i) w v = 0) (s : Nat) :
    letI := gfField h; evalAt (gfExp h (i * 2 ^ s % c.q)) w v = 0 := by
  let := gfField h
  rw [gfExp_mod]
  induction s with
  | zero => simpa using h0
  | succ s ih => rw [pow_succ, ← mul_assoc, gfExp_double, evalAt_square, ih, mul_zero]

/-- A nonzero binary polynomial has no more zeros than its degree. -/
theorem length_le_degree {p w : Nat} {ks : List Nat} (h0 : p ≠ 0) (hw : p < 2 ^ w) (hk : Exponents c ks)
    (hz : letI := gfField h; ∀ j ∈ ks, evalAt (gfExp h j) w p = 0) : ks.length ≤ degree p := by
  classical
  let := gfField h
  let f : Polynomial (Gf c) := ∑ j ∈ Finset.range (degree p + 1), if p.testBit j then Polynomial.X ^ j else 0
  have hf : ∀ x, f.eval x = evalAt x (degree p + 1) p := by
    intro x
    rw [Polynomial.eval_finsetSum]
    refine Finset.sum_congr rfl fun j _ => ?_
    split <;> simp
  have hcoeff : f.coeff (degree p) = 1 := by
    rw [Polynomial.finsetSum_coeff, Finset.sum_eq_single (degree p)]
    · rw [if_pos (testBit_degree h0)]
      simp
    · intro j _ hne
      split
      · rw [Polynomial.coeff_X_pow, if_neg (Ne.symm hne)]
      · simp
    · intro hn
      simp at hn
  have hf0 : f ≠ 0 := by
    intro hf0
    rw [hf0] at hcoeff
    simp at hcoeff
  have hdeg : f.natDegree ≤ degree p := by
    refine Polynomial.natDegree_sum_le_of_forall_le _ _ fun j hj => ?_
    split
    · rw [Polynomial.natDegree_X_pow]
      have := Finset.mem_range.mp hj
      omega
    · simp
  have hsub : (ks.map (gfExp h)).toFinset ⊆ f.roots.toFinset := by
    intro x hx
    obtain ⟨j, hj, rfl⟩ := List.mem_map.mp (List.mem_toFinset.mp hx)
    rw [Multiset.mem_toFinset, Polynomial.mem_roots hf0, Polynomial.IsRoot, hf, ← hz j hj]
    exact (evalAt_widen _ (lt_two_pow_degree p) (by have := (degree_lt h0).mpr hw; omega)).symm
  have hnd : (ks.map (gfExp h)).Nodup :=
    hk.nodup.map_on fun a ha b hb he => gfExp_inj h (hk.lt a ha) (hk.lt b hb) he
  calc ks.length = (ks.map (gfExp h)).toFinset.card := by rw [List.toFinset_card_of_nodup hnd, List.length_map]
    _ ≤ f.roots.toFinset.card := Finset.card_le_card hsub
    _ ≤ Multiset.card f.roots := Multiset.toFinset_card_le _
    _ ≤ f.natDegree := Polynomial.card_roots' _
    _ ≤ degree p := hdeg

end

/-- The generator polynomial vanishes at α^j exactly for the exponents of R24, those of α to α^4 among them. -/
theorem HasRoots.eval_root {c : Config} {h : FieldOk c} {p : Nat} {ks : List Nat} (hp : HasRoots h p ks) {j w : Nat}
    (hj : j ∈ ks) (hw : p < 2 ^ w) : letI := gfField h; evalAt (gfExp h j) w p = 0 := by
  let := gfField h
  rw [hp.eval _ w hw]
  refine List.prod_eq_zero (List.mem_map.mpr ⟨j, hj, ?_⟩)
  exact gfField_add_self h _

end Sys2Proof.Machine
end

