-- ==== Sys2Proof/Laws/Decode.lean ====
section
/-!
SUPPORT. The fields of a command word (spec/30_encoding.md R64), and the opcode map both ways (R66, R70).
-/

namespace Sys2Proof

/-- The fields of a command word are those it is built from (R64). -/
theorem commandWord_fields (len : BitVec 16) (op : Opcode) :
    opField (commandWord len op) = op.byte ∧ rsvField (commandWord len op) = 0 ∧
      lenField (commandWord len op) = len := by
  unfold commandWord opField rsvField lenField
  refine ⟨?_, ?_, ?_⟩ <;> ext i hi <;>
    rw [← BitVec.getLsbD_eq_getElem, ← BitVec.getLsbD_eq_getElem, BitVec.getLsbD_extractLsb', decide_eq_true hi,
      Bool.true_and] <;>
    simp only [BitVec.getLsbD_append]
  · rw [if_pos (by omega), Nat.zero_add]
  · rw [if_neg (by omega), if_pos (by omega)]
    simp
  · rw [if_neg (by omega), if_neg (by omega), show 16 + i - 8 - 8 = i by omega]

/-- A word is its three fields (R64). -/
theorem word_eq_fields (w : Word) : lenField w ++ rsvField w ++ opField w = w := by
  unfold lenField rsvField opField
  ext i hi
  simp only [BitVec.getElem_append, BitVec.getElem_extractLsb']
  rw [← BitVec.getLsbD_eq_getElem]
  split_ifs <;> congr 1 <;> omega

@[simp] theorem opcodeOf_byte (op : Opcode) : opcodeOf? op.byte = some op := by
  cases op <;> rfl

theorem byte_of_opcodeOf {b : Byte} {op : Opcode} (h : opcodeOf? b = some op) : op.byte = b := by
  revert op b
  decide

end Sys2Proof
end

