-- ==== Sys2Proof/Laws/Flags.lean ====
section
/-!
SUPPORT. The fields of STATUS after a write of CODE and LAST_OP (spec/10_state.md R30).
-/

namespace Sys2Proof.Machine

theorem extract_append_fields (a : BitVec 16) (b : BitVec 8) (d e : BitVec 4) :
    (a ++ b ++ d ++ e).extractLsb' 0 4 = e ∧ (a ++ b ++ d ++ e).extractLsb' 4 4 = d ∧
    (a ++ b ++ d ++ e).extractLsb' 8 8 = b ∧ (a ++ b ++ d ++ e).extractLsb' 16 16 = a := by
  refine ⟨?_, ?_, ?_, ?_⟩ <;> ext i hi <;>
    rw [← BitVec.getLsbD_eq_getElem, ← BitVec.getLsbD_eq_getElem, BitVec.getLsbD_extractLsb', decide_eq_true hi,
      Bool.true_and] <;>
    simp only [BitVec.getLsbD_append]
  · rw [if_pos (by omega), Nat.zero_add]
  · rw [if_neg (by omega), if_pos (by omega), show 4 + i - 4 = i by omega]
  · rw [if_neg (by omega), if_neg (by omega), if_pos (by omega), show 8 + i - 4 - 4 = i by omega]
  · rw [if_neg (by omega), if_neg (by omega), if_neg (by omega), show 16 + i - 4 - 4 - 8 = i by omega]

@[simp] theorem codeField_statusWith (st : Word) (code : ResultCode) (op : Byte) :
    codeField (statusWith st code op) = code.value := (extract_append_fields _ _ _ _).1

@[simp] theorem reservedLow_statusWith (st : Word) (code : ResultCode) (op : Byte) :
    reservedLow (statusWith st code op) = reservedLow st := (extract_append_fields _ _ _ _).2.1

@[simp] theorem lastOpField_statusWith (st : Word) (code : ResultCode) (op : Byte) :
    lastOpField (statusWith st code op) = op := (extract_append_fields _ _ _ _).2.2.1

@[simp] theorem reservedHigh_statusWith (st : Word) (code : ResultCode) (op : Byte) :
    reservedHigh (statusWith st code op) = reservedHigh st := (extract_append_fields _ _ _ _).2.2.2

theorem ResultCode.value_le (code : ResultCode) : code.value.toNat ≤ 5 := by
  cases code <;> decide

theorem fields_append_extract (st : BitVec (16 + 8 + 4 + 4)) :
    st.extractLsb' 16 16 ++ st.extractLsb' 8 8 ++ st.extractLsb' 4 4 ++ st.extractLsb' 0 4 = st := by
  ext i hi
  simp only [BitVec.getElem_append, BitVec.getElem_extractLsb']
  rw [← BitVec.getLsbD_eq_getElem]
  split_ifs <;> congr 1 <;> omega

/-- STATUS is its four fields (R30). -/
theorem status_eq_fields (st : Word) :
    reservedHigh st ++ lastOpField st ++ reservedLow st ++ codeField st = st := fields_append_extract st

end Sys2Proof.Machine
end

