-- ==== Sys2Proof/Laws/PerInstr.lean ====
section
/-!
SUPPORT. Statements made once for each command. `EncodedFields`: the three fields of a command's word
(spec/30_encoding.md R64, R66).
-/

namespace Sys2Proof.Laws.EncodedFields

/-- The word of a command has its opcode in OP, 0 in RSV and its length in LEN (R64). -/
def Statement (i : Instr) : Prop :=
  opField (encode i) = i.opcode.byte ∧ rsvField (encode i) = 0 ∧ lenField (encode i) = i.len

theorem gfAdd : Statement .gfAdd := commandWord_fields 0 .gfAdd

theorem gfMul : Statement .gfMul := commandWord_fields 0 .gfMul

theorem gfInv : Statement .gfInv := commandWord_fields 0 .gfInv

theorem gfPow : Statement .gfPow := commandWord_fields 0 .gfPow

theorem encode (len : BitVec 16) : Statement (.encode len) := commandWord_fields len .encode

theorem syndrome (len : BitVec 16) : Statement (.syndrome len) := commandWord_fields len .syndrome

theorem solve : Statement .solve := commandWord_fields 0 .solve

theorem chien : Statement .chien := commandWord_fields 0 .chien

theorem correct : Statement .correct := commandWord_fields 0 .correct

theorem decode (len : BitVec 16) : Statement (.decode len) := commandWord_fields len .decode

end Sys2Proof.Laws.EncodedFields
end

