-- ==== Sys2Proof/Laws/Serial.lean ====
section
/-!
SUPPORT. What reading a byte buffer and serializing a value do to each other (spec/20_memory.md R54).
-/

namespace Sys2Proof.Machine

@[simp] theorem length_toBytes (w v : Nat) : (toBytes w v).length = byteCount w := by simp [toBytes]

@[simp] theorem length_bitString (w v : Nat) : (bitString w v).length = w := by simp [bitString]

theorem ofBytes_nil : ofBytes [] = 0 := rfl

/-- Byte 0 is the most significant. -/
theorem ofBytes_append_singleton (bytes : List Byte) (b : Byte) :
    ofBytes (bytes ++ [b]) = ofBytes bytes * 256 + b.toNat := by simp [ofBytes]

theorem ofBytes_cons (b : Byte) (bytes : List Byte) :
    ofBytes (b :: bytes) = b.toNat * 256 ^ bytes.length + ofBytes bytes := by
  induction bytes using List.reverseRecOn with
  | nil => simp [ofBytes]
  | append_singleton bytes x ih =>
    rw [← List.cons_append, ofBytes_append_singleton, ofBytes_append_singleton, ih, List.length_append,
      List.length_singleton, pow_succ]
    ring

theorem ofBytes_lt (bytes : List Byte) : ofBytes bytes < 256 ^ bytes.length := by
  induction bytes with
  | nil => simp [ofBytes]
  | cons b bytes ih =>
    rw [ofBytes_cons, List.length_cons, pow_succ]
    have hb : b.toNat ≤ 255 := by omega
    nlinarith [Nat.mul_le_mul_right (256 ^ bytes.length) hb]

/-- Byte j of the buffer of length n, as R54 writes it, of the value the buffer carries. -/
theorem ofBytes_byte (bytes : List Byte) (j : Nat) (hj : j < bytes.length) :
    ofBytes bytes >>> (8 * (bytes.length - 1 - j)) % 256 = bytes[j].toNat := by
  have h256 : ∀ n : Nat, 2 ^ (8 * n) = 256 ^ n := fun n => by rw [Nat.pow_mul]
  induction bytes generalizing j with
  | nil => simp at hj
  | cons b bytes ih =>
    rw [Nat.shiftRight_eq_div_pow, h256, ofBytes_cons]
    cases j with
    | zero =>
      rw [List.length_cons, Nat.add_sub_cancel, Nat.sub_zero, Nat.add_comm,
        Nat.add_mul_div_right _ _ (by positivity), Nat.div_eq_of_lt (ofBytes_lt bytes), Nat.zero_add,
        List.getElem_cons_zero, Nat.mod_eq_of_lt (by omega)]
    | succ j =>
      have hj' : j < bytes.length := by simpa using hj
      have ih := ih j hj'
      rw [Nat.shiftRight_eq_div_pow, h256] at ih
      have hl : (b :: bytes).length - 1 - (j + 1) = bytes.length - 1 - j := by simp; omega
      have hs : 256 ^ bytes.length = 256 ^ j * 256 * 256 ^ (bytes.length - 1 - j) := by
        rw [← pow_succ, ← pow_add]; congr 1; omega
      rw [hl, List.getElem_cons_succ, ← ih, hs, Nat.add_comm, ← Nat.mul_assoc,
        Nat.add_mul_div_right _ _ (by positivity), ← Nat.mul_assoc, Nat.add_mul_mod_self_right]

/-- A buffer of a register's length is the buffer of the value it carries. -/
theorem toBytes_ofBytes {w : Nat} {bytes : List Byte} (h : bytes.length = byteCount w) :
    toBytes w (ofBytes bytes) = bytes := by
  refine List.ext_getElem (by simp [h]) fun j h1 h2 => BitVec.eq_of_toNat_eq ?_
  simp only [toBytes, List.getElem_map, List.getElem_range, BitVec.toNat_ofNat, ← h]
  exact ofBytes_byte bytes j h2

end Sys2Proof.Machine
end

