-- ==== Sys2Proof/Laws/State.lean ====
section
/-!
SUPPORT. The small lemmas of the state's shared updates: one for each field of State and each of `finish`, `observe`,
`resetEvent` and `withCommandWord`, true by unfolding, so that no proof unfolds a record update.
-/

namespace Sys2Proof.Machine

/-! ### finish: STATUS alone (spec/00_scope.md R16) -/

@[simp] theorem finish_cfg (code : ResultCode) (op : Byte) (s : State) : (finish code op s).cfg = s.cfg := rfl

@[simp] theorem finish_status (code : ResultCode) (op : Byte) (s : State) :
    (finish code op s).status = statusWith s.status code op := rfl

@[simp] theorem finish_msg (code : ResultCode) (op : Byte) (s : State) : (finish code op s).msg = s.msg := rfl

@[simp] theorem finish_cw (code : ResultCode) (op : Byte) (s : State) : (finish code op s).cw = s.cw := rfl

@[simp] theorem finish_rx (code : ResultCode) (op : Byte) (s : State) : (finish code op s).rx = s.rx := rfl

@[simp] theorem finish_corr (code : ResultCode) (op : Byte) (s : State) : (finish code op s).corr = s.corr := rfl

@[simp] theorem finish_syn1 (code : ResultCode) (op : Byte) (s : State) : (finish code op s).syn1 = s.syn1 := rfl

@[simp] theorem finish_syn2 (code : ResultCode) (op : Byte) (s : State) : (finish code op s).syn2 = s.syn2 := rfl

@[simp] theorem finish_syn3 (code : ResultCode) (op : Byte) (s : State) : (finish code op s).syn3 = s.syn3 := rfl

@[simp] theorem finish_syn4 (code : ResultCode) (op : Byte) (s : State) : (finish code op s).syn4 = s.syn4 := rfl

@[simp] theorem finish_det (code : ResultCode) (op : Byte) (s : State) : (finish code op s).det = s.det := rfl

@[simp] theorem finish_sigma1 (code : ResultCode) (op : Byte) (s : State) : (finish code op s).sigma1 = s.sigma1 := rfl

@[simp] theorem finish_sigma2 (code : ResultCode) (op : Byte) (s : State) : (finish code op s).sigma2 = s.sigma2 := rfl

@[simp] theorem finish_errmask (code : ResultCode) (op : Byte) (s : State) : (finish code op s).errmask = s.errmask := rfl

@[simp] theorem finish_errcnt (code : ResultCode) (op : Byte) (s : State) : (finish code op s).errcnt = s.errcnt := rfl

@[simp] theorem finish_gfA (code : ResultCode) (op : Byte) (s : State) : (finish code op s).gfA = s.gfA := rfl

@[simp] theorem finish_gfB (code : ResultCode) (op : Byte) (s : State) : (finish code op s).gfB = s.gfB := rfl

@[simp] theorem finish_gfI (code : ResultCode) (op : Byte) (s : State) : (finish code op s).gfI = s.gfI := rfl

@[simp] theorem finish_gfR (code : ResultCode) (op : Byte) (s : State) : (finish code op s).gfR = s.gfR := rfl

@[simp] theorem finish_program (code : ResultCode) (op : Byte) (s : State) : (finish code op s).program = s.program := rfl

@[simp] theorem finish_reads (code : ResultCode) (op : Byte) (s : State) : (finish code op s).reads = s.reads := rfl

/-! ### observe: the program's observation alone (spec/20_memory.md R50, R56) -/

@[simp] theorem observe_cfg (s : State) (a : Addr) : (observe s a).cfg = s.cfg := rfl

@[simp] theorem observe_status (s : State) (a : Addr) : (observe s a).status = s.status := rfl

@[simp] theorem observe_msg (s : State) (a : Addr) : (observe s a).msg = s.msg := rfl

@[simp] theorem observe_cw (s : State) (a : Addr) : (observe s a).cw = s.cw := rfl

@[simp] theorem observe_rx (s : State) (a : Addr) : (observe s a).rx = s.rx := rfl

@[simp] theorem observe_corr (s : State) (a : Addr) : (observe s a).corr = s.corr := rfl

@[simp] theorem observe_syn1 (s : State) (a : Addr) : (observe s a).syn1 = s.syn1 := rfl

@[simp] theorem observe_syn2 (s : State) (a : Addr) : (observe s a).syn2 = s.syn2 := rfl

@[simp] theorem observe_syn3 (s : State) (a : Addr) : (observe s a).syn3 = s.syn3 := rfl

@[simp] theorem observe_syn4 (s : State) (a : Addr) : (observe s a).syn4 = s.syn4 := rfl

@[simp] theorem observe_det (s : State) (a : Addr) : (observe s a).det = s.det := rfl

@[simp] theorem observe_sigma1 (s : State) (a : Addr) : (observe s a).sigma1 = s.sigma1 := rfl

@[simp] theorem observe_sigma2 (s : State) (a : Addr) : (observe s a).sigma2 = s.sigma2 := rfl

@[simp] theorem observe_errmask (s : State) (a : Addr) : (observe s a).errmask = s.errmask := rfl

@[simp] theorem observe_errcnt (s : State) (a : Addr) : (observe s a).errcnt = s.errcnt := rfl

@[simp] theorem observe_gfA (s : State) (a : Addr) : (observe s a).gfA = s.gfA := rfl

@[simp] theorem observe_gfB (s : State) (a : Addr) : (observe s a).gfB = s.gfB := rfl

@[simp] theorem observe_gfI (s : State) (a : Addr) : (observe s a).gfI = s.gfI := rfl

@[simp] theorem observe_gfR (s : State) (a : Addr) : (observe s a).gfR = s.gfR := rfl

@[simp] theorem observe_program (s : State) (a : Addr) : (observe s a).program = s.program := rfl

@[simp] theorem observe_reads (s : State) (a : Addr) : (observe s a).reads = s.reads ++ [hostRead s a] := rfl

/-! ### resetEvent: every stored register, and nothing else (spec/70_reset_and_hazards.md R134) -/

@[simp] theorem resetEvent_cfg (s : State) : (resetEvent s).cfg = s.cfg := rfl

@[simp] theorem resetEvent_status (s : State) : (resetEvent s).status = 0 := rfl

@[simp] theorem resetEvent_msg (s : State) : (resetEvent s).msg = 0 := rfl

@[simp] theorem resetEvent_cw (s : State) : (resetEvent s).cw = 0 := rfl

@[simp] theorem resetEvent_rx (s : State) : (resetEvent s).rx = 0 := rfl

@[simp] theorem resetEvent_corr (s : State) : (resetEvent s).corr = 0 := rfl

@[simp] theorem resetEvent_syn1 (s : State) : (resetEvent s).syn1 = 0 := rfl

@[simp] theorem resetEvent_syn2 (s : State) : (resetEvent s).syn2 = 0 := rfl

@[simp] theorem resetEvent_syn3 (s : State) : (resetEvent s).syn3 = 0 := rfl

@[simp] theorem resetEvent_syn4 (s : State) : (resetEvent s).syn4 = 0 := rfl

@[simp] theorem resetEvent_det (s : State) : (resetEvent s).det = 0 := rfl

@[simp] theorem resetEvent_sigma1 (s : State) : (resetEvent s).sigma1 = 0 := rfl

@[simp] theorem resetEvent_sigma2 (s : State) : (resetEvent s).sigma2 = 0 := rfl

@[simp] theorem resetEvent_errmask (s : State) : (resetEvent s).errmask = 0 := rfl

@[simp] theorem resetEvent_errcnt (s : State) : (resetEvent s).errcnt = 0 := rfl

@[simp] theorem resetEvent_gfA (s : State) : (resetEvent s).gfA = 0 := rfl

@[simp] theorem resetEvent_gfB (s : State) : (resetEvent s).gfB = 0 := rfl

@[simp] theorem resetEvent_gfI (s : State) : (resetEvent s).gfI = 0 := rfl

@[simp] theorem resetEvent_gfR (s : State) : (resetEvent s).gfR = 0 := rfl

@[simp] theorem resetEvent_program (s : State) : (resetEvent s).program = s.program := rfl

@[simp] theorem resetEvent_reads (s : State) : (resetEvent s).reads = s.reads := rfl

/-! ### withCommandWord: the host's next line alone -/

@[simp] theorem withCommandWord_cfg (s : State) (w : Nat) : (withCommandWord s w).cfg = s.cfg := rfl

@[simp] theorem withCommandWord_status (s : State) (w : Nat) : (withCommandWord s w).status = s.status := rfl

@[simp] theorem withCommandWord_msg (s : State) (w : Nat) : (withCommandWord s w).msg = s.msg := rfl

@[simp] theorem withCommandWord_cw (s : State) (w : Nat) : (withCommandWord s w).cw = s.cw := rfl

@[simp] theorem withCommandWord_rx (s : State) (w : Nat) : (withCommandWord s w).rx = s.rx := rfl

@[simp] theorem withCommandWord_corr (s : State) (w : Nat) : (withCommandWord s w).corr = s.corr := rfl

@[simp] theorem withCommandWord_syn1 (s : State) (w : Nat) : (withCommandWord s w).syn1 = s.syn1 := rfl

@[simp] theorem withCommandWord_syn2 (s : State) (w : Nat) : (withCommandWord s w).syn2 = s.syn2 := rfl

@[simp] theorem withCommandWord_syn3 (s : State) (w : Nat) : (withCommandWord s w).syn3 = s.syn3 := rfl

@[simp] theorem withCommandWord_syn4 (s : State) (w : Nat) : (withCommandWord s w).syn4 = s.syn4 := rfl

@[simp] theorem withCommandWord_det (s : State) (w : Nat) : (withCommandWord s w).det = s.det := rfl

@[simp] theorem withCommandWord_sigma1 (s : State) (w : Nat) : (withCommandWord s w).sigma1 = s.sigma1 := rfl

@[simp] theorem withCommandWord_sigma2 (s : State) (w : Nat) : (withCommandWord s w).sigma2 = s.sigma2 := rfl

@[simp] theorem withCommandWord_errmask (s : State) (w : Nat) : (withCommandWord s w).errmask = s.errmask := rfl

@[simp] theorem withCommandWord_errcnt (s : State) (w : Nat) : (withCommandWord s w).errcnt = s.errcnt := rfl

@[simp] theorem withCommandWord_gfA (s : State) (w : Nat) : (withCommandWord s w).gfA = s.gfA := rfl

@[simp] theorem withCommandWord_gfB (s : State) (w : Nat) : (withCommandWord s w).gfB = s.gfB := rfl

@[simp] theorem withCommandWord_gfI (s : State) (w : Nat) : (withCommandWord s w).gfI = s.gfI := rfl

@[simp] theorem withCommandWord_gfR (s : State) (w : Nat) : (withCommandWord s w).gfR = s.gfR := rfl

@[simp] theorem withCommandWord_program (s : State) (w : Nat) :
    (withCommandWord s w).program = .write (addrOf .cmd) w :: s.program := rfl

@[simp] theorem withCommandWord_reads (s : State) (w : Nat) : (withCommandWord s w).reads = s.reads := rfl

end Sys2Proof.Machine
end

