-- ==== Sys2Proof/Laws/Step.lean ====
section
/-!
SUPPORT. Everything a command and a step can do, said once: for each shared operation and each meaning, the next states
it can answer. Proofs cite these and do not unfold a meaning.
-/

namespace Sys2Proof.Machine

/-! ### The shared operations -/

theorem done_next {code : ResultCode} {op : Opcode} {s t : State} :
    done code op s = .next t ↔ t = finish code op.byte s := by
  unfold done
  exact ⟨fun h => (Host.Outcome.next.inj h).symm, fun h => h ▸ rfl⟩

theorem attempt_next {α : Type} {x : Except Fault α} {k : α → Result} {t : State} :
    attempt x k = .next t ↔ ∃ v, x = .ok v ∧ k v = .next t := by
  cases x with
  | ok v => exact ⟨fun h => ⟨v, rfl, h⟩, fun ⟨_, hv, h⟩ => Except.ok.inj hv ▸ h⟩
  | error f => exact ⟨fun h => (by cases h), fun ⟨_, hv, _⟩ => (by cases hv)⟩

theorem attempt_ok {α : Type} (v : α) (k : α → Result) : attempt (.ok v) k = k v := rfl

theorem withLength_eq {len : BitVec 16} {need : Nat} {op : Opcode} {s : State} {k : Result} (h : len.toNat = need) :
    withLength len need op s k = k := if_pos h

theorem withLength_ne {len : BitVec 16} {need : Nat} {op : Opcode} {s : State} {k : Result} (h : len.toNat ≠ need) :
    withLength len need op s k = done .invalidLength op s := if_neg h

theorem withLength_next {len : BitVec 16} {need : Nat} {op : Opcode} {s t : State} {k : Result} :
    withLength len need op s k = .next t ↔
      (len.toNat = need ∧ k = .next t) ∨ (len.toNat ≠ need ∧ t = finish .invalidLength op.byte s) := by
  by_cases h : len.toNat = need
  · rw [withLength_eq h]; simp [h]
  · rw [withLength_ne h, done_next]; simp [h]

/-- A command that ends with `finish` ends as `EndsAs` says. -/
theorem EndsAs.of_done (code : ResultCode) (op : Opcode) (s : State) :
    EndsAs (done code op s) s code.value.toNat op.byte :=
  ⟨_, rfl, rfl, by simp [codeOf], by simp, by simp, by simp⟩

@[simp] theorem codeOf_finish (code : ResultCode) (op : Byte) (s : State) :
    codeOf (finish code op s) = code.value.toNat := by
  simp [codeOf]

@[simp] theorem exceptStatus_finish (code : ResultCode) (op : Byte) (s : State) :
    exceptStatus (finish code op s) = exceptStatus s := rfl

/-! ### The meanings -/

theorem execGfAdd_next {s t : State} :
    exec .gfAdd s = .next t ↔ t = finish .ok 0x01 { s with gfR := gfAdd s.gfA s.gfB } := done_next

theorem execGfMul_next {s t : State} :
    exec .gfMul s = .next t ↔
      ∃ r, gfMul s.cfg s.gfA s.gfB = .ok r ∧ t = finish .ok 0x02 { s with gfR := r } := by
  refine attempt_next.trans ?_
  simp only [done_next]
  rfl

theorem execGfInv_next {s t : State} :
    exec .gfInv s = .next t ↔
      (s.gfA = 0 ∧ t = finish .divisionByZero 0x03 s) ∨
      (s.gfA ≠ 0 ∧ ∃ r, gfInv s.cfg s.gfA = .ok r ∧ t = finish .ok 0x03 { s with gfR := r }) := by
  change execGfInv s = _ ↔ _
  unfold execGfInv
  split
  · next h => rw [done_next]; simp [h, Opcode.byte]
  · next h => rw [attempt_next]; simp [h, done_next, Opcode.byte]

theorem execGfPow_next {s t : State} :
    exec .gfPow s = .next t ↔ t = finish .ok 0x04 { s with gfR := gfPow s.cfg s.gfI } := done_next

theorem execEncode_next {len : BitVec 16} {s t : State} :
    exec (.encode len) s = .next t ↔
      (len.toNat = s.cfg.k ∧ t = finish .ok 0x10 { s with cw := codewordOf s.cfg s.msg }) ∨
      (len.toNat ≠ s.cfg.k ∧ t = finish .invalidLength 0x10 s) := by
  refine withLength_next.trans ?_
  rw [done_next]
  rfl

theorem execSyndrome_next {len : BitVec 16} {s t : State} :
    exec (.syndrome len) s = .next t ↔
      (len.toNat = s.cfg.n ∧ ∃ y, syndromesOf s.cfg s.rx = .ok y ∧
        t = finish .ok 0x20 { s with syn1 := y.s1, syn2 := y.s2, syn3 := y.s3, syn4 := y.s4 }) ∨
      (len.toNat ≠ s.cfg.n ∧ t = finish .invalidLength 0x20 s) := by
  refine withLength_next.trans ?_
  rw [attempt_next]
  simp only [done_next]
  rfl

theorem execSolve_next {s t : State} :
    exec .solve s = .next t ↔
      ((s.syn1 = 0 ∧ s.syn2 = 0 ∧ s.syn3 = 0 ∧ s.syn4 = 0) ∧
        t = finish .ok 0x21 { s with det := s.syn1, sigma1 := 0, sigma2 := 0 }) ∨
      (s.syn1 = 0 ∧ ¬ (s.syn1 = 0 ∧ s.syn2 = 0 ∧ s.syn3 = 0 ∧ s.syn4 = 0) ∧
        t = finish .uncorrectable 0x21 { s with det := s.syn1, sigma1 := 0, sigma2 := 0 }) ∨
      (s.syn1 ≠ 0 ∧ ∃ p, locatorOf s.cfg ⟨s.syn1, s.syn2, s.syn3, s.syn4⟩ = .ok p ∧
        t = finish .ok 0x21 { s with det := s.syn1, sigma1 := p.1, sigma2 := p.2 }) := by
  change execSolve s = _ ↔ _
  unfold execSolve
  dsimp only
  split
  · next h =>
    have h' : s.syn1 = 0 ∧ s.syn2 = 0 ∧ s.syn3 = 0 ∧ s.syn4 = 0 := h
    rw [done_next]
    simp [h'.1, h'.2, Opcode.byte]
  · next h =>
    have h' : ¬ (s.syn1 = 0 ∧ s.syn2 = 0 ∧ s.syn3 = 0 ∧ s.syn4 = 0) := h
    split
    · next h1 =>
      have h1 : s.syn1 = 0 := h1
      rw [done_next]
      constructor
      · exact fun ht => .inr (.inl ⟨h1, h', ht⟩)
      · rintro (⟨h2, -⟩ | ⟨-, -, ht⟩ | ⟨h2, -⟩)
        · exact absurd h2 h'
        · exact ht
        · exact absurd h1 h2
    · next h1 => rw [attempt_next]; simp [h1, done_next, Opcode.byte]

theorem execChien_next {s t : State} :
    exec .chien s = .next t ↔
      ∃ found, scan s.cfg s.sigma1 s.sigma2 s.cfg.n = .ok found ∧
        ((found.2 ≠ sigdegOf s.sigma1 s.sigma2 ∧
            t = finish .miscorrectionDetected 0x22 { s with errcnt := found.2, errmask := 0 }) ∨
          (found.2 = sigdegOf s.sigma1 s.sigma2 ∧
            t = finish .ok 0x22 { s with errcnt := found.2, errmask := found.1 })) := by
  refine attempt_next.trans (exists_congr fun found => and_congr_right fun _ => ?_)
  split
  · next h => rw [done_next]; simp [h, Opcode.byte]
  · next h => rw [done_next]; simp [not_not.mp h, Opcode.byte]

theorem execCorrect_next {s t : State} :
    exec .correct s = .next t ↔ t = finish .ok 0x23 { s with corr := s.rx ^^^ s.errmask } := done_next

theorem searchAndCorrect_next {s t : State} :
    searchAndCorrect s = .next t ↔
      ∃ found, scan s.cfg s.sigma1 s.sigma2 s.cfg.n = .ok found ∧
        ((found.2 ≠ sigdegOf s.sigma1 s.sigma2 ∧
            t = finish .miscorrectionDetected 0x30 { s with errcnt := found.2, errmask := 0, corr := s.rx }) ∨
          (found.2 = sigdegOf s.sigma1 s.sigma2 ∧
            t = finish .ok 0x30 { s with errcnt := found.2, errmask := found.1, corr := s.rx ^^^ found.1 })) := by
  refine attempt_next.trans (exists_congr fun found => and_congr_right fun _ => ?_)
  split
  · next h => rw [done_next]; simp [h, Opcode.byte]
  · next h => rw [done_next]; simp [not_not.mp h, Opcode.byte]

/-- The ways DECODE can end once its length is right (R114): no error, a singular system, a root count that is not
SIGDEG, a correction. -/
inductive DecodeEnds (s t : State) (y : Syndromes) : Prop where
  | noError (h : y.allZero)
      (ht : t = finish .ok 0x30
        { s with syn1 := y.s1, syn2 := y.s2, syn3 := y.s3, syn4 := y.s4, det := 0, sigma1 := 0, sigma2 := 0,
                 errmask := 0, errcnt := 0, corr := s.rx })
  | singular (h : ¬ y.allZero) (h1 : y.s1 = 0)
      (ht : t = finish .uncorrectable 0x30
        { s with syn1 := y.s1, syn2 := y.s2, syn3 := y.s3, syn4 := y.s4, det := y.s1, sigma1 := 0, sigma2 := 0,
                 errmask := 0, errcnt := 0, corr := s.rx })
  | mismatch (h1 : y.s1 ≠ 0) (p found : Nat × Nat) (hp : locatorOf s.cfg y = .ok p)
      (hs : scan s.cfg p.1 p.2 s.cfg.n = .ok found) (hd : found.2 ≠ sigdegOf p.1 p.2)
      (ht : t = finish .miscorrectionDetected 0x30
        { s with syn1 := y.s1, syn2 := y.s2, syn3 := y.s3, syn4 := y.s4, det := y.s1, sigma1 := p.1, sigma2 := p.2,
                 errmask := 0, errcnt := found.2, corr := s.rx })
  | corrected (h1 : y.s1 ≠ 0) (p found : Nat × Nat) (hp : locatorOf s.cfg y = .ok p)
      (hs : scan s.cfg p.1 p.2 s.cfg.n = .ok found) (hd : found.2 = sigdegOf p.1 p.2)
      (ht : t = finish .ok 0x30
        { s with syn1 := y.s1, syn2 := y.s2, syn3 := y.s3, syn4 := y.s4, det := y.s1, sigma1 := p.1, sigma2 := p.2,
                 errmask := found.1, errcnt := found.2, corr := s.rx ^^^ found.1 })

theorem execDecode_next {len : BitVec 16} {s t : State} :
    exec (.decode len) s = .next t ↔
      (len.toNat = s.cfg.n ∧ ∃ y, syndromesOf s.cfg s.rx = .ok y ∧ DecodeEnds s t y) ∨
      (len.toNat ≠ s.cfg.n ∧ t = finish .invalidLength 0x30 s) := by
  refine withLength_next.trans ?_
  rw [attempt_next]
  refine or_congr (and_congr_right fun _ => exists_congr fun y => and_congr_right fun _ => ?_) Iff.rfl
  dsimp only
  split
  · next h =>
    rw [done_next]
    refine ⟨fun ht => .noError h ht, fun hd => ?_⟩
    cases hd with
    | noError _ ht => exact ht
    | singular h' => exact absurd h h'
    | mismatch h1 => exact absurd h.1 h1
    | corrected h1 => exact absurd h.1 h1
  · next h =>
    unfold locateAndCorrect
    split
    · next h1 =>
      rw [done_next]
      refine ⟨fun ht => .singular h h1 ht, fun hd => ?_⟩
      cases hd with
      | noError h' => exact absurd h' h
      | singular _ _ ht => exact ht
      | mismatch h1' => exact absurd h1 h1'
      | corrected h1' => exact absurd h1 h1'
    · next h1 =>
      rw [attempt_next]
      constructor
      · rintro ⟨p, hp, hk⟩
        obtain ⟨found, hs, ⟨hd, ht⟩ | ⟨hd, ht⟩⟩ := searchAndCorrect_next.mp hk
        · exact .mismatch h1 p found hp hs hd ht
        · exact .corrected h1 p found hp hs hd ht
      · intro hd
        cases hd with
        | noError h' => exact absurd h' h
        | singular _ h1' => exact absurd h1' h1
        | mismatch _ p found hp hs hd ht => exact ⟨p, hp, searchAndCorrect_next.mpr ⟨found, hs, .inl ⟨hd, ht⟩⟩⟩
        | corrected _ p found hp hs hd ht => exact ⟨p, hp, searchAndCorrect_next.mpr ⟨found, hs, .inr ⟨hd, ht⟩⟩⟩

/-! ### Transactions and steps -/

theorem execute_ok {w : Word} {i : Instr} (s : State) (h : decode w = .ok i) : execute w s = exec i s := by
  unfold execute
  rw [h]

theorem execute_error {w : Word} {e : IllegalWord} (s : State) (h : decode w = .error e) :
    execute w s = .next (finish .illegalCommand (opField w) s) := by
  unfold execute
  rw [h]

theorem execute_next {w : Word} {s t : State} :
    execute w s = .next t ↔
      (∃ i, decode w = .ok i ∧ exec i s = .next t) ∨
      (∃ e, decode w = .error e ∧ t = finish .illegalCommand (opField w) s) := by
  unfold execute
  cases decode w with
  | ok i => simp
  | error e => simp [eq_comm]

theorem hostWrite_next {a : Addr} {v : Nat} {s t : State} :
    hostWrite a v s = .next t ↔
      (regAt? a = some .cmd ∧ execute (BitVec.ofNat 32 v) s = .next t) ∨
      (∃ r, regAt? a = some r ∧ r ≠ .cmd ∧ t = storeReg s r (v % 2 ^ widthOf s.cfg r)) ∨
      (regAt? a = none ∧ t = s) := by
  unfold hostWrite
  split
  · next h => simp [h]
  · next r hr h =>
    have hr' : r ≠ .cmd := hr
    simp [h, hr', eq_comm]
  · next h => simp [h, eq_comm]

/-- What a step can do: nothing, or one line of the host program. -/
theorem step_next {s t : State} (h : step s = .next t) :
    ¬ codeReserved s ∧
    ((s.program = [] ∧ t = s) ∨
      ∃ l rest, s.program = l :: rest ∧ issue l { s with program := rest } = .next t) := by
  unfold step hostStep at h
  split at h
  · cases h
  · next hc =>
    refine ⟨hc, ?_⟩
    split at h
    · next hp => exact .inl ⟨hp, (Host.Outcome.next.inj h).symm⟩
    · next l rest hp => exact .inr ⟨l, rest, hp, h⟩

theorem step_of_program {s : State} {l : HostLine} {rest : List HostLine} (hc : ¬ codeReserved s)
    (hp : s.program = l :: rest) : step s = issue l { s with program := rest } := by
  unfold step hostStep
  rw [if_neg hc, hp]

theorem step_of_no_program {s : State} (hc : ¬ codeReserved s) (hp : s.program = []) : step s = .next s := by
  unfold step hostStep
  rw [if_neg hc, hp]

end Sys2Proof.Machine
end

