-- ==== Sys2Proof/Tests/Slice0.lean ====
section
/-!
SUPPORT. Tests and witnesses. The expected results are those of the spec: its worked examples and the vectors of
spec/95_test_vectors.md. A `witness_<Obligation>` shows a concrete state and operands that meet the hypotheses of that
statement, clause by clause.
-/

namespace Sys2Proof.Machine

/-- An outcome is a next state with a property, checked by evaluation. -/
theorem next_of_any {o : Result} {p : State → Bool} (h : (nextOf? o).any p = true) : ∃ t, o = .next t ∧ p t = true := by
  cases o with
  | next t => exact ⟨t, rfl, h⟩
  | fault f => cases h
  | refused r => cases h

/-- The field a test looks at, where the outcome is a next state. -/
def look {α : Type} (o : Result) (f : State → α) : Option α := (nextOf? o).map f

/-- The reset state with a received word. -/
def withRx (r : Nat) : State := { State.reset with rx := r }

/-- The reset state with the operands of a field command. -/
def withGf (a b i : Nat) : State := { State.reset with gfA := a, gfB := b, gfI := i }

/-- The reset state with syndromes. -/
def withSyn (a b d e : Nat) : State := { State.reset with syn1 := a, syn2 := b, syn3 := d, syn4 := e }

/-- The reset state with a locator. -/
def withSigma (a b : Nat) : State := { State.reset with sigma1 := a, sigma2 := b }

/-- The shortened configuration S12 of spec/95_test_vectors.md §1. -/
def shortened : Config := { Config.worked with n := 12, k := 4 }

/-! ### WellFormed -/

theorem test_wellFormed_encode : (Instr.encode 8).wellFormed Config.worked = false := by decide

theorem test_wellFormed_syndrome : (Instr.syndrome 7).wellFormed Config.worked = false := by decide

theorem test_wellFormed_decode : (Instr.decode 14).wellFormed Config.worked = false := by decide

theorem test_wellFormed_accepts : (Instr.encode 7).wellFormed Config.worked = true ∧
    (Instr.decode 15).wellFormed Config.worked = true ∧ Instr.solve.wellFormed Config.worked = true := by decide

/-! ### Decoding: words written out from R64 and R66, LEN then RSV then OP -/

theorem test_decode_gfAdd : decode 0b0000000000000000_00000000_00000001 = .ok .gfAdd := by decide

theorem test_decode_gfMul : decode 0b0000000000000000_00000000_00000010 = .ok .gfMul := by decide

theorem test_decode_gfInv : decode 0b0000000000000000_00000000_00000011 = .ok .gfInv := by decide

theorem test_decode_gfPow : decode 0b0000000000000000_00000000_00000100 = .ok .gfPow := by decide

theorem test_decode_encode : decode 0b0000000000000111_00000000_00010000 = .ok (.encode 7) := by decide

theorem test_decode_syndrome : decode 0b0000000000001111_00000000_00100000 = .ok (.syndrome 15) := by decide

theorem test_decode_solve : decode 0b0000000000000000_00000000_00100001 = .ok .solve := by decide

theorem test_decode_chien : decode 0b0000000000000000_00000000_00100010 = .ok .chien := by decide

theorem test_decode_correct : decode 0b0000000000000000_00000000_00100011 = .ok .correct := by decide

theorem test_decode_decode : decode 0b1000000000000001_00000000_00110000 = .ok (.decode 0x8001) := by decide

/-- The refusals of R67, each by the first check that fails. -/
theorem test_decode_refuses : decode 0x00000105 = .error .unassignedOp ∧ decode 0x00010101 = .error .reservedNotZero ∧
    decode 0x00010001 = .error .lengthNotZero ∧ decode 0x000000FF = .error .unassignedOp := by decide

theorem test_decodeTableWord : decodeTableWord 32 0x000F0030 = some (.decode 15) ∧
    decodeTableWord 16 0x0010 = some (.encode 0) ∧ decodeTableWord 32 0x00000105 = none := by decide

/-! ### Building a block: configurations of spec/95_test_vectors.md §1, and a refusal for each check -/

theorem test_worked_valid : refusalOf Config.worked = none := by decide

theorem test_shortened_valid : refusalOf shortened = none := by decide

theorem test_build_refuses_field :
    refusalOf { Config.worked with m := 1 } = some .invalidField ∧
    refusalOf { Config.worked with prim := 0x33 } = some .invalidField ∧
    refusalOf { Config.worked with prim := 0x1F } = some .invalidField := by decide

theorem test_build_refuses_configuration :
    refusalOf { Config.worked with t := 3 } = some .configurationError ∧
    refusalOf { Config.worked with n := 16 } = some .configurationError ∧
    refusalOf { Config.worked with g := 0x1D3 } = some .configurationError ∧
    refusalOf { Config.worked with k := 6 } = some .configurationError := by decide

/-! ### The commands: the examples of their rules -/

theorem test_gfAdd : look (exec .gfAdd (withGf 7 9 0)) (fun t => (t.gfR, t.status)) = some (14, 0x00000100) := by decide

theorem test_gfMul : look (exec .gfMul (withGf 7 9 0)) (fun t => (t.gfR, t.status)) = some (10, 0x00000200) := by decide

theorem test_gfMul_zero : look (exec .gfMul (withGf 0 9 0)) (·.gfR) = some 0 := by decide

theorem test_gfInv : look (exec .gfInv (withGf 2 0 0)) (fun t => (t.gfR, t.status)) = some (9, 0x00000300) := by decide

/-- R83: GF_R = 9 before stays 9. -/
theorem test_gfInv_zero : look (exec .gfInv { withGf 0 0 0 with gfR := 9 }) (fun t => (t.gfR, t.status)) =
    some (9, 0x00000302) := by decide

theorem test_gfPow : look (exec .gfPow (withGf 0 0 4)) (·.gfR) = some 3 := by decide

/-- R84: the exponent wraps at Q. -/
theorem test_gfPow_wraps : look (exec .gfPow (withGf 0 0 16)) (·.gfR) = some 2 := by decide

theorem test_encode : look (exec (.encode 7) { State.reset with msg := 0x55 }) (fun t => (t.cw, t.status)) =
    some (0x55E5, 0x00001000) := by decide

/-- R69: a wrong LEN leaves CW. -/
theorem test_encode_length : look (exec (.encode 8) { State.reset with msg := 0x55, cw := 3 }) (fun t => (t.cw,
t.status)) =
    some (3, 0x00001001) := by decide

theorem test_syndrome_low : look (exec (.syndrome 15) (withRx 0x55E4)) (fun t => (t.syn1, t.syn2, t.syn3, t.syn4)) =
    some (1, 1, 1, 1) := by decide

theorem test_syndrome_high : look (exec (.syndrome 15) (withRx (0x55E5 ^^^ 0x4000)))
    (fun t => (t.syn1, t.syn2, t.syn3, t.syn4)) = some (9, 13, 15, 14) := by decide

theorem test_solve : look (exec .solve (withSyn 9 13 11 14)) (fun t => (t.det, t.sigma1, t.sigma2, t.status)) =
    some (9, 9, 8, 0x00002100) := by decide

/-- R104: the syndromes of the errors at 0, 1 and 4. -/
theorem test_solve_uncorrectable : look (exec .solve { withSyn 0 0 6 0 with sigma1 := 5, sigma2 := 5 })
    (fun t => (t.det, t.sigma1, t.sigma2, t.status)) = some (0, 0, 0, 0x00002103) := by decide

theorem test_chien : look (exec .chien (withSigma 9 8)) (fun t => (t.errmask, t.errcnt, t.status)) =
    some (0x0009, 2, 0x00002200) := by decide +kernel

/-- R111: on the shortened code the root at position 13 is not counted. -/
theorem test_chien_shortened : look (exec .chien { withSigma 13 0 with cfg := shortened })
    (fun t => (t.errmask, t.errcnt, t.status)) = some (0, 0, 0x00002204) := by decide +kernel

theorem test_correct : look (exec .correct { withRx 0x55EC with errmask := 0x0009 }) (fun t => (t.corr, t.rx)) =
    some (0x55E5, 0x55EC) := by decide

theorem test_decode_two_errors : look (exec (.decode 15) (withRx 0x55EC))
    (fun t => ([t.syn1, t.syn2, t.syn3, t.syn4, t.det, t.sigma1, t.sigma2, t.errmask, t.errcnt, t.corr], t.status)) =
    some ([9, 13, 11, 14, 9, 9, 8, 0x0009, 2, 0x55E5], 0x00003000) := by decide +kernel

/-- R118: three errors, decoded to a wrong codeword. -/
theorem test_decode_three_errors : look (exec (.decode 15) (withRx (0x55E5 ^^^ 0x0007)))
    (fun t => (t.errmask, t.corr, t.status)) = some (0x2200, 0x77E2, 0x00003000) := by decide +kernel

/-! ### Transactions -/

/-- R68: the two worked words. -/
theorem test_illegal_words : look (hostWrite 0x00 0x00000000 State.reset) (·.status) = some 0x00000005 ∧
    look (hostWrite 0x00 0x00000105 State.reset) (·.status) = some 0x00000505 := by decide

/-- R143: a 9-bit value to the 7-bit MSG. -/
theorem test_write_truncates : look (hostWrite 0x10 0x1D5 State.reset) (·.msg) = some 0x55 := by decide

/-- R31, R32, R33, R34, R38 on the worked instance, and R49. -/
theorem test_reads : [0x00, 0x02, 0x03, 0x04, 0x05, 0x27, 0x3F].map (hostRead (withSigma 1 0)) =
    [0, 0x00000204, 0x0007000F, 0x00000013, 0x1D1, 1, 0] := by decide

/-- A word placed with `withFetchWord` is what the next step runs, as the first command after reset. -/
theorem test_withFetchWord : look (step (State.reset.withFetchWord 32 0x00000004)) (fun t => (t.gfR, t.status)) =
    some (1, 0x00000400) ∧
    look (step (State.reset.withFetchWord 16 0x0010)) (·.status) = some 0x00001001 := by decide

/-- R75: INJECT's read and its write, and RESET. -/
theorem test_inject : look (core.run 2 { withRx 0x55E5 with program := [.inject [0, 3], .reset] })
    (fun t => (t.rx, t.reads, t.program)) = some (0x55EC, [0x55E5], [.reset]) := by decide

/-! ### The assembler (R73 to R75) -/

theorem test_assemble_write : assembleLine Config.worked "WR  MSG, '1010101' ; a message".toList =
    some (.write 0x10 0x55) := by decide

theorem test_assemble_command : assembleLine Config.worked "DECODE".toList = some (.write 0x00 0x000F0030) ∧
    assembleLine Config.worked "CMDW 0x105".toList = some (.write 0x00 0x105) := by decide

theorem test_assemble_macros : assembleLine Config.worked "MOV RX, CW".toList = some .movRxCw ∧
    assembleLine Config.worked "INJECT 0, 3".toList = some (.inject [0, 3]) ∧
    assembleLine Config.worked "RD GF_R".toList = some (.read 0x33) ∧
    assembleLine Config.worked "RESET".toList = some .reset := by decide

/-! ### Witnesses: states of a built block -/

theorem worked_valid : Valid Config.worked := test_worked_valid

theorem reset_inv : State.reset.Inv := ⟨worked_valid, by decide, by decide⟩

theorem withRx_inv : (withRx 0x55E5).Inv ∧ (withRx 0x55EC).Inv ∧ (withRx 0x55E2).Inv ∧ (withRx 0).Inv ∧
    (withRx 0x7FFF).Inv :=
  ⟨⟨worked_valid, by decide, by decide⟩, ⟨worked_valid, by decide, by decide⟩, ⟨worked_valid, by decide, by decide⟩,
    ⟨worked_valid, by decide, by decide⟩, ⟨worked_valid, by decide, by decide⟩⟩

theorem codewords : IsCodeword Config.worked 0x55E5 ∧ IsCodeword Config.worked 0x1D1 ∧ IsCodeword Config.worked 0 ∧
    IsCodeword Config.worked 0x7FFF := by decide

/-! ### Witnesses: encoding and acceptance -/

theorem witness_DecodeAndEncodeAgree : decode 0x000F0030 = .ok (.decode 15) := by decide

theorem witness_MnemonicsExpandToCommandWords : Valid Config.worked ∧ Config.worked.k = 7 ∧ Config.worked.n = 15 :=
  ⟨worked_valid, by decide⟩

/-- A value of v for each clause: OP 0x00, 0x05, 0xFF; RSV 1 and 0xFF; LEN 8 of ENCODE, 0 and 16 of DECODE; LEN 1 of
GF_ADD; the legal words of ENCODE and SOLVE. -/
theorem witness_AcceptanceChecksInOrder :
    (∀ v ∈ [0x00000000, 0x00000105, 0x000000FF], v % 2 ^ 8 ∉ [0x01, 0x02, 0x03, 0x04, 0x10, 0x20, 0x21, 0x22, 0x23,
    0x30]) ∧
    (∀ v ∈ [0x00000101, 0x0000FF30], v % 2 ^ 8 ∈ [0x01, 0x02, 0x03, 0x04, 0x10, 0x20, 0x21, 0x22, 0x23, 0x30] ∧
      v / 2 ^ 8 % 2 ^ 8 ≠ 0) ∧
    (0x00080010 % 2 ^ 8 ∈ [0x10, 0x20, 0x30] ∧ 0x00080010 / 2 ^ 16 % 2 ^ 16 ≠ State.reset.cfg.k) ∧
    (∀ v ∈ [0x00000030, 0x00100030], v % 2 ^ 8 ∈ [0x10, 0x20, 0x30] ∧ v / 2 ^ 8 % 2 ^ 8 = 0 ∧
      v / 2 ^ 16 % 2 ^ 16 ≠ State.reset.cfg.n) ∧
    (0x00010001 % 2 ^ 8 ∉ [0x10, 0x20, 0x30] ∧ 0x00010001 / 2 ^ 8 % 2 ^ 8 = 0 ∧ 0x00010001 / 2 ^ 16 % 2 ^ 16 ≠ 0) ∧
    (0x00070010 / 2 ^ 8 % 2 ^ 8 = 0 ∧ 0x00070010 / 2 ^ 16 % 2 ^ 16 = State.reset.cfg.k) ∧
    0x00000021 / 2 ^ 16 % 2 ^ 16 = 0 := by decide

theorem witness_IllegalCommandChangesOnlyStatus : decode 0x00000000 = .error .unassignedOp ∧
    decode 0x00000105 = .error .unassignedOp ∧ decode 0x00000101 = .error .reservedNotZero ∧
    decode 0x00010001 = .error .lengthNotZero ∧ StatusLegal State.reset.status := by decide

theorem witness_InvalidLengthChangesOnlyStatus : (Instr.encode 8).wellFormed State.reset.cfg = false ∧
    (Instr.syndrome 14).wellFormed State.reset.cfg = false ∧ (Instr.decode 16).wellFormed State.reset.cfg = false ∧
    State.reset.cfg.k = 7 ∧ StatusLegal State.reset.status := by decide

theorem witness_EveryCommandReportsInStatus :
    State.reset.Inv ∧ ∃ t, execute 0x00000003 State.reset = .next t ∧ (codeOf t == 2) = true :=
  ⟨reset_inv, next_of_any (by decide)⟩

theorem witness_AcceptanceCodesExactly :
    (∃ t, execute 0x00000005 State.reset = .next t ∧ (codeOf t == 5) = true) ∧
    (∃ t, execute 0x00000100 State.reset = .next t ∧ (codeOf t == 5) = true) ∧
    (∃ t, execute 0x00080010 State.reset = .next t ∧ (codeOf t == 1) = true) ∧
    (∃ t, execute 0x000E0030 State.reset = .next t ∧ (codeOf t == 1) = true) ∧
    ∃ t, execute 0x00000001 State.reset = .next t ∧ (codeOf t == 0) = true :=
  ⟨next_of_any (by decide), next_of_any (by decide), next_of_any (by decide), next_of_any (by decide),
    next_of_any (by decide)⟩

/-! ### Witnesses: transactions -/

/-- The reset state with a host program. -/
def withProgram (ls : List HostLine) : State := { State.reset with program := ls }

theorem witness_StepRunsTheDecodedCommand :
    ¬ codeReserved (withProgram [.write 0x00 0x00000001]) ∧ decode (BitVec.ofNat 32 0x00000001) = .ok .gfAdd ∧
    decode (BitVec.ofNat 32 0x00000005) = .error .unassignedOp ∧
    (withProgram [.write 0x00 0x00000001]).program = [.write 0x00 0x00000001] ∧
    (withProgram [.read 0x3F]).program = [.read 0x3F] ∧ (withProgram [.reset]).program = [.reset] ∧
    (withProgram []).program = [] ∧ 5 < codeOf { State.reset with status := 6 } := by decide

theorem witness_HostReadAnswersTheRegister : ¬ codeReserved (withProgram [.read 0x3F]) ∧
    (withProgram [.read 0x3F]).program = [.read 0x3F] ∧
    ∀ a ∈ [(0x06 : Addr), 0x0F, 0x14, 0x1F, 0x2A, 0x2F, 0x34, 0x3F], (5 < a.toNat ∧ a.toNat < 0x10) ∨
      (0x13 < a.toNat ∧ a.toNat < 0x20) ∨ (0x29 < a.toNat ∧ a.toNat < 0x30) ∨ 0x33 < a.toNat := by decide

theorem witness_HostWriteStoresModuloTheWidth : ∀ a ∈ [(0x01 : Addr), 0x05, 0x11, 0x13, 0x24, 0x27, 0x29, 0x33, 0x3F],
    a.toNat ∉ [0x00, 0x10, 0x12, 0x20, 0x21, 0x22, 0x23, 0x25, 0x26, 0x28, 0x30, 0x31, 0x32] := by decide

theorem witness_ReadAfterWrite : accessOf .msg = .readWrite ∧ accessOf .sigma1 = .readWrite ∧
    accessOf .gfI = .readWrite ∧ (0x11 : Addr) ≠ addrOf .msg ∧ Reg.msg ≠ .sigma1 ∧ Reg.msg ≠ .sigma2 := by decide

theorem witness_ConfigurationWordsHoldTheirFields : Valid State.reset.cfg ∧ State.reset.cfg = Config.worked :=
  ⟨worked_valid, rfl⟩

theorem witness_MacrosExpandToTransactions : ¬ codeReserved (withProgram [.movRxCw]) ∧
    (withProgram [.movRxCw]).program = [.movRxCw] ∧ ¬ codeReserved (withProgram [.inject [0, 3, 0]]) ∧
    (withProgram [.inject [0, 3, 0]]).program = [.inject [0, 3, 0]] := by decide

theorem witness_ResetSetsEveryStoredRegister : ¬ codeReserved { withProgram [.reset] with rx := 0x55E5, gfR := 9 } ∧
    { withProgram [.reset] with rx := 0x55E5, gfR := 9 }.program = [.reset] := by decide

theorem witness_OnlyValidConfigurationsAreBuilt :
    (ChkMRange Config.worked ∧ ChkPrimDegree Config.worked ∧ ChkPrimPrimitive Config.worked ∧ ChkT Config.worked ∧
      ChkNRange Config.worked ∧ ChkGenEq Config.worked ∧ ChkGenDegree Config.worked) ∧
    ¬ ChkMRange { Config.worked with m := 1 } ∧ ¬ ChkPrimPrimitive { Config.worked with prim := 0x1F } ∧
    (ChkMRange { Config.worked with t := 3 } ∧ ChkPrimDegree { Config.worked with t := 3 } ∧
      ChkPrimPrimitive { Config.worked with t := 3 } ∧ ¬ ChkT { Config.worked with t := 3 }) ∧
    ¬ ChkNRange { Config.worked with n := 16 } ∧ ¬ ChkGenDegree { Config.worked with k := 6 } ∧
    build { Config.worked with prim := 0x1F } = .error .invalidField ∧
    build { Config.worked with t := 3 } = .error .configurationError := by decide

/-- One that fails R21 only of its group, and one that fails R19 and R22 (log entry 14). -/
theorem witness_FieldChecksComeFirst :
    ¬ (ChkMRange { Config.worked with prim := 0x1F } ∧ ChkPrimDegree { Config.worked with prim := 0x1F } ∧
      ChkPrimPrimitive { Config.worked with prim := 0x1F }) ∧
    ¬ (ChkMRange { Config.worked with m := 1, t := 3 } ∧ ChkPrimDegree { Config.worked with m := 1, t := 3 } ∧
      ChkPrimPrimitive { Config.worked with m := 1, t := 3 }) ∧ ¬ ChkT { Config.worked with m := 1, t := 3 } := by decide

theorem witness_ResetMeetsTheInvariant : build Config.worked = .ok State.reset := by decide

theorem witness_EveryStepKeepsTheInvariant : State.reset.Inv ∧
    (∃ t, step (withProgram [.write 0x10 0xFF]) = .next t ∧ (t.msg == 0x7F) = true) ∧
    (withProgram [.write 0x10 0xFF]).Inv :=
  ⟨reset_inv, next_of_any (by decide), worked_valid, by decide, by decide⟩

theorem witness_EveryTransactionCompletes : State.reset.Inv := reset_inv

theorem witness_TheConfigurationNeverChanges :
    ∃ t, step (withProgram [.write 0x05 0]) = .next t ∧ (t.cfg == Config.worked) = true :=
  next_of_any (by decide)

theorem witness_CommandsAfterReset : Valid Config.worked := worked_valid

/-! ### Witnesses: frames -/

theorem witness_FieldCommandsTouchOnlyTheirRegisters :
    (∃ t, exec .gfAdd (withGf 7 9 0) = .next t ∧ (t.gfR == 14) = true) ∧
    (∃ t, exec .gfMul (withGf 7 9 0) = .next t ∧ (t.gfR == 10) = true) ∧
    (∃ t, exec .gfInv (withGf 2 0 0) = .next t ∧ (t.gfR == 9) = true) ∧
    (∃ t, exec .gfPow (withGf 0 0 4) = .next t ∧ (t.gfR == 3) = true) :=
  ⟨next_of_any (by decide), next_of_any (by decide), next_of_any (by decide), next_of_any (by decide)⟩

/-- Each codec command completes, with its own effect, on a state of the worked instance. -/
theorem codec_commands_complete :
    (∃ t, exec (.encode 7) { State.reset with msg := 1 } = .next t ∧ (t.cw == 0x1D1) = true) ∧
    (∃ t, exec (.syndrome 15) (withRx 1) = .next t ∧ (t.syn1 == 1) = true) ∧
    (∃ t, exec .solve (withSyn 9 13 11 14) = .next t ∧ (t.sigma2 == 8) = true) ∧
    (∃ t, exec .chien (withSigma 9 8) = .next t ∧ (t.errcnt == 2) = true) ∧
    (∃ t, exec .correct (withRx 5) = .next t ∧ (t.corr == 5) = true) ∧
    ∃ t, exec (.decode 15) (withRx 0x55EC) = .next t ∧ (t.corr == 0x55E5) = true :=
  ⟨next_of_any (by decide +kernel), next_of_any (by decide +kernel), next_of_any (by decide +kernel),
    next_of_any (by decide +kernel),
    next_of_any (by decide +kernel), next_of_any (by decide +kernel)⟩

theorem witness_CodecCommandsIgnoreTheFieldRegisters : Instr.solve ∉ [Instr.gfAdd, .gfMul, .gfInv, .gfPow] ∧
    ∃ t, exec .solve (withSyn 9 13 11 14) = .next t ∧ (t.sigma2 == 8) = true :=
  ⟨by decide, codec_commands_complete.2.2.1⟩

theorem witness_CodecCommandsWriteOnlyTheirResults :
    (∃ t, exec (.encode 7) { State.reset with msg := 1 } = .next t ∧ (t.cw == 0x1D1) = true) ∧
    ∃ t, execute 0x000F0030 (withRx 0x55EC) = .next t ∧ (t.corr == 0x55E5) = true :=
  ⟨codec_commands_complete.1, next_of_any (by decide +kernel)⟩

/-! ### Witnesses: field arithmetic -/

theorem witness_ExpAndLogTables : Valid Config.worked ∧ Config.worked.q = 15 := ⟨worked_valid, by decide⟩

/-- A write to CMD of a word with each opcode: accepted, and with RSV not 0. -/
theorem words_complete :
    ∀ op ∈ [0x01, 0x02, 0x03, 0x04, 0x10, 0x20, 0x21, 0x22, 0x23, 0x30],
      (op + 0x100) % 2 ^ 8 = op ∧ ((nextOf? (hostWrite 0x00 (op + 0x100) State.reset)).any fun t => codeOf t == 5) = true ∧
        ((nextOf? (hostWrite 0x00 op State.reset)).any fun t => codeOf t < 5) = true := by decide +kernel

theorem witness_GfAddXorsItsOperands : (∃ t, exec .gfAdd (withGf 7 9 0) = .next t ∧ (t.gfR == 14) = true) ∧
    (∃ t, exec .gfAdd (withGf 9 9 0) = .next t ∧ (t.gfR == 0) = true) ∧
    ∃ t, hostWrite 0x00 0x00000001 State.reset = .next t ∧ (codeOf t == 0) = true :=
  ⟨next_of_any (by decide), next_of_any (by decide), next_of_any (by decide)⟩

theorem witness_GfMulAddsLogarithms : Valid (withGf 15 15 0).cfg ∧ (withGf 15 15 0).gfA < 2 ^ (withGf 15 15 0).cfg.m ∧
    (withGf 15 15 0).gfB < 2 ^ (withGf 15 15 0).cfg.m ∧ gfInv Config.worked 2 = .ok 9 ∧
    (withGf 7 9 0).cfg = Config.worked :=
  ⟨worked_valid, by decide, by decide, by decide, rfl⟩

theorem witness_GfInvInvertsOrReportsDivisionByZero : Valid (withGf 15 0 0).cfg ∧ (withGf 15 0 0).gfA ≠ 0 ∧
    (withGf 15 0 0).gfA < 2 ^ (withGf 15 0 0).cfg.m ∧ (withGf 0 0 0).gfA = 0 ∧
    StatusLegal { withGf 0 0 0 with gfR := 9 }.status :=
  ⟨worked_valid, by decide, by decide, by decide, by decide⟩

theorem witness_GfPowReadsExpModuloQ : Valid (withGf 0 0 65535).cfg ∧
    (∃ t, exec .gfPow (withGf 0 0 65535) = .next t ∧ (t.gfR == 1) = true) ∧
    (∃ t, exec .gfPow (withGf 0 0 15) = .next t ∧ (t.gfR == 1) = true) ∧
    ∃ t, exec .gfPow (withGf 0 0 0) = .next t ∧ (t.gfR == 1) = true :=
  ⟨worked_valid, next_of_any (by decide), next_of_any (by decide), next_of_any (by decide)⟩

theorem witness_FieldLawsHold : Valid Config.worked ∧ 15 < 2 ^ Config.worked.m ∧ 7 < 2 ^ Config.worked.m ∧
    gfMul Config.worked 15 7 = .ok 11 :=
  ⟨worked_valid, by decide, by decide, by decide⟩

theorem witness_GfMulIsPolynomialProductModuloPrim : Valid Config.worked ∧ 15 < 2 ^ Config.worked.m :=
  ⟨worked_valid, by decide⟩

theorem witness_DivisionByZeroOnlyFromGfInv :
    (∃ t, execute 0x00000003 (withGf 0 0 0) = .next t ∧ (codeOf t == 2) = true) ∧
    ∃ t, execute 0x00000003 (withGf 2 0 0) = .next t ∧ (codeOf t == 0) = true :=
  ⟨next_of_any (by decide), next_of_any (by decide)⟩

/-! ### Witnesses: encoder -/

/-- x^4 + x + 1 and x^4 + x^3 + x^2 + x + 1, and a division with a remainder. -/
theorem witness_PolynomialProductAndDivision : (0x13 : Nat) ≠ 0 ∧ (0x1F : Nat) ≠ 0 ∧ (1 : Nat) ≤ 0x1D1 ∧
    (0x5500 : Nat) = polyMul (polyDivmod 0x5500 0x1D1).1 0x1D1 ^^^ 0xE5 ∧ 0xE5 < 2 ^ degree 0x1D1 := by decide

theorem witness_EncodeAppendsTheRemainder : Valid State.reset.cfg ∧ (7 : BitVec 16).toNat = State.reset.cfg.k ∧
    (8 : BitVec 16).toNat ≠ State.reset.cfg.k ∧ { State.reset with msg := 0x7F }.msg < 2 ^ State.reset.cfg.k ∧
    (∃ t, exec (.encode 7) { State.reset with msg := 1 } = .next t ∧ (t.cw == 0x1D1) = true) ∧
    ∃ t, exec (.encode 7) { State.reset with msg := 0x7F } = .next t ∧ (t.cw == 0x7FFF) = true :=
  ⟨worked_valid, by decide, by decide, by decide, next_of_any (by decide), next_of_any (by decide)⟩

theorem witness_CodewordIsSystematicAndDivisible : State.reset.Inv ∧ (7 : BitVec 16).toNat = State.reset.cfg.k :=
  ⟨reset_inv, by decide⟩

theorem witness_EncodeIsLinear : Valid Config.worked ∧ 0x55 < 2 ^ Config.worked.k ∧ 0x7F < 2 ^ Config.worked.k ∧
    codewordOf Config.worked 0x55 = 0x55E5 ∧ IsCodeword Config.worked 0x55E5 ∧ IsCodeword Config.worked 0x1D1 :=
  ⟨worked_valid, by decide, by decide, by decide, codewords.1, codewords.2.1⟩

theorem witness_GeneratorIsMinimalWithItsRoots : Valid Config.worked ∧ (0x1D1 : Nat) ≠ 0 ∧ 0x1D1 < 2 ^ 9 ∧
    ∀ i ∈ [1, 2, 3, 4], polyEval Config.worked 0x1D1 9 (gfPow Config.worked i) = .ok 0 :=
  ⟨worked_valid, by decide, by decide, by decide⟩

/-! ### Witnesses: syndromes and solver -/

theorem witness_HornerEvaluatesTheSum : Valid Config.worked ∧ 9 < 2 ^ Config.worked.m ∧ logOf Config.worked 9 = .ok 14 :=
  ⟨worked_valid, by decide, by decide⟩

theorem witness_SyndromeEvaluatesTheReceivedWord : Valid (withRx 0x4000).cfg ∧
    (withRx 0x4000).rx < 2 ^ (withRx 0x4000).cfg.n ∧ (15 : BitVec 16).toNat = (withRx 0x4000).cfg.n ∧
    (14 : BitVec 16).toNat ≠ (withRx 0x4000).cfg.n ∧ (withRx 0x4000).rx = 2 ^ 14 ∧
    IsCodeword (withRx 0x55E5).cfg (withRx 0x55E5).rx ∧ (withRx 0).rx = 0 :=
  ⟨worked_valid, by decide, by decide, by decide, by decide, codewords.1, rfl⟩

theorem witness_ZeroSyndromesExactlyOnCodewords : Valid Config.worked ∧ 0x55E5 < 2 ^ Config.worked.n ∧
    (withRx (0x55E5 ^^^ 0x1D1)).Inv ∧ (15 : BitVec 16).toNat = Config.worked.n ∧ IsCodeword Config.worked 0x55E5 ∧
    IsCodeword Config.worked 0x1D1 :=
  ⟨worked_valid, by decide, ⟨worked_valid, by decide, by decide⟩, by decide, codewords.1, codewords.2.1⟩

theorem witness_SyndromesArePowerSumsOfTheErrors : Valid Config.worked ∧ 15 < 2 ^ Config.worked.m ∧
    IsCodeword Config.worked 0x55E5 ∧ [0, 3, 14].Nodup ∧ (∀ p ∈ [0, 3, 14], p < Config.worked.n) ∧ 4 ∈ [1, 2, 3, 4] :=
  ⟨worked_valid, by decide, codewords.1, by decide, by decide, by decide⟩

theorem witness_SyndromesAreConjugate : State.reset.Inv ∧ (15 : BitVec 16).toNat = State.reset.cfg.n ∧
    (withSyn 9 13 11 14).Inv ∧ (withSyn 9 13 11 14).syn1 ≠ 0 ∧ 15 < 2 ^ (withSyn 9 13 11 14).cfg.m :=
  ⟨reset_inv, by decide, ⟨worked_valid, by decide, by decide⟩, by decide, by decide⟩

theorem witness_SolveSolvesTheNewtonSystem : (withSyn 0 0 6 0).syn1 = 0 ∧
    ¬ ((withSyn 0 0 6 0).syn2 = 0 ∧ (withSyn 0 0 6 0).syn3 = 0 ∧ (withSyn 0 0 6 0).syn4 = 0) ∧
    (withSyn 9 13 11 14).Inv ∧ (withSyn 9 13 11 14).syn1 ≠ 0 ∧
    (withSyn 9 13 15 14).Inv ∧ gfMul Config.worked 9 9 = .ok 13 ∧ gfMul Config.worked 9 13 = .ok 15 ∧
    ∃ t, hostWrite 0x00 0x00000021 (withSyn 0 0 6 0) = .next t ∧ (codeOf t == 3) = true :=
  ⟨by decide, by decide, ⟨worked_valid, by decide, by decide⟩, by decide, ⟨worked_valid, by decide, by decide⟩,
    by decide,
    by decide, next_of_any (by decide)⟩

/-- No error, one error at the highest position, and errors at 0 and 3. -/
theorem witness_SolveFindsTheLocatorsOfTwoErrors : (withRx 0x55E5).Inv ∧ (15 : BitVec 16).toNat = Config.worked.n ∧
    IsCodeword Config.worked 0x55E5 ∧ (withRx (0x55E5 ^^^ 2 ^ 14)).Inv ∧ 14 < Config.worked.n ∧
    (withRx (0x55E5 ^^^ 2 ^ 0 ^^^ 2 ^ 3)).Inv ∧ 0 ≠ 3 :=
  ⟨withRx_inv.1, by decide, codewords.1, ⟨worked_valid, by decide, by decide⟩, by decide,
    ⟨worked_valid, by decide, by decide⟩, by decide⟩

/-! ### Witnesses: search, correction and decode -/

theorem withSigma_inv : (withSigma 9 8).Inv ∧ (withSigma 0 0).Inv ∧ (withSigma 0 1).Inv ∧ (withSigma 2 0).Inv ∧
    (withSigma 9 0).Inv :=
  ⟨⟨worked_valid, by decide, by decide⟩, ⟨worked_valid, by decide, by decide⟩, ⟨worked_valid, by decide, by decide⟩,
    ⟨worked_valid, by decide, by decide⟩, ⟨worked_valid, by decide, by decide⟩⟩

theorem witness_ChienFindsTheZerosOfTheLocator : (withSigma 9 8).Inv ∧ (withSigma 0 0).Inv ∧ (withSigma 0 1).Inv ∧
    StatusLegal (withSigma 9 8).status ∧
    (∃ t, exec .chien (withSigma 9 8) = .next t ∧ (t.errcnt == 2) = true) ∧
    ∃ t, hostWrite 0x00 0x00000022 (withSigma 0 1) = .next t ∧ (codeOf t == 4) = true :=
  ⟨withSigma_inv.1, withSigma_inv.2.1, withSigma_inv.2.2.1, by decide +kernel, next_of_any (by decide +kernel),
    next_of_any (by decide +kernel)⟩

theorem witness_ReciprocalAndMonicLocatorAgree : Valid Config.worked ∧ 9 < 2 ^ Config.worked.m ∧ 14 < Config.worked.n :=
  ⟨worked_valid, by decide, by decide⟩

/-- One error at the highest position, two errors, and a root beyond the shortened length. -/
theorem witness_ChienRootFacts : (withSigma 9 8).Inv ∧ (withSigma 0 0).Inv ∧
    ((withSigma 9 0).Inv ∧ 14 < Config.worked.n ∧ (withSigma 9 0).sigma1 = gfPow Config.worked 14) ∧
    (gfAdd (gfPow Config.worked 0) (gfPow Config.worked 3) = 9 ∧ gfPow Config.worked (0 + 3) = 8) ∧
    { withSigma 13 0 with cfg := shortened }.Inv ∧ { withSigma 13 0 with cfg := shortened }.sigma1 ≠ 0 ∧
    logOf shortened 13 = .ok 13 ∧ ∃ t, exec .chien (withSigma 9 8) = .next t ∧ (t.errcnt == 2) = true :=
  ⟨withSigma_inv.1, withSigma_inv.2.1, ⟨withSigma_inv.2.2.2.2, by decide, by decide⟩, by decide,
    ⟨test_shortened_valid, by decide +kernel, by decide +kernel⟩, by decide +kernel, by decide +kernel,
      next_of_any (by decide +kernel)⟩

theorem witness_CorrectFlipsTheMaskedBits :
    (∃ t, exec .correct { withRx 0x55EC with errmask := 0x0009 } = .next t ∧ (t.corr == 0x55E5) = true) ∧
    (∃ t, exec .correct (withRx 0x55EC) = .next t ∧ (t.corr == 0x55EC) = true) ∧
    ∃ t, hostWrite 0x00 0x00000023 (withRx 0x55EC) = .next t ∧ (codeOf t == 0) = true :=
  ⟨next_of_any (by decide), next_of_any (by decide), next_of_any (by decide)⟩

/-- RX for each of the four ways DECODE can end: a codeword; S1 = 0 and S3 = 6; two errors; three errors with a root count
that is not 2. -/
theorem witness_DecodeRunsThePipeline : Valid Config.worked ∧ (15 : BitVec 16).toNat = Config.worked.n ∧
    (14 : BitVec 16).toNat ≠ Config.worked.n ∧ (withRx 0x55E5).Inv ∧ IsCodeword Config.worked (withRx 0x55E5).rx ∧
    syndromesOf Config.worked 0x55E5 = .ok { s1 := 0, s2 := 0, s3 := 0, s4 := 0 } ∧
    syndromesOf Config.worked (0x55E5 ^^^ 0x0013) = .ok { s1 := 0, s2 := 0, s3 := 6, s4 := 0 } ∧
    syndromesOf Config.worked 0x55EC = .ok { s1 := 9, s2 := 13, s3 := 11, s4 := 14 } ∧
    ∃ t, exec (.decode 15) (withRx (0x55E5 ^^^ 0x0025)) = .next t ∧ (codeOf t == 4) = true :=
  ⟨worked_valid, by decide, by decide, withRx_inv.1, codewords.1, by decide, by decide, by decide,
    next_of_any (by decide +kernel)⟩

theorem witness_DecodeIsTheSequenceOfItsSteps : (withRx 0x55EC).Inv ∧ (15 : BitVec 16).toNat = (withRx 0x55EC).cfg.n :=
  ⟨withRx_inv.2.1, by decide⟩

theorem witness_RoundTripRecoversTheMessage : State.reset.Inv ∧ 0x7F < 2 ^ State.reset.cfg.k := ⟨reset_inv, by decide⟩

theorem witness_DecodeCorrectsUpToTwoErrors : State.reset.Inv ∧ IsCodeword State.reset.cfg 0x55E5 ∧ [0, 14].Nodup ∧
    [0, 14].length ≤ 2 ∧ ∀ p ∈ [0, 14], p < State.reset.cfg.n :=
  ⟨reset_inv, codewords.1, by decide, by decide, by decide⟩

theorem witness_BeyondTheRadiusThreeOutcomes : (withRx (0x55E5 ^^^ 0x0007)).Inv ∧
    (15 : BitVec 16).toNat = Config.worked.n ∧ IsCodeword Config.worked 0x55E5 ∧
    2 < popcount Config.worked.n ((withRx (0x55E5 ^^^ 0x0007)).rx ^^^ 0x55E5) ∧
    IsCodeword Config.worked 0x77E2 ∧ popcount Config.worked.n (0x77E2 ^^^ (0x55E5 ^^^ 0x0007)) = 2 :=
  ⟨⟨worked_valid, by decide, by decide⟩, by decide, codewords.1, by decide, by decide, by decide⟩

theorem witness_ResultsAgreeAfterACommand : (withRx 0x55EC).Inv ∧
    (∃ t, exec .solve (withSyn 0 0 6 0) = .next t ∧ (t.det == 0) = true) ∧ (15 : BitVec 16).toNat = (withRx 0).cfg.n ∧
    (∃ t, exec (.decode 15) (withRx 0x55EC) = .next t ∧ (codeOf t == 0) = true) ∧
    (∃ t, exec (.decode 15) (withRx (0x55E5 ^^^ 0x0013)) = .next t ∧ (codeOf t == 3) = true) ∧
    ∃ t, exec .chien (withSigma 0 1) = .next t ∧ (codeOf t == 4) = true :=
  ⟨withRx_inv.2.1, next_of_any (by decide +kernel), by decide +kernel, next_of_any (by decide +kernel),
    next_of_any (by decide +kernel),
    next_of_any (by decide +kernel)⟩

theorem witness_UncorrectableExactlyWhenSingular : decode 0x00000021 = .ok .solve ∧ decode 0x000F0030 = .ok (.decode 15) ∧
    (15 : BitVec 16).toNat = (withRx 0).cfg.n ∧
    (∃ t, execute 0x00000021 (withSyn 0 0 6 0) = .next t ∧ (codeOf t == 3) = true) ∧
    ∃ t, execute 0x000F0030 (withRx (0x55E5 ^^^ 0x0013)) = .next t ∧ (codeOf t == 3) = true :=
  ⟨by decide, by decide, by decide, next_of_any (by decide), next_of_any (by decide)⟩

theorem witness_MiscorrectionExactlyOnRootCountMismatch : (withSigma 0 1).Inv ∧ (withRx (0x55E5 ^^^ 0x0025)).Inv ∧
    decode 0x00000022 = .ok .chien ∧ decode 0x000F0030 = .ok (.decode 15) ∧
    (∃ t, execute 0x00000022 (withSigma 0 1) = .next t ∧ (codeOf t == 4) = true) ∧
    ∃ t, execute 0x000F0030 (withRx (0x55E5 ^^^ 0x0025)) = .next t ∧ (codeOf t == 4) = true :=
  ⟨withSigma_inv.2.2.1, ⟨worked_valid, by decide +kernel, by decide +kernel⟩, by decide +kernel, by decide +kernel,
    next_of_any (by decide +kernel),
    next_of_any (by decide +kernel)⟩

theorem witness_StandaloneStepsDoNotStop : (withSyn 0 0 6 0).Inv ∧
    (∃ t, exec .solve (withSyn 0 0 6 0) = .next t ∧ (codeOf t == 3) = true) ∧
    (∃ t, exec .chien (withSigma 0 1) = .next t ∧ (codeOf t == 4) = true) ∧
    ∃ t, exec (.decode 15) (withRx (0x55E5 ^^^ 0x0013)) = .next t ∧ (codeOf t == 3) = true :=
  ⟨⟨worked_valid, by decide +kernel, by decide +kernel⟩, next_of_any (by decide +kernel),
    next_of_any (by decide +kernel), next_of_any (by decide +kernel)⟩

theorem witness_OverWideMessageIsTruncatedAndEncoded : accessOf .msg = .readWrite ∧
    (7 : BitVec 16).toNat = State.reset.cfg.k ∧ 0x1D5 % 2 ^ State.reset.cfg.k = 0x55 := by decide

/-- For the write clause: RX of width 15, with a buffer whose pad bit is 1. -/
theorem witness_BitStringsAndByteBuffers : 0x55E5 < 2 ^ 15 ∧ 0x7FFF < 2 ^ 15 ∧ 0 < (toBytes 15 0x55E5).length ∧
    0x55 < 2 ^ Config.worked.k ∧ [true] ≠ [] ∧ accessOf .rx = .readWrite ∧
    ([0xD5, 0xE5] : List Byte).length = byteCount (widthOf State.reset.cfg .rx) := by decide

/-- R54 on the worked CW: the same two bytes with the pad bit set leave the same RX. -/
theorem test_pad_bits_discarded :
    ∃ t, hostWrite 0x12 (ofBytes [0xD5, 0xE5]) State.reset = .next t ∧ (t.rx == 0x55E5) = true :=
  next_of_any (by decide)

end Sys2Proof.Machine
end

section
/-!
The two renderings of a register value: bit strings (spec/00_scope.md R13) and big-endian byte buffers with pad bits
(spec/20_memory.md R54), and what a host write of such a buffer leaves in the register.
-/

namespace Sys2Proof.Machine

/-! ### Bit strings (R13) -/

theorem getElem_bitString (w v i : Nat) (hi : i < (bitString w v).length) :
    (bitString w v)[i] = v.testBit (w - 1 - i) := by simp [bitString]

/-- The last character of a bit string is bit 0. -/
theorem bitString_succ (w v : Nat) : bitString (w + 1) v = bitString w (v / 2) ++ [v.testBit 0] := by
  have hbit : ∀ i ∈ List.range w, v.testBit (w - i) = (v / 2).testBit (w - 1 - i) := fun i hi => by
    have hi : i < w := List.mem_range.mp hi
    rw [show w - i = w - 1 - i + 1 by omega, Nat.testBit_succ]
  simp only [bitString, List.range_succ, List.map_append, List.map_singleton, Nat.add_sub_cancel, Nat.sub_self]
  rw [List.map_congr_left hbit]

theorem ofBitString_append_singleton (bits : List Bool) (b : Bool) :
    ofBitString (bits ++ [b]) = ofBitString bits * 2 + b.toNat := by simp [ofBitString]

theorem ofBitString_bitString {w v : Nat} (hv : v < 2 ^ w) : ofBitString (bitString w v) = v := by
  induction w generalizing v with
  | zero => simp [bitString, ofBitString]; omega
  | succ w ih =>
    rw [bitString_succ, ofBitString_append_singleton, ih (by omega), Nat.toNat_testBit]
    omega

/-- The first characters of a bit string are the bit string of the high bits. -/
theorem take_bitString {k n : Nat} (hk : k ≤ n) (v : Nat) :
    (bitString n v).take k = bitString k (v >>> (n - k)) := by
  refine List.ext_getElem (by simp [hk]) fun i _ hi => ?_
  have hi : i < k := by simpa using hi
  rw [List.getElem_take, getElem_bitString, getElem_bitString, Nat.testBit_shiftRight]
  congr 1
  omega

/-- The message occupies bits N-1 to N-K of its codeword: the remainder does not reach them. -/
theorem codewordOf_shiftRight {c : Config} (hv : Valid c) (m : Nat) : codewordOf c m >>> (c.n - c.k) = m := by
  have hrem : (polyDivmod (m <<< (c.n - c.k)) c.g).2 < 2 ^ (c.n - c.k) := by
    rw [← hv.degree_gen.1]
    exact (polyDivmod_spec hv.gen_ne_zero _).2
  rw [codewordOf, Nat.shiftRight_or_distrib, Nat.shiftLeft_shiftRight, Nat.shiftRight_eq_zero _ _ hrem, Nat.or_zero]

/-! ### Binary literals of the assembler (spec/30_encoding.md R73) -/

/-- The character a bit is written as. -/
def bitDigit (b : Bool) : Char := if b then '1' else '0'

theorem digitOf?_bitDigit (b : Bool) : digitOf? (bitDigit b) = some b.toNat := by cases b <;> decide

theorem digitsFrom_bitDigits (bits : List Bool) (acc : Nat) :
    digitsFrom 2 (bits.map bitDigit) acc = some (bits.foldl (fun a b => a * 2 + b.toNat) acc) := by
  induction bits generalizing acc with
  | nil => rfl
  | cons b bits ih => simp [digitsFrom, digitOf?_bitDigit, Bool.toNat_le, ih]

theorem numberOf?_bitDigits {bits : List Bool} (h : bits ≠ []) :
    numberOf? 2 (bits.map bitDigit) = some (ofBitString bits) := by
  simp [numberOf?, h, digitsFrom_bitDigits, ofBitString]

theorem valueOf?_quoted {bits : List Bool} (h : bits ≠ []) :
    valueOf? ('\'' :: bits.map bitDigit ++ ['\'']) = some (ofBitString bits) := by
  simp [valueOf?, numberOf?_bitDigits h]

theorem valueOf?_binary {bits : List Bool} (h : bits ≠ []) :
    valueOf? ('0' :: 'b' :: bits.map bitDigit) = some (ofBitString bits) := numberOf?_bitDigits h

/-! ### Byte buffers (R54) -/

theorem toNat_getElem_toBytes (w v b : Nat) (hb : b < (toBytes w v).length) :
    ((toBytes w v)[b]).toNat = v / 2 ^ (8 * (byteCount w - 1 - b)) % 256 := by
  simp [toBytes, Nat.shiftRight_eq_div_pow]

theorem byteCount_mul_eight (n : Nat) : byteCount (8 * n) = n := by unfold byteCount; omega

/-- A buffer depends on the width through its length alone. -/
theorem toBytes_mul_byteCount (w v : Nat) : toBytes (8 * byteCount w) v = toBytes w v := by
  rw [toBytes, toBytes, byteCount_mul_eight]

/-- The last byte of a buffer is the low byte. -/
theorem toBytes_mul_succ (n v : Nat) :
    toBytes (8 * (n + 1)) v = toBytes (8 * n) (v / 256) ++ [BitVec.ofNat 8 v] := by
  have hbyte : ∀ b ∈ List.range n, BitVec.ofNat 8 (v >>> (8 * (n - b))) =
      BitVec.ofNat 8 ((v / 256) >>> (8 * (n - 1 - b))) := fun b hb => by
    have hb : b < n := List.mem_range.mp hb
    rw [show 8 * (n - b) = 8 + 8 * (n - 1 - b) by omega, Nat.shiftRight_add, Nat.shiftRight_eq_div_pow v 8]
  simp only [toBytes, byteCount_mul_eight, List.range_succ, List.map_append, List.map_singleton, Nat.add_sub_cancel,
    Nat.sub_self, Nat.mul_zero, Nat.shiftRight_zero]
  rw [List.map_congr_left hbyte]

theorem ofBytes_toBytes_mul {n v : Nat} (hv : v < 256 ^ n) : ofBytes (toBytes (8 * n) v) = v := by
  induction n generalizing v with
  | zero => simp [toBytes, byteCount, ofBytes]; omega
  | succ n ih =>
    rw [toBytes_mul_succ, ofBytes_append_singleton, ih (by omega), BitVec.toNat_ofNat]
    omega

theorem ofBytes_toBytes {w v : Nat} (hv : v < 2 ^ w) : ofBytes (toBytes w v) = v := by
  have hw : w ≤ 8 * byteCount w := by unfold byteCount; omega
  rw [← toBytes_mul_byteCount]
  refine ofBytes_toBytes_mul (hv.trans_le ?_)
  rw [show 256 = 2 ^ 8 from rfl, ← Nat.pow_mul]
  exact Nat.pow_le_pow_right (by decide) hw

/-- Byte 0 holds w - 8(B-1) bits of the value; the bits above them are the pad bits, and are 0. -/
theorem toNat_first_byte_lt {w v : Nat} (hv : v < 2 ^ w) (hb : 0 < (toBytes w v).length) :
    ((toBytes w v)[0]).toNat < 2 ^ (w - 8 * (byteCount w - 1)) := by
  have hw : 8 * (byteCount w - 1) ≤ w := by unfold byteCount; omega
  rw [toNat_getElem_toBytes, Nat.sub_zero]
  refine (Nat.mod_le _ _).trans_lt (Nat.div_lt_of_lt_mul ?_)
  rwa [← Nat.pow_add, Nat.add_sub_cancel' hw]

/-- Reducing a buffer's value modulo 2^w clears the pad bits of byte 0 and leaves the other bytes. -/
theorem ofBytes_cons_mod_two_pow {w : Nat} {b : Byte} {rest : List Byte} (hw : 8 * rest.length ≤ w) :
    ofBytes (b :: rest) % 2 ^ w =
      ofBytes (BitVec.ofNat 8 (b.toNat % 2 ^ (w - 8 * rest.length)) :: rest) := by
  have hsplit : 2 ^ w = 256 ^ rest.length * 2 ^ (w - 8 * rest.length) := by
    rw [show 256 = 2 ^ 8 from rfl, ← Nat.pow_mul, ← Nat.pow_add, Nat.add_sub_cancel' hw]
  have hlow := ofBytes_lt rest
  have hbyte : b.toNat % 2 ^ (w - 8 * rest.length) % 2 ^ 8 = b.toNat % 2 ^ (w - 8 * rest.length) :=
    Nat.mod_eq_of_lt ((Nat.mod_le _ _).trans_lt b.isLt)
  rw [ofBytes_cons, ofBytes_cons, BitVec.toNat_ofNat, hbyte, hsplit, Nat.mod_mul, Nat.add_comm (_ * _) (ofBytes rest),
    Nat.add_mul_mod_self_right, Nat.mod_eq_of_lt hlow, Nat.add_mul_div_right _ _ (by positivity),
    Nat.div_eq_of_lt hlow, Nat.zero_add, Nat.add_comm, Nat.mul_comm]

theorem toBytes_ofBytes_mod_two_pow {w : Nat} {b : Byte} {rest : List Byte} (h : (b :: rest).length = byteCount w) :
    toBytes w (ofBytes (b :: rest) % 2 ^ w) =
      BitVec.ofNat 8 (b.toNat % 2 ^ (w - 8 * rest.length)) :: rest := by
  have hw : 8 * rest.length ≤ w := by simp [byteCount] at h; omega
  rw [ofBytes_cons_mod_two_pow hw]
  exact toBytes_ofBytes h

/-! ### Registers through the port (spec/20_memory.md R50, R51) -/

@[simp] theorem regAt?_addrOf (r : Reg) : regAt? (addrOf r) = some r := by cases r <;> rfl

@[simp] theorem hostRead_addrOf (s : State) (r : Reg) : hostRead s (addrOf r) = readReg s r := by simp [hostRead]

theorem readReg_storeReg_same (s : State) (v : Nat) {r : Reg} (h : accessOf r = .readWrite) :
    readReg (storeReg s r v) r = v := by
  cases r <;> simp [accessOf] at h <;> rfl

theorem hostWrite_addrOf (s : State) (v : Nat) {r : Reg} (h : accessOf r = .readWrite) :
    hostWrite (addrOf r) v s = .next (storeReg s r (v % 2 ^ widthOf s.cfg r)) :=
  hostWrite_next.mpr (.inr (.inl ⟨r, regAt?_addrOf r, (by rintro rfl; cases h), rfl⟩))

/-- Settles O59: each rendering is inverted by induction on its length, and a host write stores the buffer's value
modulo 2^w, which is the value of the same buffer with its pad bits cleared. -/
theorem bitStringsAndByteBuffers : Obligations.BitStringsAndByteBuffers := by
  unfold Obligations.BitStringsAndByteBuffers
  refine ⟨fun w v => ⟨length_bitString w v, getElem_bitString w v, ofBitString_bitString⟩, by decide,
    fun c m hv _ => ?_, fun bits h => ⟨valueOf?_quoted h, valueOf?_binary h⟩, by decide,
    fun w v hv => ⟨length_toBytes w v, toNat_getElem_toBytes w v, ofBytes_toBytes hv, toNat_first_byte_lt hv⟩,
    fun s r bytes hr hlen => ⟨_, hostWrite_addrOf s _ hr, ?_, ?_⟩, by decide⟩
  · rw [take_bitString hv.degree_gen.2, codewordOf_shiftRight hv]
  · rw [hostRead_addrOf, readReg_storeReg_same _ _ hr]
  · rintro b rest rfl
    rw [hostRead_addrOf, readReg_storeReg_same _ _ hr, toBytes_ofBytes_mod_two_pow hlen]

end Sys2Proof.Machine
end

section
/-!
STATUS as the commands leave it (spec/10_state.md R30), the configuration words (R31 to R34), reset (R44) and the
configurations for which a block is built (R18).
-/

namespace Sys2Proof

/-! ### The opcode of a word that is a command (spec/30_encoding.md R67) -/

theorem noLength_ok {len : BitVec 16} {i j : Instr} : noLength len i = .ok j ↔ len = 0 ∧ i = j := by
  unfold noLength
  split
  · next h => simp [h]
  · next h => exact ⟨fun hok => (by cases hok), fun hok => absurd hok.1 h⟩

theorem opcode_of_decode {w : Word} {i : Instr} (h : decode w = .ok i) : opcodeOf? (opField w) = some i.opcode := by
  unfold decode at h
  split at h
  · cases h
  · next op hop =>
    rw [hop]
    split at h
    · cases h
    · cases op <;> simp only [noLength_ok, Except.ok.injEq] at h
      case encode | syndrome | decode => subst h; rfl
      all_goals obtain ⟨-, rfl⟩ := h; rfl

theorem byte_of_decode {w : Word} {i : Instr} (h : decode w = .ok i) : i.opcode.byte = opField w :=
  byte_of_opcodeOf (opcode_of_decode h)

end Sys2Proof

namespace Sys2Proof.Machine

/-! ### STATUS (R30) -/

theorem toNat_status_fields (st : Word) :
    (codeField st).toNat = st.toNat % 2 ^ 4 ∧ (reservedLow st).toNat = st.toNat / 2 ^ 4 % 2 ^ 4 ∧
    (lastOpField st).toNat = st.toNat / 2 ^ 8 % 2 ^ 8 ∧ (reservedHigh st).toNat = st.toNat / 2 ^ 16 := by
  have hhigh : st.toNat / 2 ^ 16 < 2 ^ 16 := by omega
  simp only [codeField, reservedLow, lastOpField, reservedHigh, BitVec.extractLsb'_toNat, Nat.shiftRight_eq_div_pow,
    Nat.pow_zero, Nat.div_one, Nat.mod_eq_of_lt hhigh, and_self]

/-- A command reports one code and its opcode, whatever STATUS held before, and neither that code nor any other register
depends on STATUS. -/
theorem exec_next_status {i : Instr} {s t : State} (h : exec i s = .next t) :
    ∃ code, ∀ st, exec i { s with status := st } = .next { t with status := statusWith st code i.opcode.byte } := by
  cases i with
  | gfAdd =>
    obtain rfl := execGfAdd_next.mp h
    exact ⟨_, fun _ => execGfAdd_next.mpr rfl⟩
  | gfMul =>
    obtain ⟨r, hr, rfl⟩ := execGfMul_next.mp h
    exact ⟨_, fun _ => execGfMul_next.mpr ⟨r, hr, rfl⟩⟩
  | gfInv =>
    obtain ⟨h0, rfl⟩ | ⟨h0, r, hr, rfl⟩ := execGfInv_next.mp h
    · exact ⟨_, fun _ => execGfInv_next.mpr (.inl ⟨h0, rfl⟩)⟩
    · exact ⟨_, fun _ => execGfInv_next.mpr (.inr ⟨h0, r, hr, rfl⟩)⟩
  | gfPow =>
    obtain rfl := execGfPow_next.mp h
    exact ⟨_, fun _ => execGfPow_next.mpr rfl⟩
  | encode len =>
    obtain ⟨hl, rfl⟩ | ⟨hl, rfl⟩ := execEncode_next.mp h
    · exact ⟨_, fun _ => execEncode_next.mpr (.inl ⟨hl, rfl⟩)⟩
    · exact ⟨_, fun _ => execEncode_next.mpr (.inr ⟨hl, rfl⟩)⟩
  | syndrome len =>
    obtain ⟨hl, y, hy, rfl⟩ | ⟨hl, rfl⟩ := execSyndrome_next.mp h
    · exact ⟨_, fun _ => execSyndrome_next.mpr (.inl ⟨hl, y, hy, rfl⟩)⟩
    · exact ⟨_, fun _ => execSyndrome_next.mpr (.inr ⟨hl, rfl⟩)⟩
  | solve =>
    obtain ⟨h0, rfl⟩ | ⟨h1, h0, rfl⟩ | ⟨h1, p, hp, rfl⟩ := execSolve_next.mp h
    · exact ⟨_, fun _ => execSolve_next.mpr (.inl ⟨h0, rfl⟩)⟩
    · exact ⟨_, fun _ => execSolve_next.mpr (.inr (.inl ⟨h1, h0, rfl⟩))⟩
    · exact ⟨_, fun _ => execSolve_next.mpr (.inr (.inr ⟨h1, p, hp, rfl⟩))⟩
  | chien =>
    obtain ⟨found, hs, ⟨hd, rfl⟩ | ⟨hd, rfl⟩⟩ := execChien_next.mp h
    · exact ⟨_, fun _ => execChien_next.mpr ⟨found, hs, .inl ⟨hd, rfl⟩⟩⟩
    · exact ⟨_, fun _ => execChien_next.mpr ⟨found, hs, .inr ⟨hd, rfl⟩⟩⟩
  | correct =>
    obtain rfl := execCorrect_next.mp h
    exact ⟨_, fun _ => execCorrect_next.mpr rfl⟩
  | decode len =>
    obtain ⟨hl, y, hy, hd⟩ | ⟨hl, rfl⟩ := execDecode_next.mp h
    · cases hd with
      | noError h0 ht =>
        subst ht
        exact ⟨_, fun _ => execDecode_next.mpr (.inl ⟨hl, y, hy, .noError h0 rfl⟩)⟩
      | singular h0 h1 ht =>
        subst ht
        exact ⟨_, fun _ => execDecode_next.mpr (.inl ⟨hl, y, hy, .singular h0 h1 rfl⟩)⟩
      | mismatch h1 p found hp hs hd ht =>
        subst ht
        exact ⟨_, fun _ => execDecode_next.mpr (.inl ⟨hl, y, hy, .mismatch h1 p found hp hs hd rfl⟩)⟩
      | corrected h1 p found hp hs hd ht =>
        subst ht
        exact ⟨_, fun _ => execDecode_next.mpr (.inl ⟨hl, y, hy, .corrected h1 p found hp hs hd rfl⟩)⟩
    · exact ⟨_, fun _ => execDecode_next.mpr (.inr ⟨hl, rfl⟩)⟩

/-- The same of every command word, refused or not. -/
theorem execute_next_status {w : Word} {s t : State} (h : execute w s = .next t) :
    ∃ code, ∀ st, execute w { s with status := st } = .next { t with status := statusWith st code (opField w) } := by
  obtain ⟨i, hw, hi⟩ | ⟨e, hw, rfl⟩ := execute_next.mp h
  · obtain ⟨code, hcode⟩ := exec_next_status hi
    refine ⟨code, fun st => ?_⟩
    rw [execute_ok _ hw, hcode, byte_of_decode hw]
  · exact ⟨.illegalCommand, fun st => execute_error _ hw⟩

/-! ### Registers the host cannot write (spec/20_memory.md R49, R51) -/

theorem storeReg_of_not_readWrite (s : State) (v : Nat) {r : Reg} (h : accessOf r ≠ .readWrite) :
    storeReg s r v = s := by
  cases r <;> simp [accessOf] at h <;> rfl

theorem hostWrite_addrOf_of_not_writable (s : State) (v : Nat) {r : Reg} (hcmd : r ≠ .cmd)
    (h : accessOf r ≠ .readWrite) : hostWrite (addrOf r) v s = .next s :=
  hostWrite_next.mpr (.inr (.inl ⟨r, regAt?_addrOf r, hcmd, (storeReg_of_not_readWrite s _ h).symm⟩))

/-- Settles O7: a command word's next state is the same, but for STATUS, from every STATUS, and STATUS is then
`statusWith` of one code and the word's OP. -/
theorem everyCommandReportsInStatus : Obligations.EveryCommandReportsInStatus := by
  unfold Obligations.EveryCommandReportsInStatus
  refine ⟨toNat_status_fields, fun w s t h => ?_, fun s hs => ?_,
    fun s v => hostWrite_addrOf_of_not_writable s v (r := .status) (by decide) (by decide), fun _ => rfl⟩
  · obtain ⟨code, hcode⟩ := execute_next_status h
    have ht : t.status = statusWith s.status code (opField w) :=
      congrArg State.status (Host.Outcome.next.inj (h.symm.trans (hcode s.status)))
    have hcodeOf : ∀ u : State, ∀ st, u.status = statusWith st code (opField w) → codeOf u = code.value.toNat :=
      fun u st hu => by simp [codeOf, hu]
    rw [hcodeOf t _ ht]
    exact ⟨code.value_le, by simp [ht, opField], by simp [ht], by simp [ht], fun st => ⟨_, hcode st, hcodeOf _ st rfl⟩⟩
  · obtain ⟨-, -, -, hlow, hhigh⟩ := hs
    obtain ⟨-, hlowNat, -, hhighNat⟩ := toNat_status_fields s.status
    have hread : hostRead s 0x01 = s.status.toNat := hostRead_addrOf s .status
    rw [hread, ← hlowNat, ← hhighNat, hlow, hhigh]
    exact ⟨rfl, rfl⟩

/-! ### The configuration words (R31 to R34) -/

/-- The addresses 0x02 to 0x05 are those of registers whose access is R, C. -/
theorem exists_constant_of_mem_cfgAddrs {a : Addr} (h : a ∈ [(0x02 : Addr), 0x03, 0x04, 0x05]) :
    ∃ r, accessOf r = .constant ∧ a = addrOf r := by
  simp only [List.mem_cons, List.not_mem_nil, or_false] at h
  obtain rfl | rfl | rfl | rfl := h
  · exact ⟨.cfgMt, rfl, rfl⟩
  · exact ⟨.cfgNk, rfl, rfl⟩
  · exact ⟨.cfgPrim, rfl, rfl⟩
  · exact ⟨.cfgGen, rfl, rfl⟩

/-- A constant register is a function of the configuration. -/
theorem readReg_constant_congr {s t : State} (hcfg : t.cfg = s.cfg) {r : Reg} (h : accessOf r = .constant) :
    readReg t r = readReg s r := by
  cases r <;> simp [accessOf] at h <;> simp [readReg, hcfg]

theorem hostRead_cfgAddr_congr {s t : State} (hcfg : t.cfg = s.cfg) {a : Addr}
    (h : a ∈ [(0x02 : Addr), 0x03, 0x04, 0x05]) : hostRead t a = hostRead s a := by
  obtain ⟨r, hr, rfl⟩ := exists_constant_of_mem_cfgAddrs h
  rw [hostRead_addrOf, hostRead_addrOf, readReg_constant_congr hcfg hr]

/-- Two fields that do not overlap are added. -/
theorem or_shiftLeft_eq_add {a k : Nat} (h : a < 2 ^ k) (b : Nat) : a ||| b <<< k = b * 2 ^ k + a := by
  rw [Nat.or_comm, ← Nat.shiftLeft_add_eq_or_of_lt h, Nat.shiftLeft_eq]

theorem cfgMtOf_eq {c : Config} (hv : Valid c) : cfgMtOf c = c.t * 2 ^ 8 + c.m :=
  or_shiftLeft_eq_add (by have := hv.fieldOk.range; omega) _

theorem Valid.q_lt {c : Config} (hv : Valid c) : c.q < 2 ^ 16 := by
  have hq := hv.fieldOk.q_succ
  have hpow : 2 ^ c.m ≤ 2 ^ 16 := Nat.pow_le_pow_right (by decide) hv.fieldOk.range.2
  omega

theorem cfgNkOf_eq {c : Config} (hv : Valid c) : cfgNkOf c = c.k * 2 ^ 16 + c.n :=
  or_shiftLeft_eq_add (hv.chkN.2.trans_lt hv.q_lt) _

theorem Valid.prim_lt {c : Config} (hv : Valid c) : c.prim < 2 ^ 17 := by
  have hm := hv.fieldOk.range
  exact hv.fieldOk.prim.2.trans_le (Nat.pow_le_pow_right (by decide) (by omega))

/-- The constant term of a binary polynomial is its value at 0. -/
theorem evalAt_at_zero {F : Type} [CommRing F] {w : Nat} (hw : 0 < w) (v : Nat) :
    evalAt (0 : F) w v = if v.testBit 0 then 1 else 0 := by
  unfold evalAt
  rw [Finset.sum_eq_single 0]
  · simp
  · intro j _ hj
    simp [hj]
  · intro h
    exact absurd (Finset.mem_range.mpr hw) h

/-- 0 is no root of G, a product of factors x + α^j, so its constant term is 1. -/
theorem Valid.gen_testBit_zero {c : Config} (hv : Valid c) : c.g.testBit 0 = true := by
  let := gfField hv.fieldOk
  obtain ⟨ks, hroots, -⟩ := hv.generator
  have heval := hroots.eval 0 (degree c.g + 1) (lt_two_pow_degree c.g)
  have hprod : (ks.map fun j => 0 + gfExp hv.fieldOk j).prod ≠ 0 := by
    simp [List.prod_eq_zero_iff, gfExp_ne_zero]
  rw [← heval, evalAt_at_zero (Nat.succ_pos _)] at hprod
  by_contra hbit
  exact hprod (if_neg hbit)

/-- Settles O13: the fields of each word do not overlap within the ranges a valid configuration has, and G is a product
of monic factors with nonzero constant terms, of degree N - K. -/
theorem configurationWordsHoldTheirFields : Obligations.ConfigurationWordsHoldTheirFields := by
  unfold Obligations.ConfigurationWordsHoldTheirFields
  have hread : ∀ s : State, hostRead s 0x02 = cfgMtOf s.cfg ∧ hostRead s 0x03 = cfgNkOf s.cfg ∧
      hostRead s 0x04 = s.cfg.prim ∧ hostRead s 0x05 = s.cfg.g := fun s =>
    ⟨hostRead_addrOf s .cfgMt, hostRead_addrOf s .cfgNk, hostRead_addrOf s .cfgPrim, hostRead_addrOf s .cfgGen⟩
  refine ⟨fun s hv => ?_, fun s v a ha => ?_, fun s hs => ?_⟩
  · obtain ⟨hmt, hnk, hprim, hgen⟩ := hread s
    have hm := hv.fieldOk.range
    have ht := hv.chkT
    have hn := hv.chkN.2.trans_lt hv.q_lt
    obtain ⟨hdeg, hkn⟩ := hv.degree_gen
    have hp := hv.prim_lt
    rw [hmt, hnk, hprim, cfgMtOf_eq hv, cfgNkOf_eq hv, ← hdeg]
    refine ⟨by omega, by omega, by omega, by omega, by omega, by omega, by omega, by omega, by omega, hgen,
      by rw [hdeg]; rfl, lt_two_pow_degree _, testBit_degree hv.gen_ne_zero, hv.gen_testBit_zero⟩
  · obtain ⟨r, hr, rfl⟩ := exists_constant_of_mem_cfgAddrs ha
    exact hostWrite_addrOf_of_not_writable s v (by rintro rfl; cases hr) (by simp [hr])
  · obtain ⟨hmt, hnk, hprim, hgen⟩ := hread s
    rw [hmt, hnk, hprim, hgen, hs]
    decide

/-! ### Reset and build (R18, R44) -/

/-- Settles O15: the reset event clears every register, and the constants follow the configuration it keeps. -/
theorem resetSetsEveryStoredRegister : Obligations.ResetSetsEveryStoredRegister := by
  unfold Obligations.ResetSetsEveryStoredRegister
  intro s rest hc hp
  refine ⟨resetEvent { s with program := rest }, step_of_program hc hp, rfl, rfl, rfl, rfl, rfl, rfl, rfl, rfl, rfl,
    rfl, rfl, rfl, rfl, rfl, rfl, rfl, rfl, rfl, hostRead_addrOf _ .sigdeg, rfl, fun a ha => ?_, fun _ => rfl,
    fun _ => rfl⟩
  exact hostRead_cfgAddr_congr (resetEvent_cfg _) ha

/-- What `build` answers, by the two groups of checks (log entry 14). -/
theorem build_eq (c : Config) : build c =
    if ¬ (ChkMRange c ∧ ChkPrimDegree c ∧ ChkPrimPrimitive c) then .error .invalidField
    else if ¬ (ChkT c ∧ ChkNRange c ∧ ChkGenEq c ∧ ChkGenDegree c) then .error .configurationError
    else .ok (State.resetOf c) := by
  unfold build
  rw [refusalOf_eq]
  split_ifs <;> rfl

/-- Settles O16, by whether each of the two groups of checks passes. -/
theorem onlyValidConfigurationsAreBuilt : Obligations.OnlyValidConfigurationsAreBuilt := by
  unfold Obligations.OnlyValidConfigurationsAreBuilt
  intro c fieldOk codeOk
  have hbuild : build c = if ¬ fieldOk then .error .invalidField
      else if ¬ codeOk then .error .configurationError else .ok (State.resetOf c) := build_eq c
  rw [hbuild]
  by_cases hfield : fieldOk
  · by_cases hcode : codeOk <;> simp [*]
  · simp [*]

end Sys2Proof.Machine
end

section
/-!
The port address by address (spec/20_memory.md R49 to R51): an address either names one register of R28 or is unmapped,
and the host reads and writes through that register.
-/

namespace Sys2Proof.Machine

/-! ### Which register an address names (R47, R49) -/

/-- The address map of R28 is read back without loss: `regAt?` and `addrOf` are inverse to each other. -/
theorem regAt?_eq_some {a : Addr} {r : Reg} : regAt? a = some r ↔ a = addrOf r := by
  have hmap : ∀ a : Addr, ∀ r ∈ regAt? a, a = addrOf r := by decide
  exact ⟨hmap a r, fun h => h ▸ regAt?_addrOf r⟩

theorem hostRead_of_unmapped (s : State) {a : Addr} (h : regAt? a = none) : hostRead s a = 0 := by simp [hostRead, h]

theorem hostWrite_of_unmapped (s : State) (v : Nat) {a : Addr} (h : regAt? a = none) : hostWrite a v s = .next s :=
  hostWrite_next.mpr (.inr (.inr ⟨h, rfl⟩))

/-- No register of R28 has its address in the four gaps of the map. -/
theorem regAt?_eq_none_of_gap {a : Addr} (h : (5 < a.toNat ∧ a.toNat < 0x10) ∨ (0x13 < a.toNat ∧ a.toNat < 0x20) ∨
    (0x29 < a.toNat ∧ a.toNat < 0x30) ∨ 0x33 < a.toNat) : regAt? a = none := by
  refine Option.eq_none_iff_forall_ne_some.mpr fun r hr => ?_
  obtain rfl := regAt?_eq_some.mp hr
  revert h
  cases r <;> decide

/-! ### The host's accesses (R50, R51) -/

/-- Settles O10: the map has a register at each of the 24 addresses and none in the gaps between them, and a read adds
to what the host has read and to nothing else. -/
theorem hostReadAnswersTheRegister : Obligations.HostReadAnswersTheRegister := by
  unfold Obligations.HostReadAnswersTheRegister
  refine ⟨fun s => ?_, fun s a ha => hostRead_of_unmapped s (regAt?_eq_none_of_gap ha),
    fun s a rest hc hp => ⟨observe { s with program := rest } a, step_of_program hc hp, rfl⟩⟩
  have hread := hostRead_addrOf s
  exact ⟨hread .cmd, hread .status, hread .cfgMt, hread .cfgNk, hread .cfgPrim, hread .cfgGen, hread .msg, hread .cw,
    hread .rx, hread .corr, hread .syn1, hread .syn2, hread .syn3, hread .syn4, hread .det, hread .sigma1,
    hread .sigma2, hread .sigdeg, hread .errmask, hread .errcnt, hread .gfA, hread .gfB, hread .gfI, hread .gfR⟩

/-- A write to CMD executes the value's low 32 bits. -/
theorem hostWrite_cmd (s : State) (v : Nat) :
    hostWrite (addrOf .cmd) v s = execute (BitVec.ofNat 32 (v % 2 ^ 32)) s := by
  have hword : BitVec.ofNat 32 (v % 2 ^ 32) = BitVec.ofNat 32 v := BitVec.eq_of_toNat_eq (by simp)
  rw [hword]
  rfl

/-- The registers a write can act on, CMD and those of access RW, are at these 13 addresses. -/
theorem toNat_addrOf_mem_of_writable {r : Reg} (h : r = .cmd ∨ accessOf r = .readWrite) :
    (addrOf r).toNat ∈ [0x00, 0x10, 0x12, 0x20, 0x21, 0x22, 0x23, 0x25, 0x26, 0x28, 0x30, 0x31, 0x32] := by
  revert h
  cases r <;> decide

/-- Settles O11: the 13 addresses are those of CMD and of the RW registers, and a write to any other address meets an
unmapped address or a register the host cannot write. -/
theorem hostWriteStoresModuloTheWidth : Obligations.HostWriteStoresModuloTheWidth := by
  unfold Obligations.HostWriteStoresModuloTheWidth
  refine ⟨fun s v => ?_, fun s a v ha => ?_⟩
  · have hwrite := fun r => hostWrite_addrOf s v (r := r)
    exact ⟨hostWrite_cmd s v, hwrite .msg rfl, hwrite .rx rfl, hwrite .syn1 rfl, hwrite .syn2 rfl, hwrite .syn3 rfl,
      hwrite .syn4 rfl, hwrite .sigma1 rfl, hwrite .sigma2 rfl, hwrite .errmask rfl, hwrite .gfA rfl, hwrite .gfB rfl,
      hwrite .gfI rfl⟩
  · cases hreg : regAt? a with
    | none => exact hostWrite_of_unmapped s v hreg
    | some r =>
      obtain rfl := regAt?_eq_some.mp hreg
      exact hostWrite_addrOf_of_not_writable s v (fun h => ha (toNat_addrOf_mem_of_writable (.inl h)))
        (fun h => ha (toNat_addrOf_mem_of_writable (.inr h)))

end Sys2Proof.Machine
end

section
/-!
Acceptance of a command word (spec/30_encoding.md R64 to R69, R74): which words are commands, with which opcode and
length, what a refused word does to STATUS, and the words the ten mnemonics stand for.
-/

namespace Sys2Proof

open Machine (assignedOps lengthOps pseudoLen)

/-! ### The fields of a word (R64) -/

theorem toNat_word_fields (w : Word) :
    (opField w).toNat = w.toNat % 2 ^ 8 ∧ (rsvField w).toNat = w.toNat / 2 ^ 8 % 2 ^ 8 ∧
    (lenField w).toNat = w.toNat / 2 ^ 16 % 2 ^ 16 := by
  simp [opField, rsvField, lenField, BitVec.extractLsb'_toNat, Nat.shiftRight_eq_div_pow]

theorem toNat_commandWord (len : BitVec 16) (op : Opcode) :
    (commandWord len op).toNat = len.toNat <<< 16 ||| op.byte.toNat := by
  have hhigh : (len ++ (0 : Byte)).toNat = len.toNat <<< 8 :=
    (BitVec.toNat_append len (0 : Byte)).trans (Nat.or_zero _)
  refine (BitVec.toNat_append (len ++ (0 : Byte)) op.byte).trans ?_
  rw [hhigh, ← Nat.shiftLeft_add]

/-! ### Which words are commands (R66, R67) -/

theorem Opcode.byte_mem_assignedOps (op : Opcode) : op.byte ∈ assignedOps := by cases op <;> decide

theorem Opcode.byte_injective : Function.Injective Opcode.byte := fun a b h =>
  Option.some.inj (by rw [← opcodeOf_byte a, h, opcodeOf_byte])

theorem opcodeOf?_eq_none_iff {b : Byte} : opcodeOf? b = none ↔ b ∉ assignedOps := by
  revert b
  decide

theorem noLength_error {len : BitVec 16} {i : Instr} : (∃ e, noLength len i = .error e) ↔ len ≠ 0 := by
  unfold noLength
  split
  · next h => simp [h]
  · next h => exact iff_of_true ⟨_, rfl⟩ h

/-- The words that name no command: an unassigned OP, a nonzero RSV, or a nonzero LEN on an OP that takes none. -/
theorem decode_error_iff {w : Word} : (∃ e, decode w = .error e) ↔
    opField w ∉ assignedOps ∨ rsvField w ≠ 0 ∨ (opField w ∉ lengthOps ∧ lenField w ≠ 0) := by
  unfold decode
  split
  · next hop => exact iff_of_true ⟨_, rfl⟩ (.inl (opcodeOf?_eq_none_iff.mp hop))
  · next op hop =>
    rw [← byte_of_opcodeOf hop]
    split
    · next hrsv => exact iff_of_true ⟨_, rfl⟩ (.inr (.inl hrsv))
    · next hrsv =>
      rw [or_iff_right (not_not.mpr op.byte_mem_assignedOps), or_iff_right hrsv]
      cases op with
      | encode | syndrome | decode => exact iff_of_false (by rintro ⟨_, ⟨⟩⟩) fun h => h.1 (by decide)
      | _ => exact noLength_error.trans (and_iff_right (by decide)).symm

theorem len_of_decode {w : Word} {i : Instr} (h : decode w = .ok i) : i.len = lenField w := by
  unfold decode at h
  split at h
  · cases h
  · next op hop =>
    split at h
    · cases h
    · cases op <;> simp only [noLength_ok, Except.ok.injEq] at h
      case encode | syndrome | decode => subst h; rfl
      all_goals obtain ⟨hlen, rfl⟩ := h; exact hlen.symm

/-- Every other word is the command of its OP, with its LEN. -/
theorem decode_ok_of_fields {w : Word} (hop : opField w ∈ assignedOps) (hrsv : rsvField w = 0)
    (hlen : opField w ∈ lengthOps ∨ lenField w = 0) :
    ∃ i, decode w = .ok i ∧ i.opcode.byte = opField w ∧ i.len = lenField w := by
  cases hw : decode w with
  | ok i => exact ⟨i, rfl, byte_of_decode hw, len_of_decode hw⟩
  | error e =>
    obtain h | h | ⟨h, h0⟩ := decode_error_iff.mp ⟨e, hw⟩
    · exact absurd hop h
    · exact absurd hrsv h
    · exact absurd hlen (not_or.mpr ⟨h, h0⟩)

/-! ### The length a command needs (R65, R67) -/

/-- A command is well-formed exactly when its opcode takes no length or its LEN is the one R74 fills in. -/
theorem wellFormed_iff {c : Config} {i : Instr} :
    i.wellFormed c = true ↔ (i.opcode.byte ∈ lengthOps → i.len.toNat = pseudoLen c i.opcode) := by
  cases i with
  | encode len | syndrome len | decode len =>
    simp [Instr.wellFormed, Instr.neededLen, Instr.len, Instr.opcode, Opcode.byte, pseudoLen, lengthOps]
  | _ => simp [Instr.wellFormed, Instr.neededLen, Instr.opcode, Opcode.byte, lengthOps]

theorem pseudoLen_eq_of_mem_lengthOps {c : Config} {op : Opcode} (h : op.byte ∈ lengthOps) :
    pseudoLen c op = if op.byte.toNat = 0x10 then c.k else c.n := by
  cases op with
  | encode | syndrome | decode => simp [pseudoLen, Opcode.byte]
  | _ => exact absurd h (by decide)

theorem pseudoLen_eq_zero_of_not_mem_lengthOps {c : Config} {op : Opcode} (h : op.byte ∉ lengthOps) :
    pseudoLen c op = 0 := by
  cases op with
  | encode | syndrome | decode => exact absurd (by decide) h
  | _ => rfl

end Sys2Proof

namespace Sys2Proof.Machine

/-! ### Refused words (R68, R69) -/

theorem EndsAs.of_finish (code : ResultCode) (op : Byte) (s : State) :
    EndsAs (.next (finish code op s)) s code.value.toNat op :=
  ⟨_, rfl, rfl, codeOf_finish code op s, by simp, by simp, by simp⟩

theorem execute_endsAs_of_error {w : Word} {e : IllegalWord} (s : State) (h : decode w = .error e) :
    EndsAs (execute w s) s 5 (opField w) := by
  rw [execute_error s h]
  exact EndsAs.of_finish .illegalCommand _ s

theorem exec_of_not_wellFormed {i : Instr} {s : State} (h : i.wellFormed s.cfg = false) :
    exec i s = done .invalidLength i.opcode s := by
  cases i with
  | encode len | syndrome len | decode len =>
    exact withLength_ne (by simpa [Instr.wellFormed, Instr.neededLen, Instr.len] using h)
  | _ => cases h

theorem exec_endsAs_of_not_wellFormed {i : Instr} {s : State} (h : i.wellFormed s.cfg = false) :
    EndsAs (exec i s) s 1 i.opcode.byte := by
  rw [exec_of_not_wellFormed h]
  exact EndsAs.of_done .invalidLength _ s

/-- Where the reserved bits of STATUS are 0, a command leaves only CODE and LAST_OP in it. -/
theorem statusWith_of_legal {st : Word} (h : StatusLegal st) (code : ResultCode) (op : Byte) :
    statusWith st code op = (0 : BitVec 16) ++ op ++ (0 : BitVec 4) ++ code.value := by
  obtain ⟨-, hlow, hhigh⟩ := h
  rw [statusWith, hlow, hhigh]

/-- Settles O5: a word that decodes to no command ends with `finish`, which writes two fields of STATUS, and where the
other fields are 0 these two are the word the rule states. -/
theorem illegalCommandChangesOnlyStatus : Obligations.IllegalCommandChangesOnlyStatus := by
  unfold Obligations.IllegalCommandChangesOnlyStatus
  have hwrite : ∀ (v : Nat) (s : State), StatusLegal s.status → decode (BitVec.ofNat 32 v) = .error .unassignedOp →
      ∃ t, hostWrite 0x00 v s = .next t ∧
        t.status = (0 : BitVec 16) ++ opField (BitVec.ofNat 32 v) ++ (0 : BitVec 4) ++ (5 : BitVec 4) :=
    fun v s hs hw => ⟨_, execute_error s hw, statusWith_of_legal hs .illegalCommand _⟩
  exact ⟨fun w s e hw => execute_endsAs_of_error s hw, fun s hs => hwrite 0x00000000 s hs (by decide),
    fun s hs => hwrite 0x00000105 s hs (by decide)⟩

/-- Settles O6: a command with another LEN than it needs is `done` with INVALID_LENGTH before it reads a register. -/
theorem invalidLengthChangesOnlyStatus : Obligations.InvalidLengthChangesOnlyStatus := by
  unfold Obligations.InvalidLengthChangesOnlyStatus
  refine ⟨fun i s h => exec_endsAs_of_not_wellFormed h, fun s hk hs => ?_⟩
  have hword : decode 0x00080010 = .ok (.encode 8) := by decide
  have hlen : (Instr.encode 8).wellFormed s.cfg = false := by simp [Instr.wellFormed, Instr.neededLen, Instr.len, hk]
  exact ⟨_, (execute_ok s hword).trans (exec_of_not_wellFormed hlen), statusWith_of_legal hs .invalidLength 0x10, rfl⟩

/-! ### The acceptance checks (R67) -/

theorem mem_assignedOps_iff {b : Byte} :
    b ∈ assignedOps ↔ b.toNat ∈ [0x01, 0x02, 0x03, 0x04, 0x10, 0x20, 0x21, 0x22, 0x23, 0x30] := by
  simp [assignedOps, ← BitVec.toNat_inj]

theorem mem_lengthOps_iff {b : Byte} : b ∈ lengthOps ↔ b.toNat ∈ [0x10, 0x20, 0x30] := by
  simp [lengthOps, ← BitVec.toNat_inj]

theorem mem_assignedOps_of_mem_lengthOps {b : Byte} (h : b ∈ lengthOps) : b ∈ assignedOps := by
  revert b
  decide

theorem execute_endsAs_illegalCommand {w : Word} (s : State)
    (h : opField w ∉ assignedOps ∨ rsvField w ≠ 0 ∨ (opField w ∉ lengthOps ∧ lenField w ≠ 0)) :
    EndsAs (execute w s) s 5 (opField w) := by
  obtain ⟨e, he⟩ := decode_error_iff.mpr h
  exact execute_endsAs_of_error s he

theorem execute_endsAs_invalidLength {w : Word} {s : State} (hop : opField w ∈ lengthOps) (hrsv : rsvField w = 0)
    (hlen : (lenField w).toNat ≠ if (opField w).toNat = 0x10 then s.cfg.k else s.cfg.n) :
    EndsAs (execute w s) s 1 (opField w) := by
  obtain ⟨i, hi, hbyte, hilen⟩ := decode_ok_of_fields (mem_assignedOps_of_mem_lengthOps hop) hrsv (.inl hop)
  rw [← hbyte] at hop hlen ⊢
  rw [← hilen, ← pseudoLen_eq_of_mem_lengthOps hop] at hlen
  have hwf : i.wellFormed s.cfg = false := Bool.eq_false_iff.mpr fun h => hlen (wellFormed_iff.mp h hop)
  rw [execute_ok s hi]
  exact exec_endsAs_of_not_wellFormed hwf

/-- Settles O4: the fields of v are those of its word, the three illegal kinds of word are those that decode to no
command, and any other word is the command of its OP and LEN, which ends with INVALID_LENGTH where it is ill-formed. -/
theorem acceptanceChecksInOrder : Obligations.AcceptanceChecksInOrder := by
  unfold Obligations.AcceptanceChecksInOrder
  intro s v op rsv len assigned takesLength need o
  obtain ⟨w, ho, hw⟩ : ∃ w : Word, o = execute w s ∧ w.toNat = v % 2 ^ 32 :=
    ⟨_, hostWrite_cmd s v, by simp⟩
  obtain ⟨hop, hrsv, hlen⟩ := toNat_word_fields w
  replace hop : (opField w).toNat = op := by omega
  replace hrsv : (rsvField w).toNat = rsv := by omega
  replace hlen : (lenField w).toNat = len := by omega
  have hbyte : opField w = BitVec.ofNat 8 op := by rw [← hop, BitVec.ofNat_toNat, BitVec.setWidth_eq]
  have hassigned : assigned ↔ opField w ∈ assignedOps := by rw [mem_assignedOps_iff, hop]
  have htakes : takesLength ↔ opField w ∈ lengthOps := by rw [mem_lengthOps_iff, hop]
  have hrsv0 : rsv = 0 ↔ rsvField w = 0 := by rw [← hrsv]; exact BitVec.toNat_inj (y := 0)
  have hlen0 : len = 0 ↔ lenField w = 0 := by rw [← hlen]; exact BitVec.toNat_inj (y := 0)
  rw [hassigned, htakes, ho, ← hbyte]
  refine ⟨fun h => execute_endsAs_illegalCommand s (.inl h),
    fun _ h => execute_endsAs_illegalCommand s (.inr (.inl (hrsv0.not.mp h))),
    fun h h0 hl => execute_endsAs_invalidLength h (hrsv0.mp h0) (by rwa [hlen, hop]),
    fun _ h _ hl => execute_endsAs_illegalCommand s (.inr (.inr ⟨h, hlen0.not.mp hl⟩)), fun h h0 _ hl => ?_⟩
  obtain ⟨i, hi, hibyte, hilen⟩ := decode_ok_of_fields h (hrsv0.mp h0)
    (or_iff_not_imp_left.mpr fun hn => hlen0.mp (hl hn))
  exact ⟨i, by rw [hibyte, hop], by rw [hilen, hlen], execute_ok s hi⟩

/-! ### The mnemonics (R74) -/

theorem assembleLine_mnemonic (c : Config) (op : Opcode) :
    assembleLine c (mnemonicOf op).toList = some (commandLine c op) := by
  have htokens : tokensOf (mnemonicOf op).toList = [(mnemonicOf op).toList] := by cases op <;> decide
  have hreset : (mnemonicOf op).toList ≠ ['R', 'E', 'S', 'E', 'T'] := by cases op <;> decide
  have hopcode : opcodeNamed? (mnemonicOf op).toList = some op := by cases op <;> decide
  simp only [assembleLine, htokens, bareLine?, if_neg hreset, hopcode, Option.map_some]

theorem Valid.pseudoLen_lt {c : Config} (hv : Valid c) (op : Opcode) : pseudoLen c op < 2 ^ 16 := by
  obtain ⟨-, hn⟩ := hv.chkN
  obtain ⟨-, hk⟩ := hv.degree_gen
  have hq := hv.q_lt
  unfold pseudoLen
  split <;> omega

theorem toNat_pseudoWord {c : Config} (hv : Valid c) (op : Opcode) :
    (pseudoWord c op).toNat = pseudoLen c op <<< 16 ||| op.byte.toNat := by
  rw [pseudoWord, toNat_commandWord, BitVec.toNat_ofNat, Nat.mod_eq_of_lt (hv.pseudoLen_lt op)]

theorem toNat_pseudoWord_of_not_mem_lengthOps (c : Config) {op : Opcode} (h : op.byte ∉ lengthOps) :
    (pseudoWord c op).toNat = op.byte.toNat := by
  rw [pseudoWord, toNat_commandWord, pseudoLen_eq_zero_of_not_mem_lengthOps h]
  simp

/-- The word of a mnemonic is a command of that opcode, with the length it needs. -/
theorem decode_pseudoWord {c : Config} (hv : Valid c) (op : Opcode) :
    ∃ i, decode (pseudoWord c op) = .ok i ∧ i.opcode = op ∧ i.wellFormed c = true := by
  obtain ⟨hop, hrsv, hlen⟩ : opField (pseudoWord c op) = op.byte ∧ rsvField (pseudoWord c op) = 0 ∧
    lenField (pseudoWord c op) = BitVec.ofNat 16 (pseudoLen c op) := commandWord_fields _ op
  have htakes : opField (pseudoWord c op) ∈ lengthOps ∨ lenField (pseudoWord c op) = 0 := by
    rw [hop, hlen]
    exact or_iff_not_imp_left.mpr fun h => by rw [pseudoLen_eq_zero_of_not_mem_lengthOps h]; rfl
  obtain ⟨i, hi, hbyte, hilen⟩ := decode_ok_of_fields (hop ▸ op.byte_mem_assignedOps) hrsv htakes
  obtain rfl : i.opcode = op := Opcode.byte_injective (hbyte.trans hop)
  refine ⟨i, hi, rfl, wellFormed_iff.mpr fun _ => ?_⟩
  rw [hilen, hlen, BitVec.toNat_ofNat, Nat.mod_eq_of_lt (hv.pseudoLen_lt _)]

/-- Settles O3: every mnemonic's word is its length and its opcode's byte, and its text is one token that names its
opcode. -/
theorem mnemonicsExpandToCommandWords : Obligations.MnemonicsExpandToCommandWords := by
  unfold Obligations.MnemonicsExpandToCommandWords
  refine ⟨fun c hv => ?_, fun c => ?_, fun c hk => ?_, fun c hn => ?_⟩
  · have hword := toNat_pseudoWord hv
    have hplain := fun op => toNat_pseudoWord_of_not_mem_lengthOps c (op := op)
    exact ⟨hplain .gfAdd (by decide), hplain .gfMul (by decide), hplain .gfInv (by decide), hplain .gfPow (by decide),
      hword .encode, hword .syndrome, hplain .solve (by decide), hplain .chien (by decide), hplain .correct (by decide),
      hword .decode, fun op => ⟨rfl, decode_pseudoWord hv op⟩⟩
  · have hline := assembleLine_mnemonic c
    exact ⟨hline .gfAdd, hline .gfMul, hline .gfInv, hline .gfPow, hline .encode, hline .syndrome, hline .solve,
      hline .chien, hline .correct, hline .decode⟩
  · rw [pseudoWord, pseudoLen, hk]
    rfl
  · simp only [pseudoWord, pseudoLen, hn]
    exact ⟨rfl, rfl⟩

end Sys2Proof.Machine
end

section
/-!
The field commands (spec/40_gf2m_arith.md R81 to R84): each reports OK with one value in GF_R, but for GF_INV on 0; and
the field laws (R85), which are those of the library's `Field` on the field elements.
-/

namespace Sys2Proof

/-- An opcode without a length has one command. -/
theorem Instr.eq_of_opcode {i j : Instr} (hj : j.opcode.byte ∉ Machine.lengthOps) (h : i.opcode = j.opcode) :
    i = j := by
  cases j with
  | encode len | syndrome len | decode len => simp [Instr.opcode, Opcode.byte, Machine.lengthOps] at hj
  | _ =>
    cases i <;> cases h
    rfl

end Sys2Proof

namespace Sys2Proof.Machine

/-! ### The field functions on field elements (R78, R79) -/

theorem mulVal_one_left {c : Config} (h : FieldOk c) {a : Nat} (ha : a < 2 ^ c.m) : mulVal c 1 a = a :=
  (mulVal_comm h (expEntry_lt h 0) ha).trans (mulVal_one h ha)

theorem invVal_one {c : Config} (h : FieldOk c) : invVal c 1 = 1 := by
  have hone : 1 < 2 ^ c.m := expEntry_lt h 0
  exact (mulVal_one_left h (invVal_lt h hone)).symm.trans (mulVal_invVal h one_ne_zero hone)

/-- The product of two nonzero field elements is the EXP entry at the sum of their logarithms modulo Q (R78). -/
theorem mulVal_eq_expEntry {c : Config} (h : FieldOk c) {a b : Nat} (ha0 : a ≠ 0) (hb0 : b ≠ 0) (ha : a < 2 ^ c.m)
    (hb : b < 2 ^ c.m) :
    ∃ i < c.q, ∃ j < c.q, expEntry c i = a ∧ expEntry c j = b ∧ mulVal c a b = expEntry c ((i + j) % c.q) := by
  obtain ⟨i, hi, rfl⟩ := exists_expEntry h ha0 ha
  obtain ⟨j, hj, rfl⟩ := exists_expEntry h hb0 hb
  exact ⟨i, hi, j, hj, rfl, rfl, by rw [mulVal_expEntry h, expEntry_mod h]⟩

/-- The inverse of a nonzero field element is the EXP entry at Q minus its logarithm, modulo Q (R79). -/
theorem invVal_eq_expEntry {c : Config} (h : FieldOk c) {a : Nat} (h0 : a ≠ 0) (ha : a < 2 ^ c.m) :
    ∃ i < c.q, expEntry c i = a ∧ invVal c a = expEntry c ((c.q - i) % c.q) := by
  obtain ⟨i, hi, rfl⟩ := exists_expEntry h h0 ha
  exact ⟨i, hi, rfl, by rw [invVal, gfInv_expEntry h hi, expEntry_mod h]⟩

/-! ### How the field commands end (R16) -/

theorem execGfAdd_endsAs (s : State) : EndsAs (exec .gfAdd s) { s with gfR := gfAdd s.gfA s.gfB } 0 0x01 :=
  EndsAs.of_done .ok .gfAdd _

theorem execGfMul_endsAs {s : State} {r : Nat} (h : gfMul s.cfg s.gfA s.gfB = .ok r) :
    EndsAs (exec .gfMul s) { s with gfR := r } 0 0x02 := by
  rw [execGfMul_next.mpr ⟨r, h, rfl⟩]
  exact EndsAs.of_finish .ok 0x02 _

theorem execGfInv_endsAs_divisionByZero {s : State} (h : s.gfA = 0) : EndsAs (exec .gfInv s) s 2 0x03 := by
  rw [execGfInv_next.mpr (.inl ⟨h, rfl⟩)]
  exact EndsAs.of_finish .divisionByZero 0x03 s

theorem execGfInv_endsAs {s : State} {r : Nat} (h0 : s.gfA ≠ 0) (h : gfInv s.cfg s.gfA = .ok r) :
    EndsAs (exec .gfInv s) { s with gfR := r } 0 0x03 := by
  rw [execGfInv_next.mpr (.inr ⟨h0, r, h, rfl⟩)]
  exact EndsAs.of_finish .ok 0x03 _

theorem execGfPow_endsAs (s : State) : EndsAs (exec .gfPow s) { s with gfR := gfPow s.cfg s.gfI } 0 0x04 :=
  EndsAs.of_done .ok .gfPow _

/-- A word written to CMD with the OP of a command that takes no length runs that command or is illegal (R67, R68). -/
theorem exec_or_illegal_of_op {i : Instr} (hi : i.opcode.byte ∉ lengthOps) {s t : State} {v : Nat}
    (hv : v % 2 ^ 8 = i.opcode.byte.toNat) (h : hostWrite 0x00 v s = .next t) : exec i s = .next t ∨ codeOf t = 5 := by
  obtain ⟨j, hw, hj⟩ | ⟨e, -, rfl⟩ := execute_next.mp ((hostWrite_cmd s v).symm.trans h)
  · have hop : j.opcode = i.opcode := by
      refine Opcode.byte_injective ((byte_of_decode hw).trans (BitVec.eq_of_toNat_eq ?_))
      obtain ⟨hfield, -⟩ := toNat_word_fields (BitVec.ofNat 32 (v % 2 ^ 32))
      rw [hfield, BitVec.toNat_ofNat]
      omega
    exact .inl (Instr.eq_of_opcode hi hop ▸ hj)
  · exact .inr (codeOf_finish .illegalCommand _ s)

/-! ### The obligations -/

/-- Settles O26: GF_ADD is `done` with the xor of its operands, and a word with its OP runs it or is illegal. -/
theorem gfAddXorsItsOperands : Obligations.GfAddXorsItsOperands := by
  unfold Obligations.GfAddXorsItsOperands
  refine ⟨by decide, execGfAdd_endsAs, fun s t h => ?_, fun s t v hv h => ?_⟩
  · obtain rfl := execGfAdd_next.mp h
    simp +contextual [gfAdd]
  · refine (exec_or_illegal_of_op (i := .gfAdd) (by decide) hv h).imp_left fun hexec => ?_
    obtain rfl := execGfAdd_next.mp hexec
    exact codeOf_finish .ok _ _

/-- Settles O27: on field elements gf_mul answers the product of the field, which adds the logarithms. -/
theorem gfMulAddsLogarithms : Obligations.GfMulAddsLogarithms := by
  unfold Obligations.GfMulAddsLogarithms
  refine ⟨by decide, fun s hv ha hb => ?_, fun s hc ha hb => ?_, fun s t v hv h => ?_⟩
  · have hf := hv.fieldOk
    refine ⟨mulVal s.cfg s.gfA s.gfB, mulVal_lt hf ha hb, execGfMul_endsAs (gfMul_ok hf ha hb), ?_,
      fun ha0 hb0 => mulVal_eq_expEntry hf ha0 hb0 ha hb, fun h => ?_, fun h => ?_, fun h0 hinv => ?_⟩
    · rintro (h | h) <;> simp [h]
    · rw [h, mulVal_one_left hf hb]
    · rw [h, mulVal_one hf ha]
    · have hgfB : s.gfB = invVal s.cfg s.gfA := Except.ok.inj (hinv.symm.trans (gfInv_ok hf h0 ha))
      rw [hgfB, mulVal_invVal hf h0 ha]
  · exact execGfMul_endsAs (by rw [hc, ha, hb]; decide)
  · refine (exec_or_illegal_of_op (i := .gfMul) (by decide) hv h).imp_left fun hexec => ?_
    obtain ⟨r, -, rfl⟩ := execGfMul_next.mp hexec
    exact codeOf_finish .ok _ _

/-- Settles O28: GF_INV tests for 0 before it reads a table, and on any other field element gf_inv answers the inverse
of the field. -/
theorem gfInvInvertsOrReportsDivisionByZero : Obligations.GfInvInvertsOrReportsDivisionByZero := by
  unfold Obligations.GfInvInvertsOrReportsDivisionByZero
  refine ⟨by decide, fun s h => execGfInv_endsAs_divisionByZero h, fun s hv h0 ha => ?_, fun s hc ha => ?_,
    fun s hs h0 hr => ?_, fun s t v hv h => ?_⟩
  · have hf := hv.fieldOk
    have hlt := invVal_lt hf ha
    refine ⟨invVal s.cfg s.gfA, hlt, execGfInv_endsAs h0 (gfInv_ok hf h0 ha), invVal_eq_expEntry hf h0 ha, ?_,
      fun h => ?_⟩
    · rw [gfMul_ok hf ha hlt, mulVal_invVal hf h0 ha]
    · rw [h, invVal_one hf]
  · exact execGfInv_endsAs (by omega) (by rw [hc, ha]; decide)
  · exact ⟨_, execGfInv_next.mpr (.inl ⟨h0, rfl⟩), statusWith_of_legal hs .divisionByZero 0x03, hr⟩
  · obtain hexec | hcode := exec_or_illegal_of_op (i := .gfInv) (by decide) hv h
    · obtain ⟨-, rfl⟩ | ⟨-, r, -, rfl⟩ := execGfInv_next.mp hexec
      · exact .inr (.inl (codeOf_finish .divisionByZero _ _))
      · exact .inl (codeOf_finish .ok _ _)
    · exact .inr (.inr hcode)

/-- Settles O29: GF_POW is `done` with gf_pow of GF_I, an EXP entry, which is the first one at 0 and at Q. -/
theorem gfPowReadsExpModuloQ : Obligations.GfPowReadsExpModuloQ := by
  unfold Obligations.GfPowReadsExpModuloQ
  refine ⟨by decide, execGfPow_endsAs, fun s t hv h => ?_, fun s t hc h => ?_, fun s t v hv h => ?_⟩
  · obtain rfl := execGfPow_next.mp h
    have hf := hv.fieldOk
    exact ⟨gfPow_ne_zero hf _, gfPow_lt hf _, fun hi => by simp [gfPow, hi], fun hi => by simp [gfPow, hi],
      fun hi => by simp [gfPow, hi]⟩
  · obtain rfl := execGfPow_next.mp h
    exact ⟨fun hi => by rw [finish_gfR, hc, hi]; rfl, fun hi => by rw [finish_gfR, hc, hi]; rfl⟩
  · refine (exec_or_illegal_of_op (i := .gfPow) (by decide) hv h).imp_left fun hexec => ?_
    obtain rfl := execGfPow_next.mp hexec
    exact codeOf_finish .ok _ _

/-- Settles O30: the field functions are the operations of the library's `Field` on the field elements, whose laws these
are; the law of exponents is gf_mul on EXP entries. -/
theorem fieldLawsHold : Obligations.FieldLawsHold := by
  unfold Obligations.FieldLawsHold
  intro c a b d hv ha hb hd
  have hf := hv.fieldOk
  let := gfField hf
  obtain ⟨a, rfl⟩ : ∃ x : Gf c, x.val = a := ⟨⟨a, ha⟩, rfl⟩
  obtain ⟨b, rfl⟩ : ∃ x : Gf c, x.val = b := ⟨⟨b, hb⟩, rfl⟩
  obtain ⟨d, rfl⟩ : ∃ x : Gf c, x.val = d := ⟨⟨d, hd⟩, rfl⟩
  have hmul : ∀ x y : Gf c, gfMul c x.val y.val = .ok (x * y).val := gfMul_val hf
  refine ⟨fun h0 => ?_, ?_, Nat.xor_self _, ⟨_, (a * b).lt, hmul a b⟩, ?_, ?_, ?_, fun i j => ?_⟩
  · have ha0 : a ≠ 0 := fun h => h0 (congrArg Gf.val h)
    calc (gfInv c a.val).bind (gfMul c a.val)
      _ = gfMul c a.val (a⁻¹).val := by rw [gfInv_val hf a h0]; rfl
      _ = .ok (1 : Gf c).val := by rw [hmul, mul_inv_cancel₀ ha0]
  · rw [gfAdd_val hf, hmul, hmul, hmul, mul_add]
    rfl
  · rw [hmul, hmul, mul_comm]
  · calc (gfMul c a.val b.val).bind (fun x => gfMul c x d.val)
      _ = .ok (a * b * d).val := by rw [hmul a b]; exact hmul (a * b) d
      _ = gfMul c a.val (b * d).val := by rw [hmul, mul_assoc]
      _ = (gfMul c b.val d.val).bind (gfMul c a.val) := by rw [hmul b d]; rfl
  · calc gfMul c a.val (1 : Gf c).val
      _ = .ok a.val := by rw [hmul, mul_one]
  · rw [gfPow_eq hf, gfPow_eq hf, gfPow_eq hf, gfMul_expEntry hf]

end Sys2Proof.Machine
end

section
/-!
The encoder (spec/41_encoder.md R88 to R92): the codeword of a message is the one N-bit word that G divides and whose high
K bits are the message. MSG = 0, MSG = 1 and linearity follow from there being one.
-/

namespace Sys2Proof.Machine

/-! ### Division by a polynomial (R87) -/

theorem polyDivmod_of_lt {g r : Nat} (hg : g ≠ 0) (hr : r < 2 ^ degree g) : polyDivmod r g = (0, r) :=
  polyDivmod_unique hg (by simp) hr

theorem polyDivmod_self {g : Nat} (hg : g ≠ 0) : polyDivmod g g = (1, 0) :=
  polyDivmod_unique hg (by simpa using polyMul_one_shift 0 g) (Nat.two_pow_pos _)

/-- Adding its remainder to a polynomial makes it divisible. -/
theorem polyDivmod_xor_remainder {g : Nat} (hg : g ≠ 0) (p : Nat) :
    (polyDivmod (p ^^^ (polyDivmod p g).2) g).2 = 0 := by
  obtain ⟨-, hlt⟩ := polyDivmod_spec hg p
  rw [polyDivmod_xor hg, polyDivmod_of_lt hg hlt]
  exact Nat.xor_self _

/-- Above bits that are 0, or and xor agree. -/
theorem shiftLeft_or_eq_xor {r d : Nat} (hr : r < 2 ^ d) (m : Nat) : m <<< d ||| r = m <<< d ^^^ r := by
  refine Nat.eq_of_testBit_eq fun j => ?_
  rw [Nat.testBit_or, Nat.testBit_xor]
  obtain hj | hj := Nat.lt_or_ge j d
  · rw [testBit_shiftLeft_lt hj, Bool.false_or, Bool.false_xor]
  · rw [Nat.testBit_lt_two_pow (hr.trans_le (Nat.pow_le_pow_right (by decide) hj)), Bool.or_false, Bool.xor_false]

/-! ### Codewords (R91, R92) -/

section
variable {c : Config} (hv : Valid c)
include hv

theorem IsCodeword.xor {u v : Nat} (hu : IsCodeword c u) (hw : IsCodeword c v) : IsCodeword c (u ^^^ v) := by
  refine ⟨Nat.xor_lt_two_pow hu.1 hw.1, ?_⟩
  rw [polyDivmod_xor hv.gen_ne_zero, hu.2, hw.2]
  rfl

theorem isCodeword_zero : IsCodeword c 0 :=
  ⟨Nat.two_pow_pos _, by rw [polyDivmod_of_lt hv.gen_ne_zero (Nat.two_pow_pos _)]⟩

theorem isCodeword_gen : IsCodeword c c.g := by
  obtain ⟨hdeg, hk⟩ := hv.genDegree
  exact ⟨(degree_lt hv.gen_ne_zero).mp (by omega), by rw [polyDivmod_self hv.gen_ne_zero]⟩

/-- G is monic of degree N - K. -/
theorem gen_shiftRight : c.g >>> (c.n - c.k) = 1 := by
  obtain ⟨hdeg, -⟩ := hv.degree_gen
  rw [← hdeg, Nat.shiftRight_eq_div_pow]
  exact Nat.div_eq_of_lt_le ((Nat.one_mul _).trans_le (Nat.log2_self_le hv.gen_ne_zero))
    (by simpa [Nat.pow_succ, Nat.mul_comm] using lt_two_pow_degree c.g)

/-- An N-bit word is one with at most K bits above the low N - K. -/
theorem lt_iff_shiftRight_lt {v : Nat} : v < 2 ^ c.n ↔ v >>> (c.n - c.k) < 2 ^ c.k := by
  obtain ⟨-, hk⟩ := hv.degree_gen
  rw [Nat.shiftRight_eq_div_pow, Nat.div_lt_iff_lt_mul (Nat.two_pow_pos _), ← Nat.pow_add, Nat.add_sub_of_le hk]

/-- The only codeword of degree below that of G is 0. -/
theorem IsCodeword.eq_zero {v : Nat} (hw : IsCodeword c v) (hlt : v < 2 ^ (c.n - c.k)) : v = 0 := by
  obtain ⟨-, hrem⟩ := hw
  obtain ⟨hdeg, -⟩ := hv.degree_gen
  rwa [polyDivmod_of_lt hv.gen_ne_zero (hdeg ▸ hlt)] at hrem

/-- The high K bits of a codeword determine it: the sum of two with the same ones has degree below that of G. -/
theorem IsCodeword.eq_of_shiftRight {u v : Nat} (hu : IsCodeword c u) (hw : IsCodeword c v)
    (h : u >>> (c.n - c.k) = v >>> (c.n - c.k)) : u = v := by
  have hhigh : (u ^^^ v) >>> (c.n - c.k) = 0 := by rw [Nat.shiftRight_xor_distrib, h, Nat.xor_self]
  have hlt : u ^^^ v < 2 ^ (c.n - c.k) := by
    rw [Nat.shiftRight_eq_div_pow] at hhigh
    exact Nat.lt_of_div_eq_zero (Nat.two_pow_pos _) hhigh
  exact Nat.xor_eq_zero_iff.mp ((hu.xor hv hw).eq_zero hv hlt)

end

/-! ### The codeword of a message (R88 to R91) -/

/-- The remainder of the shifted message by G (R88), the low N - K bits of the codeword. -/
def remainderOf (c : Config) (msg : Nat) : Nat := (polyDivmod (msg <<< (c.n - c.k)) c.g).2

theorem codewordOf_eq_or (c : Config) (m : Nat) : codewordOf c m = m <<< (c.n - c.k) ||| remainderOf c m := rfl

section
variable {c : Config} (hv : Valid c)
include hv

theorem remainderOf_lt (m : Nat) : remainderOf c m < 2 ^ (c.n - c.k) :=
  hv.degree_gen.1 ▸ (polyDivmod_spec hv.gen_ne_zero _).2

theorem codewordOf_eq_xor (m : Nat) : codewordOf c m = m <<< (c.n - c.k) ^^^ remainderOf c m :=
  shiftLeft_or_eq_xor (remainderOf_lt hv m) m

theorem codewordOf_mod (m : Nat) : codewordOf c m % 2 ^ (c.n - c.k) = remainderOf c m := by
  have hlt := remainderOf_lt hv m
  rw [codewordOf_eq_or, ← Nat.shiftLeft_add_eq_or_of_lt hlt, Nat.shiftLeft_eq, Nat.mul_add_mod_self_right,
    Nat.mod_eq_of_lt hlt]

theorem codewordOf_lt {m : Nat} (hm : m < 2 ^ c.k) : codewordOf c m < 2 ^ c.n := by
  rwa [lt_iff_shiftRight_lt hv, codewordOf_shiftRight hv]

theorem isCodeword_codewordOf {m : Nat} (hm : m < 2 ^ c.k) : IsCodeword c (codewordOf c m) := by
  refine ⟨codewordOf_lt hv hm, ?_⟩
  rw [codewordOf_eq_xor hv]
  exact polyDivmod_xor_remainder hv.gen_ne_zero _

/-- A codeword is that of the message in its high K bits. -/
theorem IsCodeword.eq_codewordOf {v : Nat} (hw : IsCodeword c v) :
    v >>> (c.n - c.k) < 2 ^ c.k ∧ v = codewordOf c (v >>> (c.n - c.k)) := by
  have hm : v >>> (c.n - c.k) < 2 ^ c.k := (lt_iff_shiftRight_lt hv).mp hw.1
  exact ⟨hm, hw.eq_of_shiftRight hv (isCodeword_codewordOf hv hm) (codewordOf_shiftRight hv _).symm⟩

theorem codewordOf_zero : codewordOf c 0 = 0 := by
  simpa using ((isCodeword_zero hv).eq_codewordOf hv).2.symm

/-- The codeword of the message 1 is the generator polynomial (R89). -/
theorem codewordOf_one : codewordOf c 1 = c.g := by
  simpa only [gen_shiftRight hv] using ((isCodeword_gen hv).eq_codewordOf hv).2.symm

/-- Linearity (R92): both sides are codewords with the high bits a xor b. -/
theorem codewordOf_xor {a b : Nat} (ha : a < 2 ^ c.k) (hb : b < 2 ^ c.k) :
    codewordOf c (a ^^^ b) = codewordOf c a ^^^ codewordOf c b := by
  have hsum := (isCodeword_codewordOf hv ha).xor hv (isCodeword_codewordOf hv hb)
  refine (isCodeword_codewordOf hv (Nat.xor_lt_two_pow ha hb)).eq_of_shiftRight hv hsum ?_
  rw [Nat.shiftRight_xor_distrib]
  simp only [codewordOf_shiftRight hv]

theorem codewordOf_injective : Function.Injective (codewordOf c) := fun a b h => by
  rw [← codewordOf_shiftRight hv a, h, codewordOf_shiftRight hv b]

theorem isCodeword_iff {v : Nat} : IsCodeword c v ↔ ∃ a < 2 ^ c.k, v = codewordOf c a :=
  ⟨fun hw => ⟨_, hw.eq_codewordOf hv⟩, by rintro ⟨a, ha, rfl⟩; exact isCodeword_codewordOf hv ha⟩

end

/-! ### The command (R69, R89) -/

theorem execEncode_endsAs {len : BitVec 16} {s : State} (h : len.toNat = s.cfg.k) :
    EndsAs (exec (.encode len) s) { s with cw := codewordOf s.cfg s.msg } 0 0x10 := by
  rw [execEncode_next.mpr (.inl ⟨h, rfl⟩)]
  exact EndsAs.of_finish .ok 0x10 _

theorem execEncode_endsAs_invalidLength {len : BitVec 16} {s : State} (h : len.toNat ≠ s.cfg.k) :
    EndsAs (exec (.encode len) s) s 1 0x10 := by
  rw [execEncode_next.mpr (.inr ⟨h, rfl⟩)]
  exact EndsAs.of_finish .invalidLength 0x10 s

theorem decode_commandWord_encode (len : BitVec 16) : decode (commandWord len .encode) = .ok (.encode len) := by
  obtain ⟨hop, hrsv, hlen⟩ := commandWord_fields len .encode
  simp [decode, hop, hrsv, hlen]

/-- A word written to CMD runs a command of the opcode in its OP, or is illegal (R67, R68). -/
theorem exec_of_opcode_or_illegal {op : Opcode} {s t : State} {v : Nat} (hv : v % 2 ^ 8 = op.byte.toNat)
    (h : hostWrite 0x00 v s = .next t) : (∃ i : Instr, i.opcode = op ∧ exec i s = .next t) ∨ codeOf t = 5 := by
  obtain ⟨i, hw, hi⟩ | ⟨e, -, rfl⟩ := execute_next.mp ((hostWrite_cmd s v).symm.trans h)
  · refine .inl ⟨i, Opcode.byte_injective ((byte_of_decode hw).trans (BitVec.eq_of_toNat_eq ?_)), hi⟩
    obtain ⟨hfield, -⟩ := toNat_word_fields (BitVec.ofNat 32 (v % 2 ^ 32))
    rw [hfield, BitVec.toNat_ofNat]
    omega
  · exact .inr (codeOf_finish .illegalCommand _ s)

/-! ### The obligations -/

/-- Settles O34: ENCODE with LEN = K is `done` with the codeword of MSG, and 0 and G are the codewords whose high bits
are 0 and 1. -/
theorem encodeAppendsTheRemainder : Obligations.EncodeAppendsTheRemainder := by
  unfold Obligations.EncodeAppendsTheRemainder
  refine ⟨fun c hv => ?_, fun len s => execEncode_endsAs, fun len s => execEncode_endsAs_invalidLength,
    fun len s t hv hmsg hlen h => ?_, fun s hc hm => ?_, fun s t v hv h => ?_⟩
  · have hword : (pseudoWord c .encode).toNat = c.k <<< 16 ||| 0x10 := toNat_pseudoWord hv .encode
    rw [← hword, BitVec.ofNat_toNat, BitVec.setWidth_eq]
    exact decode_commandWord_encode _
  · obtain ⟨-, rfl⟩ | ⟨hne, -⟩ := execEncode_next.mp h
    · exact ⟨remainderOf_lt hv _, codewordOf_lt hv hmsg, fun h0 => by simp [h0, codewordOf_zero hv],
        fun h1 => by simp [h1, codewordOf_one hv], rfl, codewordOf_eq_xor hv _⟩
    · exact absurd hlen hne
  · have hcw : codewordOf s.cfg s.msg = 0x55E5 := by rw [hc, hm]; decide
    exact hcw ▸ execEncode_endsAs (by rw [hc]; rfl)
  · obtain ⟨i, hop, hi⟩ | hcode := exec_of_opcode_or_illegal (op := .encode) hv h
    · cases i <;> cases hop
      obtain ⟨-, rfl⟩ | ⟨-, rfl⟩ := execEncode_next.mp hi
      · exact .inl (codeOf_finish .ok _ _)
      · exact .inr (.inl (codeOf_finish .invalidLength _ _))
    · exact .inr (.inr hcode)

/-- Settles O35: the remainder has N - K bits, so it stays below the message, and adding it makes the shifted message
divisible by G. -/
theorem codewordIsSystematicAndDivisible : Obligations.CodewordIsSystematicAndDivisible := by
  unfold Obligations.CodewordIsSystematicAndDivisible
  intro len s hinv hlen
  obtain ⟨hv, ⟨hmsg, -⟩, -⟩ := hinv
  refine ⟨_, execEncode_next.mpr (.inl ⟨hlen, rfl⟩), ?_⟩
  simp only [finish_cw]
  have hhigh := codewordOf_shiftRight hv s.msg
  refine ⟨?_, codewordOf_mod hv _, ?_, (isCodeword_codewordOf hv hmsg).2⟩
  · rw [← Nat.shiftRight_eq_div_pow, hhigh]
  · rw [take_bitString hv.degree_gen.2, hhigh]

/-- Settles O36: a codeword is determined by its high K bits, and those of the codeword of a message are the message. -/
theorem encodeIsLinear : Obligations.EncodeIsLinear := by
  unfold Obligations.EncodeIsLinear
  exact fun c hv => ⟨fun a b => codewordOf_xor hv, fun a b _ _ h => codewordOf_injective hv h,
    fun v => isCodeword_iff hv, fun u v hu hw => hu.xor hv hw⟩

end Sys2Proof.Machine
end

section
/-!
The syndromes (spec/42_syndrome.md R94 to R97): the values at α to α^4 of the received word as a binary polynomial.
Evaluation is additive in the word and commutes with squaring, it is α^(i·j) on a single 1, and 0 on a codeword.
-/

namespace Sys2Proof.Machine

/-! ### Evaluation at α^i (R93 to R96) -/

section
variable {c : Config} (h : FieldOk c)

theorem gfExp_pow (i j : Nat) : letI := gfField h; gfExp h i ^ j = gfExp h (i * j) := by
  let := gfField h
  rw [gfExp_eq_pow h i, gfExp_eq_pow h (i * j), pow_mul]

theorem polyEval_gfPow (v w i : Nat) :
    letI := gfField h; polyEval c v w (gfPow c i) = .ok (evalAt (gfExp h i) w v).val := by
  rw [gfPow_val h]
  exact polyEval_val h v w _

/-- A single 1 at position j has the value α^(i·j) (R94). -/
theorem evalAt_gfExp_two_pow {w j : Nat} (hj : j < w) (i : Nat) :
    letI := gfField h; (evalAt (gfExp h i) w (2 ^ j)).val = gfPow c (i * j) := by
  let := gfField h
  rw [evalAt_two_pow _ hj, gfExp_pow, gfPow_val h]

theorem patternOf_append_singleton (ps : List Nat) (p : Nat) : patternOf (ps ++ [p]) = patternOf ps ^^^ 2 ^ p := by
  simp [patternOf, Nat.one_shiftLeft]

/-- An error pattern has the power sum of its locators as its value (R96). -/
theorem evalAt_gfExp_patternOf {w : Nat} (i : Nat) {ps : List Nat} (hps : ∀ p ∈ ps, p < w) :
    letI := gfField h
    (evalAt (gfExp h i) w (patternOf ps)).val = ps.foldl (fun acc p => gfAdd acc (gfPow c (p * i))) 0 := by
  let := gfField h
  induction ps using List.reverseRecOn with
  | nil => exact congrArg Gf.val (evalAt_zero _ w)
  | append_singleton ps p ih =>
    have hinit : ∀ a ∈ ps, a < w := fun a ha => hps a (List.mem_append_left _ ha)
    have hlast : p < w := hps p (by simp)
    rw [patternOf_append_singleton, evalAt_xor (gfField_add_self h), ← gfAdd_val, ih hinit,
      evalAt_gfExp_two_pow h hlast, Nat.mul_comm i p, List.foldl_append]
    rfl

end

/-- A codeword is a multiple of G, which vanishes at α to α^4 (R91, R94). -/
theorem IsCodeword.evalAt_eq_zero {c : Config} (hv : Valid c) {v i : Nat} (hw : IsCodeword c v)
    (hi : i ∈ [1, 2, 3, 4]) :
    letI := gfField hv.fieldOk; evalAt (gfExp hv.fieldOk i) c.n v = 0 := by
  let := gfField hv.fieldOk
  obtain ⟨ks, hroots, -, hmem⟩ := hv.generator
  obtain ⟨hlt, hrem⟩ := hw
  obtain ⟨hdiv, -⟩ := polyDivmod_spec hv.gen_ne_zero v
  rw [hrem, Nat.xor_zero] at hdiv
  set q := (polyDivmod v c.g).1
  have hq : q < 2 ^ (c.n + degree q + 1) :=
    (lt_two_pow_degree q).trans_le (Nat.pow_le_pow_right (by decide) (by omega))
  have hroot : evalAt (gfExp hv.fieldOk i) (degree c.g + 1) c.g = 0 := by
    rw [← gfExp_mod]
    exact hroots.eval_root (hmem i hi) (lt_two_pow_degree c.g)
  have hwide : v < 2 ^ (c.n + degree q + 1 + (degree c.g + 1)) :=
    hlt.trans_le (Nat.pow_le_pow_right (by decide) (by omega))
  have hprod := evalAt_polyMul (gfField_add_self hv.fieldOk) (gfExp hv.fieldOk i) hq (lt_two_pow_degree c.g) le_rfl
    (hdiv ▸ hwide)
  rwa [hdiv, evalAt_widen _ hlt (by omega), hroot, mul_zero] at hprod

/-! ### Conjugacy (R97) -/

theorem syndromesOf_conjugate {c : Config} (h : FieldOk c) (r : Nat) :
    ∃ y, syndromesOf c r = .ok y ∧ gfMul c y.s1 y.s1 = .ok y.s2 ∧ gfMul c y.s2 y.s2 = .ok y.s4 := by
  let := gfField h
  have hsquare : ∀ i, gfMul c (evalAt (gfExp h i) c.n r).val (evalAt (gfExp h i) c.n r).val =
      .ok (evalAt (gfExp h (i * 2)) c.n r).val := fun i => by rw [gfMul_val h, gfExp_double, evalAt_square]
  exact ⟨_, syndromesOf_val h r, hsquare 1, hsquare 2⟩

/-! ### The commands (R94, R101) -/

theorem decode_commandWord_syndrome (len : BitVec 16) : decode (commandWord len .syndrome) = .ok (.syndrome len) := by
  obtain ⟨hop, hrsv, hlen⟩ := commandWord_fields len .syndrome
  simp [decode, hop, hrsv, hlen]

theorem execSyndrome_endsAs {len : BitVec 16} {s : State} {y : Syndromes} (hlen : len.toNat = s.cfg.n)
    (hy : syndromesOf s.cfg s.rx = .ok y) :
    EndsAs (exec (.syndrome len) s) { s with syn1 := y.s1, syn2 := y.s2, syn3 := y.s3, syn4 := y.s4 } 0 0x20 := by
  rw [execSyndrome_next.mpr (.inl ⟨hlen, y, hy, rfl⟩)]
  exact EndsAs.of_finish .ok 0x20 _

theorem execSyndrome_endsAs_invalidLength {len : BitVec 16} {s : State} (h : len.toNat ≠ s.cfg.n) :
    EndsAs (exec (.syndrome len) s) s 1 0x20 := by
  rw [execSyndrome_next.mpr (.inr ⟨h, rfl⟩)]
  exact EndsAs.of_finish .invalidLength 0x20 s

/-- The worked instance's syndromes are those `syndromesOf` computes (R94). -/
theorem execSyndrome_worked_endsAs {s : State} {r : Nat} {y : Syndromes} (hc : s.cfg = Config.worked) (hr : s.rx = r)
    (hy : syndromesOf Config.worked r = .ok y) :
    EndsAs (exec (.syndrome 15) s) { s with syn1 := y.s1, syn2 := y.s2, syn3 := y.s3, syn4 := y.s4 } 0 0x20 :=
  execSyndrome_endsAs (by rw [hc]; rfl) (by rw [hc, hr, hy])

/-- Cramer's rule answers whatever S4 is: it does not read it (R100). -/
theorem locatorOf_completes {c : Config} (h : FieldOk c) {a b d : Nat} (e : Nat) (h0 : a ≠ 0) (ha : a < 2 ^ c.m)
    (hb : b < 2 ^ c.m) (hd : d < 2 ^ c.m) : ∃ p, locatorOf c ⟨a, b, d, e⟩ = .ok p :=
  ⟨_, locatorOf_val h ⟨a, ha⟩ ⟨b, hb⟩ ⟨d, hd⟩ ⟨0, Nat.two_pow_pos _⟩ h0⟩

/-! ### The obligations -/

/-- Settles O39: SYNDROME with LEN = N is `done` with the values of RX at α to α^4, which are 0 on a multiple of G and
powers of α on a single 1. -/
theorem syndromeEvaluatesTheReceivedWord : Obligations.SyndromeEvaluatesTheReceivedWord := by
  unfold Obligations.SyndromeEvaluatesTheReceivedWord
  refine ⟨fun c hv => ?_, fun len s => execSyndrome_endsAs_invalidLength, fun len s hv _ hlen => ?_,
    fun s hc hr => execSyndrome_worked_endsAs hc hr (y := ⟨1, 1, 1, 1⟩) (by decide),
    fun s hc hr => execSyndrome_worked_endsAs hc hr (y := ⟨9, 13, 15, 14⟩) (by decide), fun s t v hv h => ?_⟩
  · have hword : (pseudoWord c .syndrome).toNat = c.n <<< 16 ||| 0x20 := toNat_pseudoWord hv .syndrome
    rw [← hword, BitVec.ofNat_toNat, BitVec.setWidth_eq]
    exact decode_commandWord_syndrome _
  · have hf := hv.fieldOk
    let := gfField hf
    have hzeros : IsCodeword s.cfg s.rx → ∀ i ∈ [1, 2, 3, 4], (evalAt (gfExp hf i) s.cfg.n s.rx).val = 0 :=
      fun hw i hi => congrArg Gf.val (hw.evalAt_eq_zero hv hi)
    simp only [List.forall_mem_cons, List.not_mem_nil, false_imp_iff, implies_true, and_true] at hzeros
    refine ⟨_, _, _, _, polyEval_gfPow hf _ _ 1, polyEval_gfPow hf _ _ 2, polyEval_gfPow hf _ _ 3,
      polyEval_gfPow hf _ _ 4, execSyndrome_endsAs hlen (syndromesOf_val hf s.rx),
      fun h0 => hzeros (h0 ▸ isCodeword_zero hv), hzeros, fun j hj hrx => ?_⟩
    rw [hrx]
    exact ⟨evalAt_gfExp_two_pow hf hj 1, evalAt_gfExp_two_pow hf hj 2, evalAt_gfExp_two_pow hf hj 3,
      evalAt_gfExp_two_pow hf hj 4⟩
  · obtain ⟨i, hop, hi⟩ | hcode := exec_of_opcode_or_illegal (op := .syndrome) hv h
    · cases i <;> cases hop
      obtain ⟨-, y, -, rfl⟩ | ⟨-, rfl⟩ := execSyndrome_next.mp hi
      · exact .inl (codeOf_finish .ok _ _)
      · exact .inr (.inl (codeOf_finish .invalidLength _ _))
    · exact .inr (.inr hcode)

/-- Settles O41: evaluation is additive in the word, a codeword adds 0, and a pattern adds a power of α for each
position. -/
theorem syndromesArePowerSumsOfTheErrors : Obligations.SyndromesArePowerSumsOfTheErrors := by
  unfold Obligations.SyndromesArePowerSumsOfTheErrors
  refine ⟨fun c r e a hv ha => ?_, fun c v ps i hv hw _ hps hi => ?_⟩
  · have hf := hv.fieldOk
    let := gfField hf
    refine ⟨_, _, polyEval_val hf r c.n ⟨a, ha⟩, polyEval_val hf e c.n ⟨a, ha⟩, ?_⟩
    rw [gfAdd_val hf, ← evalAt_xor (gfField_add_self hf)]
    exact polyEval_val hf _ c.n ⟨a, ha⟩
  · have hf := hv.fieldOk
    let := gfField hf
    rw [polyEval_gfPow hf, evalAt_xor (gfField_add_self hf), hw.evalAt_eq_zero hv hi, zero_add,
      evalAt_gfExp_patternOf hf i hps]

/-- Settles O42: the value at α^(2i) is the square of the value at α^i, and SOLVE reads no more of the syndromes than
Cramer's rule, which answers on field elements with S1 not 0. -/
theorem syndromesAreConjugate : Obligations.SyndromesAreConjugate := by
  unfold Obligations.SyndromesAreConjugate
  refine ⟨fun c r hv => syndromesOf_conjugate hv.fieldOk r, fun len s hinv hlen => ?_,
    fun s b d e hinv h0 hb hd => ?_⟩
  · obtain ⟨hv, -⟩ := hinv
    obtain ⟨y, hy, h12, h24⟩ := syndromesOf_conjugate hv.fieldOk s.rx
    exact ⟨_, execSyndrome_next.mpr (.inl ⟨hlen, y, hy, rfl⟩), h12, h24⟩
  · obtain ⟨hv, ⟨-, -, -, -, hsyn1, -⟩, -⟩ := hinv
    obtain ⟨p, hp⟩ := locatorOf_completes hv.fieldOk e h0 hsyn1 hb hd
    exact ⟨_, execSolve_next.mpr (.inr (.inr ⟨h0, p, hp, rfl⟩)), codeOf_finish .ok _ _⟩

end Sys2Proof.Machine
end

section
/-!
The solver (spec/43_locator_solver.md R98 to R102): Cramer's rule with D = S1 solves the Newton system on any syndromes
with S1 not 0, and on the power sums of two field elements x and y its answer is x + y and xy. One error is the case
y = 0.
-/

namespace Sys2Proof.Machine

/-! ### Cramer's rule (R98 to R100) -/

section
variable {c : Config} (h : FieldOk c)

/-- Cramer's rule answers σ1 = S1, and does not read S4. -/
theorem locatorOf_eq {a : Gf c} (b d : Gf c) (e : Nat) (ha : letI := gfField h; a ≠ 0) :
    letI := gfField h; locatorOf c ⟨a.val, b.val, d.val, e⟩ = .ok (a.val, ((d + a * b) * a⁻¹).val) := by
  let := gfField h
  have hcramer := locatorOf_val h a b d 0 fun h0 => ha (Gf.ext h0)
  rwa [mul_self_mul_inv] at hcramer

theorem gf_add_ne_zero {x y : Gf c} (hne : x ≠ y) : letI := gfField h; x + y ≠ 0 :=
  fun h0 => hne (Gf.ext (Nat.xor_eq_zero_iff.mp (congrArg Gf.val h0)))

/-- On the power sums of x and y Cramer's rule answers their sum and product (R102). -/
theorem locatorOf_powerSums {x y : Gf c} (e : Nat) (hne : x ≠ y) :
    letI := gfField h
    locatorOf c ⟨(x + y).val, (x ^ 2 + y ^ 2).val, (x ^ 3 + y ^ 3).val, e⟩ = .ok ((x + y).val, (x * y).val) := by
  let := gfField h
  have hsum := gf_add_ne_zero h hne
  have hcross : x ^ 3 + y ^ 3 + (x + y) * (x ^ 2 + y ^ 2) = x * y * (x + y) := by
    have hcubes := gfField_add_self h (x ^ 3 + y ^ 3)
    linear_combination hcubes
  rw [locatorOf_eq h _ _ e hsum, hcross, mul_inv_cancel_right₀ hsum]

include h in
/-- R98 with R100: the answer solves S2·σ1 + S1·σ2 = S3. -/
theorem locatorOf_solves_newton {a b d : Nat} (e : Nat) (h0 : a ≠ 0) (ha : a < 2 ^ c.m) (hb : b < 2 ^ c.m)
    (hd : d < 2 ^ c.m) :
    ∃ sigma2 dinv ab x y : Nat, locatorOf c ⟨a, b, d, e⟩ = .ok (a, sigma2) ∧
      gfInv c a = .ok dinv ∧ gfMul c a b = .ok ab ∧ gfMul c (gfAdd d ab) dinv = .ok sigma2 ∧
      gfMul c b a = .ok x ∧ gfMul c a sigma2 = .ok y ∧ gfAdd x y = d := by
  let := gfField h
  obtain ⟨a, rfl⟩ : ∃ x : Gf c, x.val = a := ⟨⟨a, ha⟩, rfl⟩
  obtain ⟨b, rfl⟩ : ∃ x : Gf c, x.val = b := ⟨⟨b, hb⟩, rfl⟩
  obtain ⟨d, rfl⟩ : ∃ x : Gf c, x.val = d := ⟨⟨d, hd⟩, rfl⟩
  have ha0 : a ≠ 0 := fun h => h0 (congrArg Gf.val h)
  have hsystem : b * a + a * ((d + a * b) * a⁻¹) = d := by
    have hcancel : a * ((d + a * b) * a⁻¹) = d + a * b := by rw [mul_left_comm, mul_inv_cancel₀ ha0, mul_one]
    linear_combination hcancel + gfField_add_self h (a * b)
  exact ⟨_, _, _, _, _, locatorOf_eq h b d e ha0, gfInv_val h a h0, gfMul_val h a b, gfMul_val h (d + a * b) a⁻¹,
    gfMul_val h b a, gfMul_val h a _, congrArg Gf.val hsystem⟩

end

/-! ### How SOLVE ends (R101) -/

section
variable {s : State}

theorem execSolve_endsAs_noError (h1 : s.syn1 = 0) (h2 : s.syn2 = 0) (h3 : s.syn3 = 0) (h4 : s.syn4 = 0) :
    EndsAs (exec .solve s) { s with det := 0, sigma1 := 0, sigma2 := 0 } 0 0x21 := by
  rw [execSolve_next.mpr (.inl ⟨⟨h1, h2, h3, h4⟩, rfl⟩), h1]
  exact EndsAs.of_finish .ok 0x21 _

theorem execSolve_endsAs_uncorrectable (h1 : s.syn1 = 0) (h : ¬ (s.syn2 = 0 ∧ s.syn3 = 0 ∧ s.syn4 = 0)) :
    EndsAs (exec .solve s) { s with det := 0, sigma1 := 0, sigma2 := 0 } 3 0x21 := by
  rw [execSolve_next.mpr (.inr (.inl ⟨h1, fun h0 => h h0.2, rfl⟩)), h1]
  exact EndsAs.of_finish .uncorrectable 0x21 _

theorem execSolve_endsAs {p : Nat × Nat} (h1 : s.syn1 ≠ 0)
    (hp : locatorOf s.cfg ⟨s.syn1, s.syn2, s.syn3, s.syn4⟩ = .ok p) :
    EndsAs (exec .solve s) { s with det := s.syn1, sigma1 := p.1, sigma2 := p.2 } 0 0x21 := by
  rw [execSolve_next.mpr (.inr (.inr ⟨h1, p, hp, rfl⟩))]
  exact EndsAs.of_finish .ok 0x21 _

end

/-! ### SYNDROME, then SOLVE (R94, R102) -/

/-- One flipped bit adds a power of its locator to each syndrome. -/
theorem evalAt_gfExp_flip {c : Config} (h : FieldOk c) {w p : Nat} (hp : p < w) (i : Nat) :
    letI := gfField h; evalAt (gfExp h i) w (2 ^ p) = gfExp h p ^ i := by
  let := gfField h
  rw [evalAt_two_pow _ hp, gfExp_pow, gfExp_pow, Nat.mul_comm]

section
variable {c : Config} (hv : Valid c)
include hv

theorem IsCodeword.syndromesOf_eq_zero {v : Nat} (hw : IsCodeword c v) : syndromesOf c v = .ok ⟨0, 0, 0, 0⟩ := by
  rw [syndromesOf_val hv.fieldOk, hw.evalAt_eq_zero hv (by decide), hw.evalAt_eq_zero hv (by decide),
    hw.evalAt_eq_zero hv (by decide), hw.evalAt_eq_zero hv (by decide)]
  rfl

/-- The syndromes of a codeword with an error pattern whose values are the power sums of x and y (R96). With y = 0 it is
one error: y^i is 0 for i not 0. -/
theorem syndromesOf_powerSums {v e : Nat} (hw : IsCodeword c v) {x y : Gf c}
    (hsum : letI := gfField hv.fieldOk; ∀ i ≠ 0, evalAt (gfExp hv.fieldOk i) c.n e = x ^ i + y ^ i) :
    letI := gfField hv.fieldOk
    syndromesOf c (v ^^^ e) =
      .ok ⟨(x + y).val, (x ^ 2 + y ^ 2).val, (x ^ 3 + y ^ 3).val, (x ^ 4 + y ^ 4).val⟩ := by
  let := gfField hv.fieldOk
  have hvalue : ∀ i ∈ [1, 2, 3, 4], evalAt (gfExp hv.fieldOk i) c.n (v ^^^ e) = x ^ i + y ^ i := fun i hi => by
    have hi0 : i ≠ 0 := by rintro rfl; simp at hi
    rw [evalAt_xor (gfField_add_self hv.fieldOk), hw.evalAt_eq_zero hv hi, zero_add, hsum i hi0]
  rw [syndromesOf_val hv.fieldOk, hvalue 1 (by decide), hvalue 2 (by decide), hvalue 3 (by decide),
    hvalue 4 (by decide), pow_one, pow_one]

end

/-- SYNDROME then SOLVE, where Cramer's rule answers on the syndromes of RX. -/
theorem exec_syndrome_solve_of_locatorOf {len : BitVec 16} {s : State} {y : Syndromes} {p : Nat × Nat}
    (hlen : len.toNat = s.cfg.n) (hy : syndromesOf s.cfg s.rx = .ok y) (h1 : y.s1 ≠ 0)
    (hp : locatorOf s.cfg y = .ok p) :
    ∃ t u, exec (.syndrome len) s = .next t ∧ exec .solve t = .next u ∧ codeOf u = 0 ∧ u.sigma1 = p.1 ∧
      u.sigma2 = p.2 ∧ u.det = y.s1 :=
  ⟨_, _, execSyndrome_next.mpr (.inl ⟨hlen, y, hy, rfl⟩), execSolve_next.mpr (.inr (.inr ⟨h1, p, hp, rfl⟩)),
    codeOf_finish .ok _ _, rfl, rfl, rfl⟩

/-- The same where every syndrome is 0. -/
theorem exec_syndrome_solve_noError {len : BitVec 16} {s : State} (hlen : len.toNat = s.cfg.n)
    (hy : syndromesOf s.cfg s.rx = .ok ⟨0, 0, 0, 0⟩) :
    ∃ t u, exec (.syndrome len) s = .next t ∧ exec .solve t = .next u ∧ codeOf u = 0 ∧ u.sigma1 = 0 ∧
      u.sigma2 = 0 ∧ u.det = u.sigma1 :=
  ⟨_, _, execSyndrome_next.mpr (.inl ⟨hlen, _, hy, rfl⟩),
    execSolve_next.mpr (.inl ⟨⟨rfl, rfl, rfl, rfl⟩, rfl⟩), codeOf_finish .ok _ _, rfl, rfl, rfl⟩

/-- On a codeword with an error pattern whose values are the power sums of x and y, SYNDROME then SOLVE answer x + y and
xy. -/
theorem exec_syndrome_solve_powerSums {len : BitVec 16} {s : State} (hv : Valid s.cfg) (hlen : len.toNat = s.cfg.n)
    {v e : Nat} (hw : IsCodeword s.cfg v) (hrx : s.rx = v ^^^ e) {x y : Gf s.cfg} (hne : x ≠ y)
    (hsum : letI := gfField hv.fieldOk; ∀ i ≠ 0, evalAt (gfExp hv.fieldOk i) s.cfg.n e = x ^ i + y ^ i) :
    letI := gfField hv.fieldOk
    ∃ t u, exec (.syndrome len) s = .next t ∧ exec .solve t = .next u ∧ codeOf u = 0 ∧ u.sigma1 = (x + y).val ∧
      u.sigma2 = (x * y).val ∧ u.det = u.sigma1 ∧ u.det ≠ 0 := by
  let := gfField hv.fieldOk
  have h1 : (x + y).val ≠ 0 := fun h0 => gf_add_ne_zero hv.fieldOk hne (Gf.ext h0)
  obtain ⟨t, u, ht, hu, hcode, hsigma1, hsigma2, hdet⟩ :=
    exec_syndrome_solve_of_locatorOf hlen (hrx ▸ syndromesOf_powerSums hv hw hsum) h1
      (locatorOf_powerSums hv.fieldOk _ hne)
  exact ⟨t, u, ht, hu, hcode, hsigma1, hsigma2, hdet.trans hsigma1.symm, hdet ▸ h1⟩

/-! ### The obligations -/

/-- Settles O43: each case of R101 is `done`; Cramer's rule solves the Newton system, and its σ2 is 0 where
S3 = S1·S2. -/
theorem solveSolvesTheNewtonSystem : Obligations.SolveSolvesTheNewtonSystem := by
  unfold Obligations.SolveSolvesTheNewtonSystem
  refine ⟨by decide, fun s => execSolve_endsAs_noError, fun s => execSolve_endsAs_uncorrectable,
    fun s ⟨hv, ⟨_, _, _, _, hsyn1, hsyn2, hsyn3, _⟩, _⟩ h1 => ?_,
    fun s ⟨hv, ⟨_, _, _, _, hsyn1, hsyn2, hsyn3, _⟩, _⟩ h1 _ hs3 => ?_, fun s hc h1 h2 h3 h4 => ?_,
    fun s t v hv h => ?_⟩
  · obtain ⟨sigma2, dinv, s1s2, x, y, hp, hsystem⟩ :=
      locatorOf_solves_newton hv.fieldOk s.syn4 h1 hsyn1 hsyn2 hsyn3
    exact ⟨sigma2, dinv, s1s2, x, y, execSolve_endsAs h1 hp, hsystem⟩
  · obtain ⟨sigma2, dinv, s1s2, -, -, hp, -, hs1s2, hsigma2, -⟩ :=
      locatorOf_solves_newton hv.fieldOk s.syn4 h1 hsyn1 hsyn2 hsyn3
    obtain rfl : s.syn3 = s1s2 := Except.ok.inj (hs3.symm.trans hs1s2)
    rw [gfAdd, Nat.xor_self, gfMul_zero_left] at hsigma2
    obtain rfl : 0 = sigma2 := Except.ok.inj hsigma2
    exact execSolve_endsAs h1 hp
  · have hp : locatorOf s.cfg ⟨s.syn1, s.syn2, s.syn3, s.syn4⟩ = .ok (9, 8) := by rw [hc, h1, h2, h3, h4]; decide
    simpa only [h1] using execSolve_endsAs (by omega) hp
  · obtain hexec | hcode := exec_or_illegal_of_op (i := .solve) (by decide) hv h
    · obtain ⟨-, rfl⟩ | ⟨-, -, rfl⟩ | ⟨-, p, -, rfl⟩ := execSolve_next.mp hexec
      · exact .inl (codeOf_finish .ok _ _)
      · exact .inr (.inl (codeOf_finish .uncorrectable _ _))
      · exact .inl (codeOf_finish .ok _ _)
    · exact .inr (.inr hcode)

/-- Settles O44: a codeword leaves syndromes that are 0, one error the power sums of X_p and 0, and two errors those
of X_p and X_r, from which Cramer's rule answers the sum and the product. -/
theorem solveFindsTheLocatorsOfTwoErrors : Obligations.SolveFindsTheLocatorsOfTwoErrors := by
  unfold Obligations.SolveFindsTheLocatorsOfTwoErrors
  intro len s v hinv hlen hw
  obtain ⟨hv, -⟩ := hinv
  have hf := hv.fieldOk
  let := gfField hf
  refine ⟨fun hrx => ?_, fun p hp hrx => ?_, fun p r hp hr hpr hrx => ?_⟩
  · exact exec_syndrome_solve_noError hlen (hrx ▸ hw.syndromesOf_eq_zero hv)
  · obtain ⟨t, u, ht, hu, hcode, hsigma1, hsigma2, hdet⟩ :=
      exec_syndrome_solve_powerSums hv hlen hw hrx (gfExp_ne_zero hf p) fun i hi => by
        rw [evalAt_gfExp_flip hf hp, zero_pow hi, add_zero]
    rw [add_zero, ← gfPow_val hf] at hsigma1
    rw [mul_zero] at hsigma2
    exact ⟨t, u, ht, hu, hcode, hsigma1, hsigma2, hdet⟩
  · have hlocators : gfExp hf p ≠ gfExp hf r := fun he =>
      hpr (gfExp_inj hf (hp.trans_le hv.chkN.2) (hr.trans_le hv.chkN.2) he)
    obtain ⟨t, u, ht, hu, hcode, hsigma1, hsigma2, hdet⟩ :=
      exec_syndrome_solve_powerSums hv hlen hw (hrx.trans (Nat.xor_assoc _ _ _)) hlocators fun i _ => by
        rw [evalAt_xor (gfField_add_self hf), evalAt_gfExp_flip hf hp, evalAt_gfExp_flip hf hr]
    rw [← gfAdd_val hf, ← gfPow_val hf, ← gfPow_val hf] at hsigma1
    have hproduct : gfMul s.cfg (gfPow s.cfg p) (gfPow s.cfg r) = .ok u.sigma2 := by
      rw [gfPow_val hf, gfPow_val hf, gfMul_val hf, hsigma2]
    refine ⟨t, u, ht, hu, hcode, hsigma1, hproduct, fun hc hp0 hr3 => ?_, hdet⟩
    rw [hc, hp0, hr3] at hsigma1 hproduct
    rw [hc, hp0, hr3, hsigma1]
    exact ⟨by decide, by decide, by decide, Except.ok.inj (hproduct.symm.trans (by decide))⟩

end Sys2Proof.Machine
end

section
/-!
The root search (spec/44_chien_search.md R105 to R111): at the positions below N the zeros of the reciprocal locator are
those of the monic x² + σ1·x + σ2 at α^i, a quadratic over a field. So there are at most two, and where σ1 and σ2 are
the sum and the product of u and v they are the positions whose locator is u or v. One error is the case v = 0.
-/

namespace Sys2Proof.Machine

/-! ### The reciprocal and the monic locator (R105, R107, R110) -/

section
variable {c : Config} (h : FieldOk c)

theorem gf_val_eq_zero {x : Gf c} : letI := gfField h; x.val = 0 ↔ x = 0 := by
  let := gfField h
  exact ⟨fun h0 => Gf.ext h0, congrArg Gf.val⟩

/-- The point of position i is the inverse of its locator. -/
theorem gfExp_sub_mul_gfExp {i : Nat} (hi : i ≤ c.q) : letI := gfField h; gfExp h (c.q - i) * gfExp h i = 1 := by
  let := gfField h
  rw [← gfExp_add, Nat.sub_add_cancel hi, gfExp_q]

/-- Λ(α^(-i)) = α^(-2i)·σ(α^i). -/
theorem lambdaAt_pointOf (a b : Gf c) {i : Nat} (hi : i ≤ c.q) :
    letI := gfField h
    lambdaAt c a.val b.val (pointOf c i) =
      .ok (gfExp h (c.q - i) * gfExp h (c.q - i) * (gfExp h i * gfExp h i + a * gfExp h i + b)).val := by
  let := gfField h
  have hinv := gfExp_sub_mul_gfExp h hi
  rw [pointOf_val h, lambdaAt_val h]
  congr 2
  linear_combination -(gfExp h (c.q - i) * gfExp h i + 1 + a * gfExp h (c.q - i)) * hinv

theorem isZeroAt_iff_monic (a b : Gf c) {i : Nat} (hi : i ≤ c.q) :
    letI := gfField h
    IsZeroAt c a.val b.val i ↔ gfExp h i * gfExp h i + a * gfExp h i + b = 0 := by
  let := gfField h
  have hpoint := gfExp_ne_zero h (c.q - i)
  rw [IsZeroAt, lambdaAt_pointOf h a b hi, Except.ok.injEq, gf_val_eq_zero h, mul_eq_zero,
    or_iff_right (mul_ne_zero hpoint hpoint)]

/-! ### The zeros of a locator (R111) -/

theorem gf_add_eq_zero {x y : Gf c} : letI := gfField h; x + y = 0 ↔ x = y :=
  ⟨fun h0 => by_contra fun hne => gf_add_ne_zero h hne h0, fun he => he ▸ gfField_add_self h x⟩

/-- The zeros of the locator whose coefficients are the sum and the product of u and v: its monic form is
(x + u)(x + v). -/
theorem isZeroAt_sum_product (u v : Gf c) {i : Nat} (hi : i ≤ c.q) :
    letI := gfField h; IsZeroAt c (u + v).val (u * v).val i ↔ gfExp h i = u ∨ gfExp h i = v := by
  let := gfField h
  have hfactor : gfExp h i * gfExp h i + (u + v) * gfExp h i + u * v = (gfExp h i + u) * (gfExp h i + v) := by ring
  rw [isZeroAt_iff_monic h _ _ hi, hfactor, mul_eq_zero, gf_add_eq_zero, gf_add_eq_zero]

/-- A zero u of the monic form makes σ1 + u the other one. -/
theorem eq_or_eq_add_of_isZeroAt {a b : Gf c} {i j : Nat} (hi : i ≤ c.q) (hj : j ≤ c.q)
    (hzi : IsZeroAt c a.val b.val i) (hzj : IsZeroAt c a.val b.val j) :
    letI := gfField h; gfExp h i = gfExp h j ∨ gfExp h i = a + gfExp h j := by
  let := gfField h
  set u := gfExp h j
  have htwice := gfField_add_self h u
  have hsum : u + (a + u) = a := by linear_combination htwice
  have hproduct : u * (a + u) = b := by
    linear_combination (isZeroAt_iff_monic h a b hj).mp hzj - gfField_add_self h b
  rw [← isZeroAt_sum_product h _ _ hi, hsum, hproduct]
  exact hzi

include h

theorem not_isZeroAt_zero {i : Nat} (hi : i ≤ c.q) : ¬ IsZeroAt c 0 0 i := by
  let := gfField h
  have hzero := isZeroAt_sum_product h 0 0 hi
  rw [add_zero, mul_zero] at hzero
  exact hzero.not.mpr (by simp [gfExp_ne_zero h i])

theorem isZeroAt_single {i p : Nat} (hi : i < c.q) (hp : p < c.q) : IsZeroAt c (gfPow c p) 0 i ↔ i = p := by
  let := gfField h
  have hzero := isZeroAt_sum_product h (gfExp h p) 0 hi.le
  rw [add_zero, mul_zero, or_iff_left (gfExp_ne_zero h i), ← gfPow_val h] at hzero
  exact hzero.trans ⟨gfExp_inj h hi hp, congrArg (gfExp h)⟩

/-- With p = r the locator is a square, and p its one zero. -/
theorem isZeroAt_pair {i p r : Nat} (hi : i < c.q) (hp : p < c.q) (hr : r < c.q) :
    IsZeroAt c (gfAdd (gfPow c p) (gfPow c r)) (gfPow c (p + r)) i ↔ i = p ∨ i = r := by
  let := gfField h
  have hzero := isZeroAt_sum_product h (gfExp h p) (gfExp h r) hi.le
  rw [← gfExp_add, ← gfPow_val h, ← gfAdd_val, ← gfPow_val h, ← gfPow_val h] at hzero
  exact hzero.trans (or_congr ⟨gfExp_inj h hi hp, congrArg (gfExp h)⟩ ⟨gfExp_inj h hi hr, congrArg (gfExp h)⟩)

end

/-! ### The search (R107, R108) -/

theorem popcount_eq_card {w v : Nat} {S : Finset Nat} (hS : ∀ i, i ∈ S ↔ i < w ∧ v.testBit i = true) :
    popcount w v = S.card := by
  have hfilter : ((List.range w).filter fun i => v.testBit i).toFinset = S := by ext i; simp [hS]
  rw [← hfilter, List.toFinset_card_of_nodup (List.nodup_range.filter _), popcount]

section
variable {c : Config} (h : FieldOk c) {a b : Nat} (ha : a < 2 ^ c.m) (hb : b < 2 ^ c.m)
include h ha hb

/-- The search answers the mask of the zeros and their number. -/
theorem exists_scan (n : Nat) :
    ∃ mask < 2 ^ n, scan c a b n = .ok (mask, popcount n mask) ∧
      ∀ i < n, (mask.testBit i = true ↔ IsZeroAt c a b i) := by
  let := gfField h
  obtain ⟨mask, hscan, hlt, hbit⟩ := scan_val h ⟨a, ha⟩ ⟨b, hb⟩ n
  refine ⟨mask, hlt, hscan, fun i hi => (hbit i hi).trans ?_⟩
  have hvalue := lambdaAt_val h ⟨a, ha⟩ ⟨b, hb⟩ (gfExp h (c.q - i))
  rw [IsZeroAt, pointOf_val h, hvalue, Except.ok.injEq, gf_val_eq_zero h]

/-- Where S is the set of the zeros below n, the search answers the mask with the bits of S and its size. -/
theorem scan_eq_of_zeros {n mask : Nat} {S : Finset Nat} (hS : ∀ i, i ∈ S ↔ i < n ∧ IsZeroAt c a b i)
    (hmask : ∀ i, mask.testBit i = true ↔ i ∈ S) : scan c a b n = .ok (mask, S.card) := by
  obtain ⟨found, hlt, hscan, hbit⟩ := exists_scan h ha hb n
  have hfound : ∀ i, i ∈ S ↔ i < n ∧ found.testBit i = true := fun i =>
    (hS i).trans (and_congr_right fun hi => (hbit i hi).symm)
  have heq : found = mask := Nat.eq_of_testBit_eq fun i => by
    rw [Bool.eq_iff_iff, hmask, hfound, iff_and_self]
    exact fun hi => Nat.lt_of_not_le fun hle => by
      rw [Nat.testBit_lt_two_pow (hlt.trans_le (Nat.pow_le_pow_right (by decide) hle))] at hi
      cases hi
  rw [hscan, popcount_eq_card hfound, heq]

theorem scan_eq_of_no_zeros {n : Nat} (hzero : ∀ i < n, ¬ IsZeroAt c a b i) : scan c a b n = .ok (0, 0) :=
  scan_eq_of_zeros h ha hb (S := ∅) (by simpa using hzero) (by simp)

theorem scan_eq_of_one_zero {n p : Nat} (hp : p < n) (hzero : ∀ i < n, (IsZeroAt c a b i ↔ i = p)) :
    scan c a b n = .ok (2 ^ p, 1) := by
  refine scan_eq_of_zeros h ha hb (S := {p}) (fun i => ?_) fun i => ?_
  · rw [Finset.mem_singleton, and_congr_right (hzero i), iff_and_self]
    exact fun hi => hi ▸ hp
  · rw [Finset.mem_singleton, Nat.testBit_two_pow, decide_eq_true_iff, eq_comm]

theorem scan_eq_of_two_zeros {n p r : Nat} (hp : p < n) (hr : r < n) (hne : p ≠ r)
    (hzero : ∀ i < n, (IsZeroAt c a b i ↔ i = p ∨ i = r)) : scan c a b n = .ok (2 ^ p ^^^ 2 ^ r, 2) := by
  refine (scan_eq_of_zeros h ha hb (S := {p, r}) (fun i => ?_) fun i => ?_).trans (by rw [Finset.card_pair hne])
  · rw [Finset.mem_insert, Finset.mem_singleton, and_congr_right (hzero i), iff_and_self]
    rintro (rfl | rfl) <;> assumption
  · rw [Finset.mem_insert, Finset.mem_singleton, Nat.testBit_xor, Nat.testBit_two_pow, Nat.testBit_two_pow]
    by_cases hip : i = p
    · simp [hip, hne.symm]
    · simp [hip, Ne.symm hip, eq_comm]

/-- The zeros a search counts have their locators in {u, σ1 + u} for one of them u: one element where σ1 is 0. -/
theorem popcount_zeros_le {n mask : Nat} (hn : n ≤ c.q)
    (hbit : ∀ i < n, (mask.testBit i = true ↔ IsZeroAt c a b i)) :
    popcount n mask ≤ 2 ∧ (a = 0 → popcount n mask ≤ 1) := by
  classical
  let := gfField h
  set S := (Finset.range n).filter (fun i => mask.testBit i) with hS
  have hmem : ∀ i, i ∈ S ↔ i < n ∧ mask.testBit i = true := by simp [hS]
  rw [popcount_eq_card hmem]
  obtain hempty | ⟨j, hj⟩ := S.eq_empty_or_nonempty
  · simp [hempty]
  obtain ⟨hjn, hzj⟩ := (hmem j).mp hj
  have hcard : S.card ≤ ({gfExp h j, ⟨a, ha⟩ + gfExp h j} : Finset (Gf c)).card := by
    refine Finset.card_le_card_of_injOn (gfExp h) (fun i hi => ?_) fun i hi k hk he => ?_
    · obtain ⟨hin, hzi⟩ := (hmem i).mp hi
      simpa using eq_or_eq_add_of_isZeroAt h (a := ⟨a, ha⟩) (b := ⟨b, hb⟩) (hin.le.trans hn) (hjn.le.trans hn)
        ((hbit i hin).mp hzi) ((hbit j hjn).mp hzj)
    · exact gfExp_inj h (((hmem i).mp hi).1.trans_le hn) (((hmem k).mp hk).1.trans_le hn) he
  refine ⟨hcard.trans Finset.card_le_two, fun ha0 => hcard.trans_eq ?_⟩
  have hzero : (⟨a, ha⟩ : Gf c) = 0 := Gf.ext ha0
  rw [hzero, zero_add, Finset.pair_eq_singleton, Finset.card_singleton]

end

/-! ### The search for the locators of no, one and two errors (R111) -/

section
variable {c : Config} (hv : Valid c)
include hv

theorem scan_no_error : scan c 0 0 c.n = .ok (0, 0) :=
  have hf := hv.fieldOk
  scan_eq_of_no_zeros hf (Nat.two_pow_pos _) (Nat.two_pow_pos _) fun _ hi =>
    not_isZeroAt_zero hf (hi.le.trans hv.chkN.2)

theorem scan_single {p : Nat} (hp : p < c.n) : scan c (gfPow c p) 0 c.n = .ok (2 ^ p, 1) :=
  have hf := hv.fieldOk
  have hn := hv.chkN.2
  scan_eq_of_one_zero hf (gfPow_lt hf p) (Nat.two_pow_pos _) hp fun _ hi =>
    isZeroAt_single hf (hi.trans_le hn) (hp.trans_le hn)

/-- On a shortened code the zero can be at a position the search does not reach. -/
theorem scan_single_beyond {p : Nat} (hp : p < c.q) (hpn : ¬ p < c.n) : scan c (gfPow c p) 0 c.n = .ok (0, 0) :=
  have hf := hv.fieldOk
  scan_eq_of_no_zeros hf (gfPow_lt hf p) (Nat.two_pow_pos _) fun _ hi hzero =>
    hpn ((isZeroAt_single hf (hi.trans_le hv.chkN.2) hp).mp hzero ▸ hi)

theorem scan_pair {p r : Nat} (hp : p < c.n) (hr : r < c.n) (hne : p ≠ r) :
    scan c (gfAdd (gfPow c p) (gfPow c r)) (gfPow c (p + r)) c.n = .ok (2 ^ p ^^^ 2 ^ r, 2) :=
  have hf := hv.fieldOk
  have hn := hv.chkN.2
  scan_eq_of_two_zeros hf (gfAdd_lt (gfPow_lt hf p) (gfPow_lt hf r)) (gfPow_lt hf _) hp hr hne fun _ hi =>
    isZeroAt_pair hf (hi.trans_le hn) (hp.trans_le hn) (hr.trans_le hn)

/-- The locator 1 + (α^p·x)² has a double zero, which the search counts once. -/
theorem scan_double {p : Nat} (hp : p < c.n) : scan c 0 (gfPow c (p + p)) c.n = .ok (2 ^ p, 1) := by
  have hf := hv.fieldOk
  have hn := hv.chkN.2
  refine scan_eq_of_one_zero hf (Nat.two_pow_pos _) (gfPow_lt hf _) hp fun i hi => ?_
  have hzero := isZeroAt_pair hf (hi.trans_le hn) (hp.trans_le hn) (hp.trans_le hn)
  rwa [gfAdd, Nat.xor_self, or_self] at hzero

end

/-! ### How CHIEN ends (R106, R108, R109) -/

theorem sigdegOf_of_linear {a : Nat} (ha : a ≠ 0) : sigdegOf a 0 = 1 := by simp [sigdegOf, ha]

theorem sigdegOf_of_quadratic (a : Nat) {b : Nat} (hb : b ≠ 0) : sigdegOf a b = 2 := by simp [sigdegOf, hb]

theorem hostRead_sigdeg (s : State) : hostRead s 0x27 = sigdegOf s.sigma1 s.sigma2 := hostRead_addrOf s .sigdeg

theorem State.Inv.locator {s : State} (hinv : s.Inv) :
    Valid s.cfg ∧ s.sigma1 < 2 ^ s.cfg.m ∧ s.sigma2 < 2 ^ s.cfg.m := by
  obtain ⟨hv, ⟨-, -, -, -, -, -, -, -, -, hsigma1, hsigma2, -⟩, -⟩ := hinv
  exact ⟨hv, hsigma1, hsigma2⟩

section
variable {s : State} {c : Config} {a b mask cnt : Nat} (hc : s.cfg = c) (h1 : s.sigma1 = a) (h2 : s.sigma2 = b)
  (hscan : scan c a b c.n = .ok (mask, cnt))
include hc h1 h2 hscan

theorem execChien_ok (hd : cnt = sigdegOf a b) :
    exec .chien s = .next (finish .ok 0x22 { s with errmask := mask, errcnt := cnt }) := by
  subst hc h1 h2
  exact execChien_next.mpr ⟨_, hscan, .inr ⟨hd, rfl⟩⟩

theorem execChien_mismatch (hd : cnt ≠ sigdegOf a b) :
    exec .chien s = .next (finish .miscorrectionDetected 0x22 { s with errmask := 0, errcnt := cnt }) := by
  subst hc h1 h2
  exact execChien_next.mpr ⟨_, hscan, .inl ⟨hd, rfl⟩⟩

theorem execChien_endsAs_ok (hd : cnt = sigdegOf a b) :
    EndsAs (exec .chien s) { s with errmask := mask, errcnt := cnt } 0 0x22 := by
  rw [execChien_ok hc h1 h2 hscan hd]
  exact EndsAs.of_finish .ok 0x22 _

theorem execChien_endsAs_mismatch (hd : cnt ≠ sigdegOf a b) :
    EndsAs (exec .chien s) { s with errmask := 0, errcnt := cnt } 4 0x22 := by
  rw [execChien_mismatch hc h1 h2 hscan hd]
  exact EndsAs.of_finish .miscorrectionDetected 0x22 _

/-- Whatever the root-count check says, ERRCNT is the number of zeros found. -/
theorem execChien_errcnt {t : State} (ht : exec .chien s = .next t) : t.errcnt = cnt := by
  by_cases hd : cnt = sigdegOf a b
  · obtain rfl := Host.Outcome.next.inj (ht.symm.trans (execChien_ok hc h1 h2 hscan hd))
    rfl
  · obtain rfl := Host.Outcome.next.inj (ht.symm.trans (execChien_mismatch hc h1 h2 hscan hd))
    rfl

end

/-! ### The obligations -/

/-- Settles O45: the search answers the mask of the zeros and their number, from every state with Inv, and CHIEN is
`done` by its root-count check. With σ1 = 0 the monic form is a square, which has one zero at most. The worked pair
(9, 8) is the locator of errors at 0 and 3. -/
theorem chienFindsTheZerosOfTheLocator : Obligations.ChienFindsTheZerosOfTheLocator := by
  unfold Obligations.ChienFindsTheZerosOfTheLocator
  have hworked : scan Config.worked 9 8 Config.worked.n = .ok (0x0009, 2) :=
    scan_pair (by decide) (p := 0) (r := 3) (by decide) (by decide) (by decide)
  refine ⟨by decide, fun s hinv => ?_, fun s ⟨hv, _⟩ h1 h2 => execChien_endsAs_ok rfl h1 h2 (scan_no_error hv) rfl,
    fun s hinv h1 h2 => ?_, fun s hc h1 h2 => execChien_endsAs_ok hc h1 h2 hworked rfl,
    fun s t hc h1 h2 hs ht => ?_, fun s t v hv h => ?_⟩
  · obtain ⟨hv, ha, hb⟩ := hinv.locator
    obtain ⟨mask, hlt, hscan, hbit⟩ := exists_scan hv.fieldOk ha hb s.cfg.n
    rw [hostRead_sigdeg]
    exact ⟨mask, hlt, hbit, execChien_endsAs_ok rfl rfl rfl hscan, execChien_endsAs_mismatch rfl rfl rfl hscan⟩
  · obtain ⟨hv, ha, hb⟩ := hinv.locator
    obtain ⟨mask, -, hscan, hbit⟩ := exists_scan hv.fieldOk ha hb s.cfg.n
    obtain ⟨-, hone⟩ := popcount_zeros_le hv.fieldOk ha hb hv.chkN.2 hbit
    have hcnt := hone h1
    have hd : popcount s.cfg.n mask ≠ sigdegOf s.sigma1 s.sigma2 := by
      rw [sigdegOf_of_quadratic _ h2]
      omega
    exact ⟨_, execChien_mismatch rfl rfl rfl hscan hd, codeOf_finish .miscorrectionDetected _ _, hcnt⟩
  · obtain rfl := Host.Outcome.next.inj (ht.symm.trans (execChien_ok hc h1 h2 hworked rfl))
    exact statusWith_of_legal hs .ok 0x22
  · obtain hexec | hcode := exec_or_illegal_of_op (i := .chien) (by decide) hv h
    · obtain ⟨found, -, ⟨-, rfl⟩ | ⟨-, rfl⟩⟩ := execChien_next.mp hexec
      · exact .inr (.inl (codeOf_finish .miscorrectionDetected _ _))
      · exact .inl (codeOf_finish .ok _ _)
    · exact .inr (.inr hcode)

/-- Settles O46: both forms are values of the field, where α^(-i)·α^i = 1. -/
theorem reciprocalAndMonicLocatorAgree : Obligations.ReciprocalAndMonicLocatorAgree := by
  unfold Obligations.ReciprocalAndMonicLocatorAgree
  intro c a b i hv ha hb hi
  have hf := hv.fieldOk
  have hiq : i ≤ c.q := hi.le.trans hv.chkN.2
  let := gfField hf
  obtain ⟨a, rfl⟩ : ∃ x : Gf c, x.val = a := ⟨⟨a, ha⟩, rfl⟩
  obtain ⟨b, rfl⟩ : ∃ x : Gf c, x.val = b := ⟨⟨b, hb⟩, rfl⟩
  rw [gfPow_val hf, gfMul_val hf, gfMul_val hf]
  refine ⟨_, _, (gfExp hf i * gfExp hf i + a * gfExp hf i + b).val, _, rfl, rfl, rfl, lambdaAt_pointOf hf a b hiq, ?_,
    (isZeroAt_iff_monic hf a b hiq).trans (gf_val_eq_zero hf).symm⟩
  rw [pointOf_val hf, gfMul_val hf]
  exact gfMul_val hf (gfExp hf (c.q - i) * gfExp hf (c.q - i)) _

/-- Settles O47: a quadratic has at most two zeros, and for the locators of no, one and two errors the zeros below N are
their positions. The worked pairs are the locator of an error at 1, the square with the zero 0, and the locator of an
error at 13. -/
theorem chienRootFacts : Obligations.ChienRootFacts := by
  unfold Obligations.ChienRootFacts
  simp only [hostRead_sigdeg]
  refine ⟨fun s t hinv ht => ?_, fun s ⟨hv, _⟩ h1 h2 => ?_, fun s p ⟨hv, _⟩ hp h1 h2 => ?_, fun s hinv h2 h1 => ?_,
    fun s p r ⟨hv, _⟩ hp hr hne h1 h2 => ?_, fun s hc h1 h2 => ?_, fun s hc h1 h2 => ?_, fun s hc h1 h2 => ?_⟩
  · obtain ⟨hv, ha, hb⟩ := hinv.locator
    obtain ⟨mask, -, hscan, hbit⟩ := exists_scan hv.fieldOk ha hb s.cfg.n
    rw [execChien_errcnt rfl rfl rfl hscan ht]
    exact (popcount_zeros_le hv.fieldOk ha hb hv.chkN.2 hbit).1
  · rw [h1, h2]
    exact ⟨rfl, _, execChien_ok rfl h1 h2 (scan_no_error hv) rfl, codeOf_finish .ok _ _, rfl, rfl⟩
  · have hd := sigdegOf_of_linear (gfPow_ne_zero hv.fieldOk p)
    rw [h1, h2]
    exact ⟨hd, _, execChien_ok rfl h1 h2 (scan_single hv hp) hd.symm, codeOf_finish .ok _ _, rfl, rfl⟩
  · obtain ⟨hv, ha, -⟩ := hinv.locator
    have hf := hv.fieldOk
    obtain ⟨p, hp, hlog⟩ := exists_expEntry hf h1 ha
    have hsigma1 : s.sigma1 = gfPow s.cfg p := by rw [gfPow_eq hf, hlog]
    have hd := sigdegOf_of_linear (gfPow_ne_zero hf p)
    refine ⟨p, hp, hlog ▸ logOf_expEntry hf hp, fun hpn => ?_, fun hpn => ?_⟩
    · exact ⟨_, execChien_ok rfl hsigma1 h2 (scan_single hv hpn) hd.symm, codeOf_finish .ok _ _, rfl, rfl⟩
    · exact ⟨_, execChien_mismatch rfl hsigma1 h2 (scan_single_beyond hv hp hpn) (by omega),
        codeOf_finish .miscorrectionDetected _ _, rfl, rfl⟩
  · have hd := sigdegOf_of_quadratic s.sigma1 (gfPow_ne_zero hv.fieldOk (p + r))
    rw [h2]
    exact ⟨hd, _, execChien_ok rfl rfl h2 (h1 ▸ scan_pair hv hp hr hne) hd.symm, codeOf_finish .ok _ _, rfl, rfl⟩
  · exact execChien_endsAs_ok hc h1 h2 (scan_single (by decide) (p := 1) (by decide)) rfl
  · exact execChien_endsAs_mismatch hc h1 h2 (scan_double (by decide) (p := 0) (by decide)) (by decide)
  · exact execChien_endsAs_mismatch hc h1 h2 (scan_single_beyond (by decide) (p := 13) (by decide) (by decide))
      (by decide)

end Sys2Proof.Machine
end

section
/-!
CORRECT (spec/45_corrector.md R112, R113): CORR is the xor of RX with the mask, so each bit of RX is flipped exactly
where the mask has a 1, and the xor of RX with CORR gives the mask back.
-/

namespace Sys2Proof.Machine

theorem execCorrect_endsAs (s : State) : EndsAs (exec .correct s) { s with corr := s.rx ^^^ s.errmask } 0 0x23 :=
  EndsAs.of_done .ok .correct _

/-- Settles O48: CORRECT is `done` with the xor of RX and the mask, which is bitwise, has 0 as its unit and cancels. -/
theorem correctFlipsTheMaskedBits : Obligations.CorrectFlipsTheMaskedBits := by
  unfold Obligations.CorrectFlipsTheMaskedBits
  refine ⟨by decide, execCorrect_endsAs, fun s t h => ?_, fun s t v hv h => ?_⟩
  · obtain rfl := execCorrect_next.mp h
    refine ⟨Nat.testBit_xor _ _, fun hmask => ?_, rfl, rfl, Nat.xor_xor_cancel_left _ _, fun hrx hmask => ?_⟩
    · simp [hmask]
    · simp [hrx, hmask]
  · refine (exec_or_illegal_of_op (i := .correct) (by decide) hv h).imp_left fun hexec => ?_
    obtain rfl := execCorrect_next.mp hexec
    exact codeOf_finish .ok _ _

end Sys2Proof.Machine
end

section
/-!
The decode pipeline (spec/46_decode.md R114 to R117): each way DECODE can end is one equation. On the registers it is
SYNDROME, SOLVE, CHIEN and CORRECT in turn, and on a codeword with at most two errors it ends in the correction.
-/

namespace Sys2Proof.Machine

/-! ### Command words written to CMD (R64, R67, R74) -/

theorem decode_commandWord_decode (len : BitVec 16) : decode (commandWord len .decode) = .ok (.decode len) := by
  obtain ⟨hop, hrsv, hlen⟩ := commandWord_fields len .decode
  simp [decode, hop, hrsv, hlen]

/-- A command word written to CMD runs its command. -/
theorem hostWrite_cmd_of_decode {w : Word} {i : Instr} (s : State) (h : decode w = .ok i) :
    hostWrite 0x00 w.toNat s = exec i s := by
  have hword : BitVec.ofNat 32 (w.toNat % 2 ^ 32) = w := by
    rw [Nat.mod_eq_of_lt w.isLt, BitVec.ofNat_toNat, BitVec.setWidth_eq]
  exact ((hostWrite_cmd s _).trans (by rw [hword])).trans (execute_ok s h)

theorem hostWrite_msg (s : State) {v : Nat} (h : v < 2 ^ s.cfg.k) :
    hostWrite 0x10 v s = .next { s with msg := v } :=
  (hostWrite_addrOf s v (r := .msg) rfl).trans (by rw [storeReg, widthOf, Nat.mod_eq_of_lt h])

theorem hostWrite_rx (s : State) {v : Nat} (h : v < 2 ^ s.cfg.n) :
    hostWrite 0x12 v s = .next { s with rx := v } :=
  (hostWrite_addrOf s v (r := .rx) rfl).trans (by rw [storeReg, widthOf, Nat.mod_eq_of_lt h])

/-- The LEN a mnemonic fills in fits its field. -/
theorem Valid.toNat_pseudoLen {c : Config} (hv : Valid c) (op : Opcode) :
    (BitVec.ofNat 16 (pseudoLen c op)).toNat = pseudoLen c op := by
  rw [BitVec.toNat_ofNat, Nat.mod_eq_of_lt (hv.pseudoLen_lt op)]

theorem EndsAs.of_next {o : Result} {code : ResultCode} {op : Byte} {s : State} (h : o = .next (finish code op s)) :
    EndsAs o s code.value.toNat op := h ▸ EndsAs.of_finish code op s

/-! ### What DECODE computes, on every received word (R94, R100) -/

theorem exists_syndromesOf {c : Config} (h : FieldOk c) (r : Nat) :
    ∃ y, syndromesOf c r = .ok y ∧ y.s1 < 2 ^ c.m ∧ y.s2 < 2 ^ c.m ∧ y.s3 < 2 ^ c.m :=
  ⟨_, syndromesOf_val h r, Gf.lt _, Gf.lt _, Gf.lt _⟩

/-- Cramer's rule answers σ1 = S1 and a σ2 which is a field element. -/
theorem exists_locatorOf {c : Config} (h : FieldOk c) {y : Syndromes} (h0 : y.s1 ≠ 0) (h1 : y.s1 < 2 ^ c.m)
    (h2 : y.s2 < 2 ^ c.m) (h3 : y.s3 < 2 ^ c.m) :
    ∃ sigma2 < 2 ^ c.m, locatorOf c y = .ok (y.s1, sigma2) ∧
      ∃ dinv s1s2, gfInv c y.s1 = .ok dinv ∧ gfMul c y.s1 y.s2 = .ok s1s2 ∧
        gfMul c (gfAdd y.s3 s1s2) dinv = .ok sigma2 := by
  let := gfField h
  have ha : (⟨y.s1, h1⟩ : Gf c) ≠ 0 := fun ha => h0 (congrArg Gf.val ha)
  exact ⟨_, Gf.lt _, locatorOf_eq h ⟨y.s2, h2⟩ ⟨y.s3, h3⟩ y.s4 ha, _, _, gfInv_val h ⟨y.s1, h1⟩ h0,
    gfMul_val h ⟨y.s1, h1⟩ ⟨y.s2, h2⟩, gfMul_val h (⟨y.s3, h3⟩ + ⟨y.s1, h1⟩ * ⟨y.s2, h2⟩) _⟩

/-! ### How DECODE ends (R114) -/

/-- With S1 not 0, SIGDEG is 2 or 1 by σ2 alone (R38). -/
theorem sigdegOf_of_ne_zero {a : Nat} (ha : a ≠ 0) (b : Nat) : sigdegOf a b = if b ≠ 0 then 2 else 1 := by
  simp [sigdegOf, ha]

section
variable {len : BitVec 16} {s : State} (hlen : len.toNat = s.cfg.n)
include hlen

theorem execDecode_noError (hy : syndromesOf s.cfg s.rx = .ok ⟨0, 0, 0, 0⟩) :
    exec (.decode len) s = .next (finish .ok 0x30
      { s with syn1 := 0, syn2 := 0, syn3 := 0, syn4 := 0, det := 0, sigma1 := 0, sigma2 := 0, errmask := 0,
               errcnt := 0, corr := s.rx }) :=
  execDecode_next.mpr (.inl ⟨hlen, _, hy, .noError ⟨rfl, rfl, rfl, rfl⟩ rfl⟩)

variable {y : Syndromes} (hy : syndromesOf s.cfg s.rx = .ok y)
include hy

theorem execDecode_singular (h1 : y.s1 = 0) (h : ¬ (y.s2 = 0 ∧ y.s3 = 0 ∧ y.s4 = 0)) :
    exec (.decode len) s = .next (finish .uncorrectable 0x30
      { s with syn1 := y.s1, syn2 := y.s2, syn3 := y.s3, syn4 := y.s4, det := 0, sigma1 := 0, sigma2 := 0,
               errmask := 0, errcnt := 0, corr := s.rx }) :=
  execDecode_next.mpr (.inl ⟨hlen, y, hy, .singular (fun h0 => h h0.2) h1 (by rw [h1])⟩)

variable (h1 : y.s1 ≠ 0) {p found : Nat × Nat} (hp : locatorOf s.cfg y = .ok p)
  (hscan : scan s.cfg p.1 p.2 s.cfg.n = .ok found)
include h1 hp hscan

theorem execDecode_mismatch (hd : found.2 ≠ sigdegOf p.1 p.2) :
    exec (.decode len) s = .next (finish .miscorrectionDetected 0x30
      { s with syn1 := y.s1, syn2 := y.s2, syn3 := y.s3, syn4 := y.s4, det := y.s1, sigma1 := p.1, sigma2 := p.2,
               errmask := 0, errcnt := found.2, corr := s.rx }) :=
  execDecode_next.mpr (.inl ⟨hlen, y, hy, .mismatch h1 p found hp hscan hd rfl⟩)

theorem execDecode_corrected (hd : found.2 = sigdegOf p.1 p.2) :
    exec (.decode len) s = .next (finish .ok 0x30
      { s with syn1 := y.s1, syn2 := y.s2, syn3 := y.s3, syn4 := y.s4, det := y.s1, sigma1 := p.1, sigma2 := p.2,
               errmask := found.1, errcnt := found.2, corr := s.rx ^^^ found.1 }) :=
  execDecode_next.mpr (.inl ⟨hlen, y, hy, .corrected h1 p found hp hscan hd rfl⟩)

end

/-- DECODE with LEN = N completes, in one of its four ways (R114). -/
theorem exists_decodeEnds {s : State} (hv : Valid s.cfg) :
    ∃ y t, syndromesOf s.cfg s.rx = .ok y ∧ DecodeEnds s t y := by
  have hf := hv.fieldOk
  obtain ⟨y, hy, hs1, hs2, hs3⟩ := exists_syndromesOf hf s.rx
  by_cases hzero : y.allZero
  · exact ⟨y, _, hy, .noError hzero rfl⟩
  by_cases h1 : y.s1 = 0
  · exact ⟨y, _, hy, .singular hzero h1 rfl⟩
  obtain ⟨sigma2, hlt, hp, -⟩ := exists_locatorOf hf h1 hs1 hs2 hs3
  obtain ⟨mask, -, hscan, -⟩ := exists_scan hf hs1 hlt s.cfg.n
  by_cases hd : popcount s.cfg.n mask = sigdegOf y.s1 sigma2
  · exact ⟨y, _, hy, .corrected h1 _ _ hp hscan hd rfl⟩
  · exact ⟨y, _, hy, .mismatch h1 _ _ hp hscan hd rfl⟩

/-! ### DECODE on a codeword with errors (R116, R117) -/

/-- On a codeword DECODE finds no error. -/
theorem execDecode_codeword {len : BitVec 16} {s : State} (hv : Valid s.cfg) (hlen : len.toNat = s.cfg.n)
    (hw : IsCodeword s.cfg s.rx) :
    exec (.decode len) s = .next (finish .ok 0x30
      { s with syn1 := 0, syn2 := 0, syn3 := 0, syn4 := 0, det := 0, sigma1 := 0, sigma2 := 0, errmask := 0,
               errcnt := 0, corr := s.rx }) :=
  execDecode_noError hlen (hw.syndromesOf_eq_zero hv)

/-- A codeword with an error pattern whose values are the power sums of x and y is corrected, where the search for their
locator finds the pattern. -/
theorem execDecode_powerSums {len : BitVec 16} {s : State} (hv : Valid s.cfg) (hlen : len.toNat = s.cfg.n)
    {v e cnt : Nat} (hw : IsCodeword s.cfg v) (hrx : s.rx = v ^^^ e) {x y : Gf s.cfg} (hne : x ≠ y)
    (hsum : letI := gfField hv.fieldOk; ∀ i ≠ 0, evalAt (gfExp hv.fieldOk i) s.cfg.n e = x ^ i + y ^ i)
    (hscan : letI := gfField hv.fieldOk; scan s.cfg (x + y).val (x * y).val s.cfg.n = .ok (e, cnt))
    (hd : letI := gfField hv.fieldOk; cnt = sigdegOf (x + y).val (x * y).val) :
    ∃ t, exec (.decode len) s = .next t ∧ codeOf t = 0 ∧ t.corr = v ∧ t.errmask = e := by
  let := gfField hv.fieldOk
  have h1 : (x + y).val ≠ 0 := fun h0 => gf_add_ne_zero hv.fieldOk hne (Gf.ext h0)
  have hy := hrx ▸ syndromesOf_powerSums hv hw hsum
  have hcorr : s.rx ^^^ e = v := by rw [hrx, Nat.xor_xor_cancel_right]
  exact ⟨_, execDecode_corrected hlen hy h1 (locatorOf_powerSums hv.fieldOk _ hne) hscan hd, codeOf_finish .ok _ _,
    hcorr, rfl⟩

section
variable {len : BitVec 16} {s : State} (hv : Valid s.cfg) (hlen : len.toNat = s.cfg.n) {v : Nat}
  (hw : IsCodeword s.cfg v)
include hv hlen hw

theorem execDecode_one_error {p : Nat} (hp : p < s.cfg.n) (hrx : s.rx = v ^^^ 2 ^ p) :
    ∃ t, exec (.decode len) s = .next t ∧ codeOf t = 0 ∧ t.corr = v ∧ t.errmask = 2 ^ p := by
  have hf := hv.fieldOk
  let := gfField hf
  refine execDecode_powerSums hv hlen hw hrx (gfExp_ne_zero hf p) (cnt := 1) (fun i hi => ?_) ?_ ?_
  · rw [evalAt_gfExp_flip hf hp, zero_pow hi, add_zero]
  · rw [add_zero, mul_zero, ← gfPow_val hf]
    exact scan_single hv hp
  · rw [add_zero, mul_zero, ← gfPow_val hf]
    exact (sigdegOf_of_linear (gfPow_ne_zero hf p)).symm

theorem execDecode_two_errors {p r : Nat} (hp : p < s.cfg.n) (hr : r < s.cfg.n) (hne : p ≠ r)
    (hrx : s.rx = v ^^^ (2 ^ p ^^^ 2 ^ r)) :
    ∃ t, exec (.decode len) s = .next t ∧ codeOf t = 0 ∧ t.corr = v ∧ t.errmask = 2 ^ p ^^^ 2 ^ r := by
  have hf := hv.fieldOk
  let := gfField hf
  have hlocators : gfExp hf p ≠ gfExp hf r := fun he =>
    hne (gfExp_inj hf (hp.trans_le hv.chkN.2) (hr.trans_le hv.chkN.2) he)
  refine execDecode_powerSums hv hlen hw hrx hlocators (cnt := 2) (fun i _ => ?_) ?_ ?_
  · rw [evalAt_xor (gfField_add_self hf), evalAt_gfExp_flip hf hp, evalAt_gfExp_flip hf hr]
  · rw [← gfAdd_val hf, ← gfExp_add, ← gfPow_val hf, ← gfPow_val hf, ← gfPow_val hf]
    exact scan_pair hv hp hr hne
  · rw [← gfExp_add, ← gfPow_val hf]
    exact (sigdegOf_of_quadratic _ (gfPow_ne_zero hf _)).symm

end

/-! ### Error patterns (R75, R117) -/

theorem patternOf_lt {w : Nat} {ps : List Nat} (hps : ∀ p ∈ ps, p < w) : patternOf ps < 2 ^ w := by
  induction ps using List.reverseRecOn with
  | nil => exact Nat.two_pow_pos w
  | append_singleton ps p ih =>
    rw [patternOf_append_singleton]
    exact Nat.xor_lt_two_pow (ih fun a ha => hps a (List.mem_append_left _ ha))
      (Nat.pow_lt_pow_right (by decide) (hps p (by simp)))

theorem patternOf_one (p : Nat) : patternOf [p] = 2 ^ p := by simp [patternOf, Nat.one_shiftLeft]

theorem patternOf_two (p r : Nat) : patternOf [p, r] = 2 ^ p ^^^ 2 ^ r := by simp [patternOf, Nat.one_shiftLeft]

theorem two_pow_xor_eq_add {p r : Nat} (hne : p ≠ r) : 2 ^ p ^^^ 2 ^ r = 2 ^ p + 2 ^ r := by
  wlog hlt : r < p generalizing p r
  · rw [Nat.xor_comm, Nat.add_comm]
    exact this hne.symm (by omega)
  have hr : 2 ^ r < 2 ^ p := Nat.pow_lt_pow_right (by decide) hlt
  rw [← Nat.one_shiftLeft p, ← shiftLeft_or_eq_xor hr, Nat.or_comm, or_shiftLeft_eq_add hr, one_mul, Nat.one_shiftLeft]

/-- At most two errors at distinct positions below N are corrected, and the mask is their pattern (R117). -/
theorem execDecode_corrects {len : BitVec 16} {s : State} (hv : Valid s.cfg) (hlen : len.toNat = s.cfg.n) {v : Nat}
    (hw : IsCodeword s.cfg v) {ps : List Nat} (hnodup : ps.Nodup) (hlength : ps.length ≤ 2)
    (hps : ∀ p ∈ ps, p < s.cfg.n) (hrx : s.rx = v ^^^ patternOf ps) :
    ∃ t, exec (.decode len) s = .next t ∧ codeOf t = 0 ∧ t.corr = v ∧ t.errmask = patternOf ps := by
  match ps with
  | [] =>
    have hrx : s.rx = v := hrx.trans (Nat.xor_zero v)
    exact ⟨_, execDecode_codeword hv hlen (hrx ▸ hw), codeOf_finish .ok _ _, hrx, rfl⟩
  | [p] =>
    rw [patternOf_one] at hrx ⊢
    exact execDecode_one_error hv hlen hw (hps p (by simp)) hrx
  | [p, r] =>
    rw [patternOf_two] at hrx ⊢
    exact execDecode_two_errors hv hlen hw (hps p (by simp)) (hps r (by simp)) (by simpa using hnodup) hrx
  | _ :: _ :: _ :: _ => simp at hlength

theorem patternOf_eq_sum {ps : List Nat} (hnodup : ps.Nodup) (hlength : ps.length ≤ 2) :
    patternOf ps = (ps.map (2 ^ ·)).sum := by
  match ps with
  | [] => rfl
  | [p] => rw [patternOf_one]; rfl
  | [p, r] => rw [patternOf_two, two_pow_xor_eq_add (by simpa using hnodup)]; rfl
  | _ :: _ :: _ :: _ => simp at hlength

/-! ### DECODE as the sequence of its steps (R115) -/

/-- However DECODE ends, SOLVE, CHIEN and CORRECT after SYNDROME write what it does. After a SOLVE that found no locator
the search has no zeros to find and CORRECT flips nothing. -/
theorem DecodeEnds.exec_steps {s s1 t : State} {y : Syndromes} (hv : Valid s.cfg) (hends : DecodeEnds s t y)
    (hs1 : s1 = finish .ok 0x20 { s with syn1 := y.s1, syn2 := y.s2, syn3 := y.s3, syn4 := y.s4 }) :
    ∃ s2 s3 s4, exec .solve s1 = .next s2 ∧ exec .chien s2 = .next s3 ∧ exec .correct s3 = .next s4 ∧
      exceptStatus t = exceptStatus s4 ∧
      codeOf t = (if codeOf s1 ≠ 0 then codeOf s1 else if codeOf s2 ≠ 0 then codeOf s2
        else if codeOf s3 ≠ 0 then codeOf s3 else codeOf s4) := by
  subst hs1
  have hsearch := scan_no_error hv
  cases hends with
  | noError h ht =>
    subst ht
    exact ⟨_, _, _, execSolve_next.mpr (.inl ⟨h, rfl⟩), execChien_ok rfl rfl rfl hsearch rfl, execCorrect_next.mpr rfl,
      by simp [exceptStatus, h.1], by simp [ResultCode.value]⟩
  | singular h h1 ht =>
    subst ht
    exact ⟨_, _, _, execSolve_next.mpr (.inr (.inl ⟨h1, h, rfl⟩)), execChien_ok rfl rfl rfl hsearch rfl,
      execCorrect_next.mpr rfl, by simp [exceptStatus], by simp [ResultCode.value]⟩
  | mismatch h1 p found hp hs hd ht =>
    subst ht
    exact ⟨_, _, _, execSolve_next.mpr (.inr (.inr ⟨h1, p, hp, rfl⟩)), execChien_mismatch rfl rfl rfl hs hd,
      execCorrect_next.mpr rfl, by simp [exceptStatus], by simp [ResultCode.value]⟩
  | corrected h1 p found hp hs hd ht =>
    subst ht
    exact ⟨_, _, _, execSolve_next.mpr (.inr (.inr ⟨h1, p, hp, rfl⟩)), execChien_ok rfl rfl rfl hs hd,
      execCorrect_next.mpr rfl, rfl, by simp [ResultCode.value]⟩

/-! ### The obligations -/

/-- Settles O50: DECODE ends in one of its four ways, and in each the four commands answer from the same syndromes,
locator and search. -/
theorem decodeIsTheSequenceOfItsSteps : Obligations.DecodeIsTheSequenceOfItsSteps := by
  unfold Obligations.DecodeIsTheSequenceOfItsSteps
  intro len s ⟨hv, _⟩ hlen
  obtain ⟨y, t, hy, hends⟩ := exists_decodeEnds hv
  obtain ⟨s2, s3, s4, hsteps⟩ := hends.exec_steps hv rfl
  exact ⟨t, _, s2, s3, s4, execDecode_next.mpr (.inl ⟨hlen, y, hy, hends⟩),
    execSyndrome_next.mpr (.inl ⟨hlen, y, hy, rfl⟩), hsteps⟩

/-- Settles O51: ENCODE leaves a codeword in CW with the message in its high bits, and DECODE finds no error in it. -/
theorem roundTripRecoversTheMessage : Obligations.RoundTripRecoversTheMessage := by
  unfold Obligations.RoundTripRecoversTheMessage
  intro s m ⟨hv, _⟩ hm
  have hw := isCodeword_codewordOf hv hm
  have hread : codewordOf s.cfg m / 2 ^ (s.cfg.n - s.cfg.k) = m := by
    rw [← Nat.shiftRight_eq_div_pow, codewordOf_shiftRight hv]
  exact ⟨_, _, _, _, hostWrite_msg s hm,
    (hostWrite_cmd_of_decode _ (decode_commandWord_encode _)).trans
      (execEncode_next.mpr (.inl ⟨hv.toNat_pseudoLen .encode, rfl⟩)),
    hostWrite_rx (finish .ok 0x10 { s with msg := m, cw := codewordOf s.cfg m }) hw.1,
    (hostWrite_cmd_of_decode _ (decode_commandWord_decode _)).trans
      (execDecode_codeword hv (hv.toNat_pseudoLen .decode) hw),
    codeOf_finish .ok _ _, rfl, rfl, hread⟩

/-- Settles O52: WR RX stores the whole word, and DECODE corrects it. -/
theorem decodeCorrectsUpToTwoErrors : Obligations.DecodeCorrectsUpToTwoErrors := by
  unfold Obligations.DecodeCorrectsUpToTwoErrors
  intro s v ps ⟨hv, _⟩ hw hnodup hlength hps
  have hlt : v ^^^ patternOf ps < 2 ^ s.cfg.n := Nat.xor_lt_two_pow hw.1 (patternOf_lt hps)
  obtain ⟨t, ht, hcode, hcorr, hmask⟩ := execDecode_corrects (s := { s with rx := v ^^^ patternOf ps }) hv
    (hv.toNat_pseudoLen .decode) hw hnodup hlength hps rfl
  exact ⟨_, t, hostWrite_rx s hlt, (hostWrite_cmd_of_decode _ (decode_commandWord_decode _)).trans ht, hcode, hcorr,
    hmask, hmask.trans (patternOf_eq_sum hnodup hlength)⟩

/-- Settles O49: the syndromes, Cramer's rule and the search answer on every received word, and each ending of DECODE is
one equation. The worked word is a codeword with errors at 0 and 3. -/
theorem decodeRunsThePipeline : Obligations.DecodeRunsThePipeline := by
  unfold Obligations.DecodeRunsThePipeline
  refine ⟨fun c hv => ?_, fun len s hlen => EndsAs.of_next (execDecode_next.mpr (.inr ⟨hlen, rfl⟩)),
    fun len s ⟨hv, _⟩ hlen => ?_,
    fun len s ⟨hv, _⟩ hlen hw => EndsAs.of_next (execDecode_codeword hv hlen hw),
    fun s hc hrx => ?_, fun s t v hv h => ?_⟩
  · have hword : (pseudoWord c .decode).toNat = c.n <<< 16 ||| 0x30 := toNat_pseudoWord hv .decode
    rw [← hword, BitVec.ofNat_toNat, BitVec.setWidth_eq]
    exact decode_commandWord_decode _
  · have hf := hv.fieldOk
    obtain ⟨y, hy, hs1, hs2, hs3⟩ := exists_syndromesOf hf s.rx
    refine ⟨y, hy, fun h => ?_, fun h1 h => EndsAs.of_next (execDecode_singular hlen hy h1 h), fun h1 => ?_⟩
    · obtain ⟨y1, y2, y3, y4⟩ := y
      obtain ⟨rfl, rfl, rfl, rfl⟩ := h
      exact EndsAs.of_next (execDecode_noError hlen hy)
    · obtain ⟨sigma2, hlt, hp, dinv, s1s2, hinv, hmul, hsigma2⟩ := exists_locatorOf hf h1 hs1 hs2 hs3
      obtain ⟨mask, hmask, hscan, hbit⟩ := exists_scan hf hs1 hlt s.cfg.n
      have hdegree := sigdegOf_of_ne_zero h1 sigma2
      exact ⟨sigma2, dinv, s1s2, mask, hinv, hmul, hsigma2, hmask, hbit,
        fun hd => EndsAs.of_next (execDecode_corrected hlen hy h1 hp hscan (hd.trans hdegree.symm)),
        fun hd => EndsAs.of_next (execDecode_mismatch hlen hy h1 hp hscan fun h => hd (h.trans hdegree))⟩
  · have hscan : scan Config.worked 9 8 Config.worked.n = .ok (0x0009, 2) :=
      scan_pair (by decide) (p := 0) (r := 3) (by decide) (by decide) (by decide)
    have hy : syndromesOf s.cfg s.rx = .ok ⟨9, 13, 11, 14⟩ := by rw [hc, hrx]; decide
    have hp : locatorOf s.cfg ⟨9, 13, 11, 14⟩ = .ok (9, 8) := by rw [hc]; decide
    have hcorr : s.rx ^^^ 0x0009 = 0x55E5 := by rw [hrx]; rfl
    rw [← hcorr]
    exact EndsAs.of_next (execDecode_corrected (len := 15) (by rw [hc]; rfl) hy (by decide) hp (hc ▸ hscan) rfl)
  · obtain ⟨i, hop, hi⟩ | hcode := exec_of_opcode_or_illegal (op := .decode) hv h
    · cases i <;> cases hop
      obtain ⟨-, y, -, hends⟩ | ⟨-, rfl⟩ := execDecode_next.mp hi
      · cases hends with
        | noError _ ht | corrected _ _ _ _ _ _ ht => exact .inl (ht ▸ codeOf_finish .ok _ _)
        | singular _ _ ht => exact .inr (.inr (.inl (ht ▸ codeOf_finish .uncorrectable _ _)))
        | mismatch _ _ _ _ _ _ ht => exact .inr (.inr (.inr (.inl (ht ▸ codeOf_finish .miscorrectionDetected _ _))))
      · exact .inr (.inl (codeOf_finish .invalidLength _ _))
    · exact .inr (.inr (.inr (.inr hcode)))

end Sys2Proof.Machine
end

section
/-!
Command words both ways (spec/30_encoding.md R64, R66, R71): a command is its opcode and its length, its word is these
two and RSV = 0, and the decoder reads back what the word was built from.
-/

namespace Sys2Proof

open Machine (lengthOps)

theorem Instr.ext_of_opcode_len {i j : Instr} (hop : i.opcode = j.opcode) (hlen : i.len = j.len) : i = j := by
  cases j with
  | encode len | syndrome len | decode len =>
    cases i <;> cases hop
    exact congrArg _ hlen
  | _ => exact Instr.eq_of_opcode (by decide) hop

theorem encode_eq_commandWord (i : Instr) : encode i = commandWord i.len i.opcode := by cases i <;> rfl

/-- A command whose opcode takes no length has length 0. -/
theorem Instr.takesLength_or_len_eq_zero (i : Instr) : i.opcode.byte ∈ lengthOps ∨ i.len = 0 := by
  cases i with
  | encode len | syndrome len | decode len => simp [Instr.opcode, Opcode.byte, lengthOps]
  | _ => exact .inr rfl

theorem decode_encode (i : Instr) : decode (encode i) = .ok i := by
  rw [encode_eq_commandWord]
  obtain ⟨hop, hrsv, hlen⟩ := commandWord_fields i.len i.opcode
  obtain ⟨j, hj, hjop, hjlen⟩ := decode_ok_of_fields (hop ▸ i.opcode.byte_mem_assignedOps) hrsv
    (by rw [hop, hlen]; exact i.takesLength_or_len_eq_zero)
  rw [hj, Instr.ext_of_opcode_len (Opcode.byte_injective (hjop.trans hop)) (hjlen.trans hlen)]

theorem rsv_of_decode {w : Word} {i : Instr} (h : decode w = .ok i) : rsvField w = 0 := by
  by_contra hrsv
  obtain ⟨e, he⟩ := decode_error_iff.mpr (.inr (.inl hrsv))
  cases h.symm.trans he

theorem encode_of_decode {w : Word} {i : Instr} (h : decode w = .ok i) : encode i = w := by
  conv_rhs => rw [← word_eq_fields w, ← len_of_decode h, rsv_of_decode h, ← byte_of_decode h]
  exact encode_eq_commandWord i

/-- Settles O1: the three fields of a word determine its command, and those of a command its word. -/
theorem decodeAndEncodeAgree : Obligations.DecodeAndEncodeAgree := by
  unfold Obligations.DecodeAndEncodeAgree
  exact ⟨decode_encode, fun w i => encode_of_decode⟩

/-- Settles O2: each word is that of its command. -/
theorem workedCommandWordsDecode : Obligations.WorkedCommandWordsDecode := by
  unfold Obligations.WorkedCommandWordsDecode
  exact ⟨decode_encode .gfAdd, decode_encode .gfMul, decode_encode .gfInv, decode_encode .gfPow,
    decode_encode (.encode 7), decode_encode (.syndrome 15), decode_encode .solve, decode_encode .chien,
    decode_encode .correct, decode_encode (.decode 15)⟩

end Sys2Proof
end

section
/-!
What each command writes and what it reads (spec/10_state.md R28, R35, R40): every command's next state differs from the
state before in its result registers and STATUS alone, so no step changes the configuration.
-/

namespace Sys2Proof.Machine

/-! ### The registers each command writes (R66) -/

section
variable {len : BitVec 16} {s t : State}

theorem execEncode_frame (h : exec (.encode len) s = .next t) : t = { s with cw := t.cw, status := t.status } := by
  obtain ⟨-, rfl⟩ | ⟨-, rfl⟩ := execEncode_next.mp h <;> rfl

theorem execSyndrome_frame (h : exec (.syndrome len) s = .next t) :
    t = { s with syn1 := t.syn1, syn2 := t.syn2, syn3 := t.syn3, syn4 := t.syn4, status := t.status } := by
  obtain ⟨-, y, -, rfl⟩ | ⟨-, rfl⟩ := execSyndrome_next.mp h <;> rfl

theorem execSolve_frame (h : exec .solve s = .next t) :
    t = { s with det := t.det, sigma1 := t.sigma1, sigma2 := t.sigma2, status := t.status } := by
  obtain ⟨-, rfl⟩ | ⟨-, -, rfl⟩ | ⟨-, p, -, rfl⟩ := execSolve_next.mp h <;> rfl

theorem execChien_frame (h : exec .chien s = .next t) :
    t = { s with errmask := t.errmask, errcnt := t.errcnt, status := t.status } := by
  obtain ⟨found, -, ⟨-, rfl⟩ | ⟨-, rfl⟩⟩ := execChien_next.mp h <;> rfl

theorem execCorrect_frame (h : exec .correct s = .next t) : t = { s with corr := t.corr, status := t.status } := by
  obtain rfl := execCorrect_next.mp h
  rfl

theorem execDecode_frame (h : exec (.decode len) s = .next t) :
    t = { s with
      syn1 := t.syn1, syn2 := t.syn2, syn3 := t.syn3, syn4 := t.syn4, det := t.det, sigma1 := t.sigma1,
      sigma2 := t.sigma2, errmask := t.errmask, errcnt := t.errcnt, corr := t.corr, status := t.status } := by
  obtain ⟨-, y, -, hends⟩ | ⟨-, rfl⟩ := execDecode_next.mp h
  · cases hends with
    | noError _ ht | singular _ _ ht | mismatch _ _ _ _ _ _ ht | corrected _ _ _ _ _ _ ht => subst ht; rfl
  · rfl

end

/-- The four field commands (R81 to R84). -/
def fieldCommands : List Instr := [.gfAdd, .gfMul, .gfInv, .gfPow]

theorem execField_frame {i : Instr} (hi : i ∈ fieldCommands) {s t : State} (h : exec i s = .next t) :
    t = { s with gfR := t.gfR, status := t.status } := by
  cases i with
  | gfAdd => obtain rfl := execGfAdd_next.mp h; rfl
  | gfMul => obtain ⟨r, -, rfl⟩ := execGfMul_next.mp h; rfl
  | gfInv => obtain ⟨-, rfl⟩ | ⟨-, r, -, rfl⟩ := execGfInv_next.mp h <;> rfl
  | gfPow => obtain rfl := execGfPow_next.mp h; rfl
  | _ => simp [fieldCommands] at hi

/-- A state with the result registers and STATUS of another (R35 to R40): the registers that a command can write. -/
def withResultsOf (t s : State) : State :=
  { s with
    status := t.status, cw := t.cw, corr := t.corr, syn1 := t.syn1, syn2 := t.syn2, syn3 := t.syn3, syn4 := t.syn4,
    det := t.det, sigma1 := t.sigma1, sigma2 := t.sigma2, errmask := t.errmask, errcnt := t.errcnt, gfR := t.gfR }

/-- No command writes anything but result registers and STATUS. -/
theorem exec_frame {i : Instr} {s t : State} (h : exec i s = .next t) : t = withResultsOf t s := by
  cases i with
  | gfAdd | gfMul | gfInv | gfPow => rw [execField_frame (by simp [fieldCommands]) h]; rfl
  | encode len => rw [execEncode_frame h]; rfl
  | syndrome len => rw [execSyndrome_frame h]; rfl
  | solve => rw [execSolve_frame h]; rfl
  | chien => rw [execChien_frame h]; rfl
  | correct => rw [execCorrect_frame h]; rfl
  | decode len => rw [execDecode_frame h]; rfl

theorem execute_frame {w : Word} {s t : State} (h : execute w s = .next t) : t = withResultsOf t s := by
  obtain ⟨i, -, hi⟩ | ⟨e, -, rfl⟩ := execute_next.mp h
  · exact exec_frame hi
  · rfl

/-- Settles O24: each command's next states write its result registers alone, and those are among the registers of
`withResultsOf`, which leaves what the host writes. -/
theorem codecCommandsWriteOnlyTheirResults : Obligations.CodecCommandsWriteOnlyTheirResults := by
  unfold Obligations.CodecCommandsWriteOnlyTheirResults
  refine ⟨fun _ _ _ => execEncode_frame, fun _ _ _ => execSyndrome_frame, fun _ _ => execSolve_frame,
    fun _ _ => execChien_frame, fun _ _ => execCorrect_frame, fun _ _ _ => execDecode_frame, fun w s t h => ?_⟩
  rw [execute_frame h]
  exact ⟨rfl, rfl, rfl, rfl, rfl, rfl, rfl⟩

/-! ### The configuration (R26, R61) -/

theorem execute_cfg {w : Word} {s t : State} (h : execute w s = .next t) : t.cfg = s.cfg := by
  rw [execute_frame h]
  rfl

@[simp] theorem storeReg_cfg (s : State) (r : Reg) (v : Nat) : (storeReg s r v).cfg = s.cfg := by cases r <;> rfl

theorem hostWrite_cfg {a : Addr} {v : Nat} {s t : State} (h : hostWrite a v s = .next t) : t.cfg = s.cfg := by
  obtain ⟨-, hw⟩ | ⟨r, -, -, rfl⟩ | ⟨-, rfl⟩ := hostWrite_next.mp h
  · exact execute_cfg hw
  · exact storeReg_cfg s r _
  · rfl

theorem issue_cfg {l : HostLine} {s t : State} (h : issue l s = .next t) : t.cfg = s.cfg := by
  cases l with
  | write a v => exact hostWrite_cfg h
  | read a | reset | movRxCw | inject ps => obtain rfl := Host.Outcome.next.inj h; rfl

/-- Settles O20: no host line changes the configuration, a command word among them. -/
theorem theConfigurationNeverChanges : Obligations.TheConfigurationNeverChanges := by
  unfold Obligations.TheConfigurationNeverChanges
  intro s t h
  obtain ⟨-, ⟨-, rfl⟩ | ⟨l, rest, -, hl⟩⟩ := step_next h
  · rfl
  · exact (issue_cfg hl :)

/-! ### The registers a command reads (R40) -/

/-- Settles O22: a field command's next state writes GF_R and STATUS, from the GF registers alone. -/
theorem fieldCommandsTouchOnlyTheirRegisters : Obligations.FieldCommandsTouchOnlyTheirRegisters := by
  unfold Obligations.FieldCommandsTouchOnlyTheirRegisters
  intro i hi s t h
  refine ⟨execField_frame hi h, fun s' hcfg hstatus ha hb he hr => ?_⟩
  cases i with
  | gfAdd =>
    obtain rfl := execGfAdd_next.mp h
    refine execGfAdd_next.mpr ?_
    simp [finish, hstatus, ha, hb]
  | gfMul =>
    obtain ⟨r, hmul, rfl⟩ := execGfMul_next.mp h
    refine execGfMul_next.mpr ⟨r, by rw [hcfg, ha, hb, hmul], ?_⟩
    simp [finish, hstatus]
  | gfInv =>
    obtain ⟨h0, rfl⟩ | ⟨h0, r, hinv, rfl⟩ := execGfInv_next.mp h
    · refine execGfInv_next.mpr (.inl ⟨ha.trans h0, ?_⟩)
      simp [finish, hstatus, ← hr]
    · refine execGfInv_next.mpr (.inr ⟨ha ▸ h0, r, by rw [hcfg, ha, hinv], ?_⟩)
      simp [finish, hstatus]
  | gfPow =>
    obtain rfl := execGfPow_next.mp h
    refine execGfPow_next.mpr ?_
    simp [finish, hstatus, hcfg, he]
  | _ => simp at hi

/-- A state with other values in the GF registers. -/
def withGfRegs (s : State) (a b e r : Nat) : State := { s with gfA := a, gfB := b, gfI := e, gfR := r }

/-- No codec command reads the GF registers or writes them. -/
theorem exec_withGfRegs {i : Instr} (hi : i ∉ fieldCommands) {s t : State} (h : exec i s = .next t) (a b e r : Nat) :
    exec i (withGfRegs s a b e r) = .next (withGfRegs t a b e r) := by
  cases i with
  | gfAdd | gfMul | gfInv | gfPow => simp [fieldCommands] at hi
  | encode len =>
    obtain ⟨hl, rfl⟩ | ⟨hl, rfl⟩ := execEncode_next.mp h
    · exact execEncode_next.mpr (.inl ⟨hl, rfl⟩)
    · exact execEncode_next.mpr (.inr ⟨hl, rfl⟩)
  | syndrome len =>
    obtain ⟨hl, y, hy, rfl⟩ | ⟨hl, rfl⟩ := execSyndrome_next.mp h
    · exact execSyndrome_next.mpr (.inl ⟨hl, y, hy, rfl⟩)
    · exact execSyndrome_next.mpr (.inr ⟨hl, rfl⟩)
  | solve =>
    obtain ⟨h0, rfl⟩ | ⟨h1, h0, rfl⟩ | ⟨h1, p, hp, rfl⟩ := execSolve_next.mp h
    · exact execSolve_next.mpr (.inl ⟨h0, rfl⟩)
    · exact execSolve_next.mpr (.inr (.inl ⟨h1, h0, rfl⟩))
    · exact execSolve_next.mpr (.inr (.inr ⟨h1, p, hp, rfl⟩))
  | chien =>
    obtain ⟨found, hs, ⟨hd, rfl⟩ | ⟨hd, rfl⟩⟩ := execChien_next.mp h
    · exact execChien_next.mpr ⟨found, hs, .inl ⟨hd, rfl⟩⟩
    · exact execChien_next.mpr ⟨found, hs, .inr ⟨hd, rfl⟩⟩
  | correct =>
    obtain rfl := execCorrect_next.mp h
    exact execCorrect_next.mpr rfl
  | decode len =>
    obtain ⟨hl, y, hy, hends⟩ | ⟨hl, rfl⟩ := execDecode_next.mp h
    · refine execDecode_next.mpr (.inl ⟨hl, y, hy, ?_⟩)
      cases hends with
      | noError h0 ht => exact ht ▸ .noError h0 rfl
      | singular h0 h1 ht => exact ht ▸ .singular h0 h1 rfl
      | mismatch h1 p found hp hs hd ht => exact ht ▸ .mismatch h1 p found hp hs hd rfl
      | corrected h1 p found hp hs hd ht => exact ht ▸ .corrected h1 p found hp hs hd rfl
    · exact execDecode_next.mpr (.inr ⟨hl, rfl⟩)

/-- Settles O23: from the same state with any GF registers, its own among them, a codec command answers the same results
and leaves them. -/
theorem codecCommandsIgnoreTheFieldRegisters : Obligations.CodecCommandsIgnoreTheFieldRegisters := by
  unfold Obligations.CodecCommandsIgnoreTheFieldRegisters
  intro i s t hi h
  have hregs := exec_withGfRegs hi h
  have hown : t = withGfRegs t s.gfA s.gfB s.gfI s.gfR :=
    Host.Outcome.next.inj (h.symm.trans (hregs s.gfA s.gfB s.gfI s.gfR))
  exact ⟨(congrArg State.gfA hown :), (congrArg State.gfB hown :), (congrArg State.gfI hown :),
    (congrArg State.gfR hown :), hregs⟩

end Sys2Proof.Machine
end

section
/-!
The least property of G (spec/10_state.md R24, spec/42_syndrome.md R95) and multiplication by polynomials (R76): a
binary polynomial that vanishes at α to α^4 has deg(G) zeros at least, so the words with zero syndromes are the
multiples of G; and gf_mul is the product of polynomials modulo PRIM, since both are linear and agree on powers of x.
-/

namespace Sys2Proof.Machine

/-! ### Words that vanish at α to α^4 (R24, R95) -/

section
variable {c : Config} (hv : Valid c)
include hv

/-- A nonzero binary polynomial that vanishes at α to α^4 vanishes at every root of G, so its degree is no less. -/
theorem degree_gen_le {p w : Nat} (h0 : p ≠ 0) (hw : p < 2 ^ w)
    (hz : letI := gfField hv.fieldOk; ∀ i ∈ [1, 2, 3, 4], evalAt (gfExp hv.fieldOk i) w p = 0) :
    degree c.g ≤ degree p := by
  let := gfField hv.fieldOk
  obtain ⟨ks, hroots, hks, -⟩ := hv.generator
  rw [hroots.degree]
  refine length_le_degree hv.fieldOk h0 hw hks fun j hj => ?_
  obtain ⟨i, hi, s, rfl⟩ := hks.source j hj
  exact evalAt_conjugate hv.fieldOk (hz i hi) s

theorem gen_evalAt_eq_zero {i : Nat} (hi : i ∈ [1, 2, 3, 4]) :
    letI := gfField hv.fieldOk; evalAt (gfExp hv.fieldOk i) (degree c.g + 1) c.g = 0 := by
  let := gfField hv.fieldOk
  rw [← evalAt_widen (w' := c.n) _ (lt_two_pow_degree c.g) (by have := hv.genDegree; omega)]
  exact (isCodeword_gen hv).evalAt_eq_zero hv hi

/-- The remainder of a word that vanishes at α to α^4 does too, and its degree is below deg(G). -/
theorem isCodeword_of_evalAt_eq_zero {r : Nat} (hr : r < 2 ^ c.n)
    (hz : letI := gfField hv.fieldOk; ∀ i ∈ [1, 2, 3, 4], evalAt (gfExp hv.fieldOk i) c.n r = 0) :
    IsCodeword c r := by
  let := gfField hv.fieldOk
  have hg := hv.gen_ne_zero
  set rem := (polyDivmod r c.g).2 with hrem
  have hlt : rem < 2 ^ degree c.g := (polyDivmod_spec hg r).2
  have hremn : rem < 2 ^ c.n := hlt.trans_le (Nat.pow_le_pow_right (by decide) (by have := hv.genDegree; omega))
  have hsum : IsCodeword c (r ^^^ rem) := ⟨Nat.xor_lt_two_pow hr hremn, polyDivmod_xor_remainder hg r⟩
  refine ⟨hr, by_contra fun h0 => ?_⟩
  have hdeg := degree_gen_le hv h0 hremn fun i hi => by
    have hvalue := hsum.evalAt_eq_zero hv hi
    rwa [evalAt_xor (gfField_add_self hv.fieldOk), hz i hi, zero_add] at hvalue
  have := (degree_lt h0).mpr hlt
  omega

theorem isCodeword_of_syndromesOf_eq_zero {r : Nat} (hr : r < 2 ^ c.n) (hy : syndromesOf c r = .ok ⟨0, 0, 0, 0⟩) :
    IsCodeword c r := by
  let := gfField hv.fieldOk
  rw [syndromesOf_val hv.fieldOk] at hy
  simp only [Except.ok.injEq, Syndromes.mk.injEq, gf_val_eq_zero hv.fieldOk] at hy
  obtain ⟨h1, h2, h3, h4⟩ := hy
  exact isCodeword_of_evalAt_eq_zero hv hr (by simp [h1, h2, h3, h4])

end

/-- Settles O37: each root of G is α^(i·2^s) for an i of 1 to 4, and a binary polynomial that vanishes at α^i vanishes
there too. -/
theorem generatorIsMinimalWithItsRoots : Obligations.GeneratorIsMinimalWithItsRoots := by
  unfold Obligations.GeneratorIsMinimalWithItsRoots
  refine ⟨fun c hv => ⟨fun i hi => ?_, fun p w h0 hw hz => ?_⟩, by decide, by decide, by decide, by decide⟩
  · rw [polyEval_gfPow hv.fieldOk, gen_evalAt_eq_zero hv hi]
    rfl
  · refine degree_gen_le hv h0 hw fun i hi => ?_
    have hvalue := hz i hi
    rwa [polyEval_gfPow hv.fieldOk, Except.ok.injEq, gf_val_eq_zero hv.fieldOk] at hvalue

/-- Settles O40: a multiple of G vanishes where G does, and the remainder of a word that does vanishes there too, with a
degree below deg(G), so it is 0. The xor of two codewords is a codeword, in which DECODE finds no error. -/
theorem zeroSyndromesExactlyOnCodewords : Obligations.ZeroSyndromesExactlyOnCodewords := by
  unfold Obligations.ZeroSyndromesExactlyOnCodewords
  refine ⟨fun c r hv hr => ⟨fun hy => (isCodeword_of_syndromesOf_eq_zero hv hr hy).2,
    fun hrem => IsCodeword.syndromesOf_eq_zero hv ⟨hr, hrem⟩⟩, fun len s v e ⟨hv, _⟩ hlen hw he hrx => ?_⟩
  exact ⟨_, execDecode_codeword hv hlen (hrx ▸ hw.xor hv he), codeOf_finish .ok _ _, rfl, rfl, rfl, rfl, rfl, rfl⟩

/-! ### The product of polynomials modulo PRIM (R24, R76, R78) -/

theorem polyMul_shiftLeft_left (q g : Nat) : polyMul (q <<< 1) g = polyMul q g <<< 1 := by
  unfold polyMul
  induction degree g + 1 with
  | zero => rfl
  | succ n ih =>
    rw [polyMulBits_succ, polyMulBits_succ, ih, Nat.shiftLeft_xor_distrib]
    congr 1
    split
    · rw [← Nat.shiftLeft_add, ← Nat.shiftLeft_add, Nat.add_comm]
    · simp

section
variable {c : Config} (h : FieldOk c)
include h

theorem prim_ne_zero : c.prim ≠ 0 := by
  have := h.prim.1
  have := h.two_le_pow
  omega

theorem degree_prim : degree c.prim = c.m :=
  (Nat.log2_eq_iff (prim_ne_zero h)).mpr h.prim

/-- Shifting a polynomial is one turn of the construction loop on its remainder. -/
theorem polyDivmod_prim_shiftLeft (p : Nat) :
    (polyDivmod (p <<< 1) c.prim).2 = timesX c (polyDivmod p c.prim).2 := by
  have h0 := prim_ne_zero h
  obtain ⟨hp, hr⟩ := polyDivmod_spec h0 p
  set q := (polyDivmod p c.prim).1
  set r := (polyDivmod p c.prim).2
  rw [degree_prim h] at hr
  have hlt : timesX c r < 2 ^ degree c.prim := degree_prim h ▸ timesX_lt h hr
  by_cases hb : (r <<< 1).testBit c.m = true
  · have hone : polyMul 1 c.prim = c.prim := by simpa using polyMul_one_shift 0 c.prim
    have hx : timesX c r = r <<< 1 ^^^ c.prim := if_pos hb
    refine congrArg Prod.snd (polyDivmod_unique h0 (q := q <<< 1 ^^^ 1) ?_ hlt)
    rw [polyMul_xor_left, polyMul_shiftLeft_left, hone, hx, ← hp, Nat.shiftLeft_xor_distrib, Nat.xor_assoc,
      Nat.xor_comm (r <<< 1), Nat.xor_xor_cancel_left]
  · have hx : timesX c r = r <<< 1 := if_neg hb
    refine congrArg Prod.snd (polyDivmod_unique h0 (q := q <<< 1) ?_ hlt)
    rw [polyMul_shiftLeft_left, hx, ← hp, Nat.shiftLeft_xor_distrib]

theorem polyDivmod_prim_shiftLeft_of_lt {a : Nat} (ha : a < 2 ^ c.m) (j : Nat) :
    (polyDivmod (a <<< j) c.prim).2 = (timesX c)^[j] a := by
  induction j with
  | zero => rw [Nat.shiftLeft_zero, polyDivmod_of_lt (prim_ne_zero h) (degree_prim h ▸ ha)]; rfl
  | succ j ih => rw [Nat.shiftLeft_add, polyDivmod_prim_shiftLeft h, ih, Function.iterate_succ_apply']

/-- Below bit M the construction loop only shifts. -/
theorem expEntry_of_lt {j : Nat} (hj : j < c.m) : expEntry c j = 1 <<< j := by
  have hpow := polyDivmod_prim_shiftLeft_of_lt h (expEntry_lt h 0) j
  have hlt : 1 <<< j < 2 ^ degree c.prim := by
    rw [Nat.one_shiftLeft, degree_prim h]
    exact Nat.pow_lt_pow_right (by decide) hj
  rw [expEntry_zero, polyDivmod_of_lt (prim_ne_zero h) hlt] at hpow
  have hloop := iterate_timesX_expEntry c 0 j
  rw [Nat.zero_add, expEntry_zero] at hloop
  exact hloop.symm.trans hpow.symm

/-- Both products add a·x^j for each 1 bit j of the second operand. -/
theorem mulVal_mod_two_pow {a : Nat} (ha : a < 2 ^ c.m) (b : Nat) {n : Nat} (hn : n ≤ c.m) :
    mulVal c a (b % 2 ^ n) = (polyDivmod (polyMulBits a b n) c.prim).2 := by
  induction n with
  | zero =>
    rw [pow_zero, Nat.mod_one, mulVal_zero_right, polyMulBits, polyDivmod_of_lt (prim_ne_zero h) (Nat.two_pow_pos _)]
  | succ n ih =>
    have hpow : b % 2 ^ n < 2 ^ c.m :=
      (Nat.mod_lt _ (Nat.two_pow_pos n)).trans_le (Nat.pow_le_pow_right (by decide) (by omega))
    have hbit : (if b.testBit n then 1 <<< n else 0) < 2 ^ c.m := by
      rw [← expEntry_of_lt h (Nat.lt_of_succ_le hn)]
      split
      · exact expEntry_lt h n
      · exact Nat.two_pow_pos _
    rw [mod_two_pow_succ_xor, polyMulBits_succ, polyDivmod_xor (prim_ne_zero h),
      mulVal_comm h ha (Nat.xor_lt_two_pow hpow hbit), mulVal_xor_left h hpow hbit ha,
      mulVal_comm h hpow ha, mulVal_comm h hbit ha, ih (by omega)]
    congr 1
    split
    · rw [← expEntry_of_lt h (Nat.lt_of_succ_le hn), mulVal_iterate h ha, polyDivmod_prim_shiftLeft_of_lt h ha]
    · rw [mulVal_zero_right, polyDivmod_of_lt (prim_ne_zero h) (Nat.two_pow_pos _)]

theorem mulVal_eq_polyDivmod {a b : Nat} (ha : a < 2 ^ c.m) (hb : b < 2 ^ c.m) :
    mulVal c a b = (polyDivmod (polyMul a b) c.prim).2 := by
  have hn : degree b + 1 ≤ c.m := by
    by_cases h0 : b = 0
    · subst h0
      have := h.range.1
      change 1 ≤ c.m
      omega
    · exact (degree_lt h0).mpr hb
  rw [polyMul, ← mulVal_mod_two_pow h ha b hn, Nat.mod_eq_of_lt (lt_two_pow_degree b)]

end

/-- Settles O31: gf_mul and the product of polynomials modulo PRIM are linear in the second operand, and multiplying by
x^j is j turns of the construction loop for both. -/
theorem gfMulIsPolynomialProductModuloPrim : Obligations.GfMulIsPolynomialProductModuloPrim := by
  unfold Obligations.GfMulIsPolynomialProductModuloPrim
  intro c a b hv ha hb
  rw [gfMul_ok hv.fieldOk ha hb, mulVal_eq_polyDivmod hv.fieldOk ha hb]

end Sys2Proof.Machine
end

section
/-!
The host's writes (spec/20_memory.md R51, R56, R58, R143) and lines (spec/30_encoding.md R73, R75): a write stores one
register of the map and leaves the others, and a step is the next line of the host's program.
-/

namespace Sys2Proof.Machine

/-! ### A stored register and the others (R51, R56, R58) -/

/-- A store reaches no other register but SIGDEG, which is computed. -/
theorem readReg_storeReg_of_ne (s : State) (v : Nat) {r r' : Reg} (hne : r' ≠ r) (hsigdeg : r' ≠ .sigdeg) :
    readReg (storeReg s r v) r' = readReg s r' := by
  revert hne hsigdeg
  cases r' <;> cases r <;> simp [storeReg, readReg]

/-- SIGDEG follows SIGMA1 and SIGMA2 alone (R38). -/
theorem readReg_storeReg_sigdeg (s : State) (v : Nat) {r : Reg} (h1 : r ≠ .sigma1) (h2 : r ≠ .sigma2) :
    readReg (storeReg s r v) .sigdeg = readReg s .sigdeg := by
  revert h1 h2
  cases r <;> simp [storeReg, readReg]

@[simp] theorem storeReg_storeReg (s : State) (r : Reg) (v w : Nat) :
    storeReg (storeReg s r v) r w = storeReg s r w := by cases r <;> rfl

@[simp] theorem storeReg_status (s : State) (r : Reg) (v : Nat) : (storeReg s r v).status = s.status := by
  cases r <;> rfl

/-- At any other address than the stored register's and SIGDEG's a read answers as before. -/
theorem hostRead_storeReg_of_ne (s : State) (v : Nat) {r : Reg} {a : Addr} (ha : a ≠ addrOf r)
    (hsigdeg : a ≠ addrOf .sigdeg) : hostRead (storeReg s r v) a = hostRead s a := by
  cases hreg : regAt? a with
  | none => rw [hostRead_of_unmapped _ hreg, hostRead_of_unmapped _ hreg]
  | some r' =>
    obtain rfl := regAt?_eq_some.mp hreg
    rw [hostRead_addrOf, hostRead_addrOf, readReg_storeReg_of_ne s v (mt (congrArg addrOf) ha)
      (mt (congrArg addrOf) hsigdeg)]

/-- Settles O12: a write stores the reduced value in one register, and storing twice is storing once. -/
theorem readAfterWrite : Obligations.ReadAfterWrite := by
  unfold Obligations.ReadAfterWrite
  intro s r v hr
  refine ⟨_, hostWrite_addrOf s v hr, ?_, fun a ha hsigdeg => hostRead_storeReg_of_ne s _ ha hsigdeg,
    fun h1 h2 => ?_, ?_⟩
  · rw [hostRead_addrOf, readReg_storeReg_same _ _ hr]
  · exact (hostRead_addrOf _ .sigdeg).trans (readReg_storeReg_sigdeg s _ h1 h2)
  · rw [hostWrite_addrOf _ v hr, storeReg_cfg, storeReg_storeReg]

/-- Settles O58: a store leaves STATUS, and ENCODE with LEN = K is `done` with the codeword of the bits stored. -/
theorem overWideMessageIsTruncatedAndEncoded : Obligations.OverWideMessageIsTruncatedAndEncoded := by
  unfold Obligations.OverWideMessageIsTruncatedAndEncoded
  refine ⟨fun s r v hr => ⟨_, hostWrite_addrOf s v hr, ?_, storeReg_status s r _⟩, fun len s v hlen => ?_⟩
  · rw [hostRead_addrOf, readReg_storeReg_same _ _ hr]
  · exact ⟨_, hostWrite_addrOf s v (r := .msg) rfl, rfl, rfl, execEncode_endsAs hlen⟩

/-! ### The lines of the host program (R73, R75) -/

/-- The pattern INJECT flips has a 1 at the positions named an odd number of times. -/
theorem testBit_patternOf (ps : List Nat) (i : Nat) : (patternOf ps).testBit i = (ps.count i % 2 == 1) := by
  induction ps using List.reverseRecOn with
  | nil => simp [patternOf]
  | append_singleton ps p ih =>
    rw [patternOf_append_singleton, Nat.testBit_xor, ih, Nat.testBit_two_pow, List.count_append, List.count_singleton]
    by_cases hp : p = i
    · obtain h | h := Nat.mod_two_eq_zero_or_one (ps.count i) <;> simp [hp, h, Nat.add_mod]
    · simp [hp]

/-- Settles O14: a step of MOV RX, CW or of INJECT is its read, and leaves the write as the next line. -/
theorem macrosExpandToTransactions : Obligations.MacrosExpandToTransactions := by
  unfold Obligations.MacrosExpandToTransactions
  refine ⟨fun s rest hc hp => step_of_program hc hp, fun s ps rest hc hp => ⟨_, step_of_program hc hp, fun i => ?_⟩⟩
  rw [Nat.testBit_xor, testBit_patternOf]
  rfl

/-- Settles O9: a step is `issue` of the next line, on the state whose program has gone on by it. -/
theorem stepRunsTheDecodedCommand : Obligations.StepRunsTheDecodedCommand := by
  unfold Obligations.StepRunsTheDecodedCommand
  refine ⟨fun s v rest hc hp => ⟨fun i hi => ?_, fun e he => ?_⟩, fun s a v rest hc hp => step_of_program hc hp,
    fun s a rest hc hp => step_of_program hc hp, fun s rest hc hp => ⟨_, step_of_program hc hp, rfl, rfl⟩,
    fun s hc hp => step_of_no_program hc hp, fun s hc => if_pos hc⟩
  · exact (step_of_program hc hp).trans (execute_ok _ hi)
  · have hop : opField (BitVec.ofNat 32 v) = BitVec.ofNat 8 v := by
      refine BitVec.eq_of_toNat_eq ?_
      obtain ⟨hfield, -⟩ := toNat_word_fields (BitVec.ofNat 32 v)
      rw [hfield, BitVec.toNat_ofNat, BitVec.toNat_ofNat]
      omega
    rw [step_of_program hc hp, ← hop]
    exact execute_endsAs_of_error _ he

end Sys2Proof.Machine
end

section
/-!
The invariant (spec/10_state.md R46): each command writes values of the registers' widths, from a state that meets it no
field function faults (spec/40_gf2m_arith.md R86), and so every transaction completes and keeps it
(spec/70_reset_and_hazards.md R145).
-/

namespace Sys2Proof.Machine

/-! ### Updates that keep the invariant (R29, R46) -/

theorem statusLegal_statusWith {st : Word} (h : StatusLegal st) (code : ResultCode) (op : Byte) :
    StatusLegal (statusWith st code op) := by
  obtain ⟨-, hlow, hhigh⟩ := h
  exact ⟨by simp [code.value_le], by simp [hlow], by simp [hhigh]⟩

section
variable {s : State} (hinv : s.Inv)
include hinv

theorem State.Inv.finish (code : ResultCode) (op : Byte) : (finish code op s).Inv := by
  obtain ⟨hv, hregs, hstatus⟩ := hinv
  exact ⟨hv, hregs, statusLegal_statusWith hstatus code op⟩

theorem State.Inv.withGfR {v : Nat} (h : v < 2 ^ s.cfg.m) : State.Inv { s with gfR := v } := by
  obtain ⟨hv, hregs, hstatus⟩ := hinv
  exact ⟨hv, by simp_all [State.RegistersInRange], hstatus⟩

theorem State.Inv.withCw {v : Nat} (h : v < 2 ^ s.cfg.n) : State.Inv { s with cw := v } := by
  obtain ⟨hv, hregs, hstatus⟩ := hinv
  exact ⟨hv, by simp_all [State.RegistersInRange], hstatus⟩

theorem State.Inv.withCorr {v : Nat} (h : v < 2 ^ s.cfg.n) : State.Inv { s with corr := v } := by
  obtain ⟨hv, hregs, hstatus⟩ := hinv
  exact ⟨hv, by simp_all [State.RegistersInRange], hstatus⟩

theorem State.Inv.withSyndromes {y : Syndromes}
    (h : y.s1 < 2 ^ s.cfg.m ∧ y.s2 < 2 ^ s.cfg.m ∧ y.s3 < 2 ^ s.cfg.m ∧ y.s4 < 2 ^ s.cfg.m) :
    State.Inv { s with syn1 := y.s1, syn2 := y.s2, syn3 := y.s3, syn4 := y.s4 } := by
  obtain ⟨hv, hregs, hstatus⟩ := hinv
  exact ⟨hv, by simp_all [State.RegistersInRange], hstatus⟩

theorem State.Inv.withLocator {d a b : Nat} (h : d < 2 ^ s.cfg.m ∧ a < 2 ^ s.cfg.m ∧ b < 2 ^ s.cfg.m) :
    State.Inv { s with det := d, sigma1 := a, sigma2 := b } := by
  obtain ⟨hv, hregs, hstatus⟩ := hinv
  exact ⟨hv, by simp_all [State.RegistersInRange], hstatus⟩

theorem State.Inv.withSearch {mask cnt : Nat} (h : mask < 2 ^ s.cfg.n ∧ cnt < 2 ^ 16) :
    State.Inv { s with errmask := mask, errcnt := cnt } := by
  obtain ⟨hv, hregs, hstatus⟩ := hinv
  exact ⟨hv, by simp_all [State.RegistersInRange], hstatus⟩

end

/-! ### What the field functions, the solver and the search answer (R78, R79, R94, R100, R108) -/

section
variable {c : Config} (h : FieldOk c)
include h

theorem gfMul_lt {a b r : Nat} (ha : a < 2 ^ c.m) (hb : b < 2 ^ c.m) (hr : gfMul c a b = .ok r) : r < 2 ^ c.m := by
  obtain rfl := Except.ok.inj (hr.symm.trans (gfMul_ok h ha hb))
  exact mulVal_lt h ha hb

theorem gfInv_lt {a r : Nat} (h0 : a ≠ 0) (ha : a < 2 ^ c.m) (hr : gfInv c a = .ok r) : r < 2 ^ c.m := by
  obtain rfl := Except.ok.inj (hr.symm.trans (gfInv_ok h h0 ha))
  exact invVal_lt h ha

theorem syndromesOf_lt {r : Nat} {y : Syndromes} (hy : syndromesOf c r = .ok y) :
    y.s1 < 2 ^ c.m ∧ y.s2 < 2 ^ c.m ∧ y.s3 < 2 ^ c.m ∧ y.s4 < 2 ^ c.m := by
  obtain rfl := Except.ok.inj (hy.symm.trans (syndromesOf_val h r))
  exact ⟨Gf.lt _, Gf.lt _, Gf.lt _, Gf.lt _⟩

theorem locatorOf_lt {y : Syndromes} {p : Nat × Nat} (h0 : y.s1 ≠ 0)
    (hlt : y.s1 < 2 ^ c.m ∧ y.s2 < 2 ^ c.m ∧ y.s3 < 2 ^ c.m ∧ y.s4 < 2 ^ c.m) (hp : locatorOf c y = .ok p) :
    p.1 = y.s1 ∧ p.2 < 2 ^ c.m := by
  obtain ⟨h1, h2, h3, -⟩ := hlt
  obtain ⟨sigma2, hsigma2, hp', -⟩ := exists_locatorOf h h0 h1 h2 h3
  obtain rfl := Except.ok.inj (hp.symm.trans hp')
  exact ⟨rfl, hsigma2⟩

/-- A search on field elements that answered has found the zeros and counted them. -/
theorem scan_answer {a b n : Nat} {found : Nat × Nat} (ha : a < 2 ^ c.m) (hb : b < 2 ^ c.m)
    (hs : scan c a b n = .ok found) :
    found.1 < 2 ^ n ∧ found.2 = popcount n found.1 ∧ ∀ i < n, (found.1.testBit i = true ↔ IsZeroAt c a b i) := by
  obtain ⟨mask, hlt, hscan, hbit⟩ := exists_scan h ha hb n
  obtain rfl := Except.ok.inj (hs.symm.trans hscan)
  exact ⟨hlt, rfl, hbit⟩

end

/-- The mask fits the N bits of ERRMASK and the count the 16 bits of ERRCNT. -/
theorem scan_lt {c : Config} (hv : Valid c) {a b : Nat} {found : Nat × Nat} (ha : a < 2 ^ c.m) (hb : b < 2 ^ c.m)
    (hs : scan c a b c.n = .ok found) : found.1 < 2 ^ c.n ∧ found.2 < 2 ^ 16 := by
  obtain ⟨hlt, hcnt, -⟩ := scan_answer hv.fieldOk ha hb hs
  exact ⟨hlt, hcnt ▸ (popcount_le _ _).trans_lt (hv.chkN.2.trans_lt hv.q_lt)⟩

/-! ### Every transaction completes (R86, R145) -/

theorem exec_completes {s : State} (hinv : s.Inv) (i : Instr) : Completes (exec i s) := by
  obtain ⟨hv, ⟨-, -, -, -, hsyn1, hsyn2, hsyn3, -, -, hsigma1, hsigma2, -, -, hgfA, hgfB, -⟩, -⟩ := hinv
  have hf := hv.fieldOk
  cases i with
  | gfAdd => exact ⟨_, execGfAdd_next.mpr rfl⟩
  | gfMul => exact ⟨_, execGfMul_next.mpr ⟨_, gfMul_ok hf hgfA hgfB, rfl⟩⟩
  | gfInv =>
    by_cases h0 : s.gfA = 0
    · exact ⟨_, execGfInv_next.mpr (.inl ⟨h0, rfl⟩)⟩
    · exact ⟨_, execGfInv_next.mpr (.inr ⟨h0, _, gfInv_ok hf h0 hgfA, rfl⟩)⟩
  | gfPow => exact ⟨_, execGfPow_next.mpr rfl⟩
  | encode len =>
    by_cases hlen : len.toNat = s.cfg.k
    · exact ⟨_, execEncode_next.mpr (.inl ⟨hlen, rfl⟩)⟩
    · exact ⟨_, execEncode_next.mpr (.inr ⟨hlen, rfl⟩)⟩
  | syndrome len =>
    by_cases hlen : len.toNat = s.cfg.n
    · exact ⟨_, execSyndrome_next.mpr (.inl ⟨hlen, _, syndromesOf_val hf s.rx, rfl⟩)⟩
    · exact ⟨_, execSyndrome_next.mpr (.inr ⟨hlen, rfl⟩)⟩
  | solve =>
    by_cases hzero : s.syn1 = 0 ∧ s.syn2 = 0 ∧ s.syn3 = 0 ∧ s.syn4 = 0
    · exact ⟨_, execSolve_next.mpr (.inl ⟨hzero, rfl⟩)⟩
    by_cases h1 : s.syn1 = 0
    · exact ⟨_, execSolve_next.mpr (.inr (.inl ⟨h1, hzero, rfl⟩))⟩
    · obtain ⟨p, hp⟩ := locatorOf_completes hf s.syn4 h1 hsyn1 hsyn2 hsyn3
      exact ⟨_, execSolve_next.mpr (.inr (.inr ⟨h1, p, hp, rfl⟩))⟩
  | chien =>
    obtain ⟨mask, -, hscan, -⟩ := exists_scan hf hsigma1 hsigma2 s.cfg.n
    by_cases hd : popcount s.cfg.n mask = sigdegOf s.sigma1 s.sigma2
    · exact ⟨_, execChien_ok rfl rfl rfl hscan hd⟩
    · exact ⟨_, execChien_mismatch rfl rfl rfl hscan hd⟩
  | correct => exact ⟨_, execCorrect_next.mpr rfl⟩
  | decode len =>
    by_cases hlen : len.toNat = s.cfg.n
    · obtain ⟨y, t, hy, hends⟩ := exists_decodeEnds hv
      exact ⟨t, execDecode_next.mpr (.inl ⟨hlen, y, hy, hends⟩)⟩
    · exact ⟨_, execDecode_next.mpr (.inr ⟨hlen, rfl⟩)⟩

theorem execute_completes {s : State} (hinv : s.Inv) (w : Word) : Completes (execute w s) := by
  cases hw : decode w with
  | ok i =>
    rw [execute_ok s hw]
    exact exec_completes hinv i
  | error e => exact ⟨_, execute_error s hw⟩

theorem hostWrite_completes {s : State} (hinv : s.Inv) (a : Addr) (v : Nat) : Completes (hostWrite a v s) := by
  cases ha : regAt? a with
  | none => exact ⟨s, hostWrite_of_unmapped s v ha⟩
  | some r =>
    by_cases hr : r = .cmd
    · obtain ⟨t, ht⟩ := execute_completes hinv (BitVec.ofNat 32 v)
      exact ⟨t, hostWrite_next.mpr (.inl ⟨hr ▸ ha, ht⟩)⟩
    · exact ⟨_, hostWrite_next.mpr (.inr (.inl ⟨r, ha, hr, rfl⟩))⟩

theorem issue_completes {s : State} (hinv : s.Inv) (l : HostLine) : Completes (issue l s) := by
  cases l with
  | write a v => exact hostWrite_completes hinv a v
  | read a | reset | movRxCw | inject ps => exact ⟨_, rfl⟩

/-- The host's side is no part of the invariant. -/
theorem State.Inv.withHost {s : State} (hinv : s.Inv) (program : List HostLine) (reads : List Nat) :
    State.Inv { s with program := program, reads := reads } := hinv

theorem State.Inv.not_codeReserved {s : State} (hinv : s.Inv) : ¬ codeReserved s := by
  obtain ⟨-, -, hcode, -⟩ := hinv
  exact Nat.not_lt.mpr hcode

theorem step_completes {s : State} (hinv : s.Inv) : Completes (step s) := by
  cases hp : s.program with
  | nil => exact ⟨s, step_of_no_program hinv.not_codeReserved hp⟩
  | cons l rest =>
    rw [step_of_program hinv.not_codeReserved hp]
    exact issue_completes (hinv.withHost rest s.reads) l

/-- Settles O19: on field elements no field function, search or solver faults, and a legal STATUS is no fault. -/
theorem everyTransactionCompletes : Obligations.EveryTransactionCompletes := by
  unfold Obligations.EveryTransactionCompletes
  exact fun s hinv => ⟨step_completes hinv, execute_completes hinv, exec_completes hinv⟩

/-! ### Every transaction keeps the invariant (R46) -/

/-- However DECODE ends, what it writes is within the registers' widths. -/
theorem DecodeEnds.inv {s t : State} {y : Syndromes} (hinv : s.Inv) (hy : syndromesOf s.cfg s.rx = .ok y)
    (hends : DecodeEnds s t y) : t.Inv := by
  obtain ⟨hv, ⟨-, -, hrx, -⟩, -⟩ := id hinv
  have hf := hv.fieldOk
  have hylt := syndromesOf_lt hf hy
  have hzero : 0 < 2 ^ s.cfg.m := Nat.two_pow_pos _
  have hwrite : ∀ {d a b mask cnt corr : Nat} (code : ResultCode), d < 2 ^ s.cfg.m ∧ a < 2 ^ s.cfg.m ∧ b < 2 ^ s.cfg.m →
      mask < 2 ^ s.cfg.n ∧ cnt < 2 ^ 16 → corr < 2 ^ s.cfg.n →
      State.Inv (finish code 0x30
        { s with syn1 := y.s1, syn2 := y.s2, syn3 := y.s3, syn4 := y.s4, det := d, sigma1 := a, sigma2 := b,
                 errmask := mask, errcnt := cnt, corr := corr }) := fun code hloc hsearch hcorr =>
    ((((hinv.withSyndromes hylt).withLocator hloc).withSearch hsearch).withCorr hcorr).finish code 0x30
  cases hends with
  | noError h ht => exact ht ▸ hwrite .ok ⟨hzero, hzero, hzero⟩ ⟨Nat.two_pow_pos _, by decide⟩ hrx
  | singular h h1 ht =>
    exact ht ▸ hwrite .uncorrectable ⟨hylt.1, hzero, hzero⟩ ⟨Nat.two_pow_pos _, by decide⟩ hrx
  | mismatch h1 p found hp hs hd ht =>
    obtain ⟨hp1, hp2⟩ := locatorOf_lt hf h1 hylt hp
    have hp1 : p.1 < 2 ^ s.cfg.m := hp1 ▸ hylt.1
    obtain ⟨-, hcnt⟩ := scan_lt hv hp1 hp2 hs
    exact ht ▸ hwrite .miscorrectionDetected ⟨hylt.1, hp1, hp2⟩ ⟨Nat.two_pow_pos _, hcnt⟩ hrx
  | corrected h1 p found hp hs hd ht =>
    obtain ⟨hp1, hp2⟩ := locatorOf_lt hf h1 hylt hp
    have hp1 : p.1 < 2 ^ s.cfg.m := hp1 ▸ hylt.1
    obtain ⟨hmask, hcnt⟩ := scan_lt hv hp1 hp2 hs
    exact ht ▸ hwrite .ok ⟨hylt.1, hp1, hp2⟩ ⟨hmask, hcnt⟩ (Nat.xor_lt_two_pow hrx hmask)

theorem State.Inv.exec {i : Instr} {s t : State} (hinv : s.Inv) (h : exec i s = .next t) : t.Inv := by
  obtain ⟨hv, ⟨hmsg, -, hrx, -, hsyn1, hsyn2, hsyn3, hsyn4, -, hsigma1, hsigma2, hmask, -, hgfA, hgfB, -⟩, -⟩ := id hinv
  have hf := hv.fieldOk
  have hzero : 0 < 2 ^ s.cfg.m := Nat.two_pow_pos _
  cases i with
  | gfAdd =>
    obtain rfl := execGfAdd_next.mp h
    exact (hinv.withGfR (gfAdd_lt hgfA hgfB)).finish _ _
  | gfMul =>
    obtain ⟨r, hr, rfl⟩ := execGfMul_next.mp h
    exact (hinv.withGfR (gfMul_lt hf hgfA hgfB hr)).finish _ _
  | gfInv =>
    obtain ⟨-, rfl⟩ | ⟨h0, r, hr, rfl⟩ := execGfInv_next.mp h
    · exact hinv.finish _ _
    · exact (hinv.withGfR (gfInv_lt hf h0 hgfA hr)).finish _ _
  | gfPow =>
    obtain rfl := execGfPow_next.mp h
    exact (hinv.withGfR (gfPow_lt hf _)).finish _ _
  | encode len =>
    obtain ⟨-, rfl⟩ | ⟨-, rfl⟩ := execEncode_next.mp h
    · exact (hinv.withCw (codewordOf_lt hv hmsg)).finish _ _
    · exact hinv.finish _ _
  | syndrome len =>
    obtain ⟨-, y, hy, rfl⟩ | ⟨-, rfl⟩ := execSyndrome_next.mp h
    · exact (hinv.withSyndromes (syndromesOf_lt hf hy)).finish _ _
    · exact hinv.finish _ _
  | solve =>
    obtain ⟨-, rfl⟩ | ⟨-, -, rfl⟩ | ⟨h1, p, hp, rfl⟩ := execSolve_next.mp h
    · exact (hinv.withLocator ⟨hsyn1, hzero, hzero⟩).finish _ _
    · exact (hinv.withLocator ⟨hsyn1, hzero, hzero⟩).finish _ _
    · obtain ⟨hp1, hp2⟩ := locatorOf_lt hf h1 ⟨hsyn1, hsyn2, hsyn3, hsyn4⟩ hp
      exact (hinv.withLocator ⟨hsyn1, hp1 ▸ hsyn1, hp2⟩).finish _ _
  | chien =>
    obtain ⟨found, hs, ⟨-, rfl⟩ | ⟨-, rfl⟩⟩ := execChien_next.mp h
    · exact (hinv.withSearch ⟨Nat.two_pow_pos _, (scan_lt hv hsigma1 hsigma2 hs).2⟩).finish _ _
    · exact (hinv.withSearch (scan_lt hv hsigma1 hsigma2 hs)).finish _ _
  | correct =>
    obtain rfl := execCorrect_next.mp h
    exact (hinv.withCorr (Nat.xor_lt_two_pow hrx hmask)).finish _ _
  | decode len =>
    obtain ⟨-, y, hy, hends⟩ | ⟨-, rfl⟩ := execDecode_next.mp h
    · exact hends.inv hinv hy
    · exact hinv.finish _ _

theorem State.Inv.execute {w : Word} {s t : State} (hinv : s.Inv) (h : execute w s = .next t) : t.Inv := by
  obtain ⟨i, -, hi⟩ | ⟨e, -, rfl⟩ := execute_next.mp h
  · exact hinv.exec hi
  · exact hinv.finish _ _

/-- A register stores values of its width. -/
theorem State.Inv.storeReg {s : State} (hinv : s.Inv) (r : Reg) (v : Nat) :
    (storeReg s r (v % 2 ^ widthOf s.cfg r)).Inv := by
  obtain ⟨hv, hregs, hstatus⟩ := hinv
  have hlt : v % 2 ^ widthOf s.cfg r < 2 ^ widthOf s.cfg r := Nat.mod_lt _ (Nat.two_pow_pos _)
  refine ⟨by rwa [storeReg_cfg], ?_, by rwa [storeReg_status]⟩
  cases r <;> simp_all [State.RegistersInRange, Machine.storeReg, widthOf]

/-- The reset state of a valid configuration meets the invariant (R44). -/
theorem resetOf_inv {c : Config} (hv : Valid c) : (State.resetOf c).Inv :=
  ⟨hv, by simp [State.RegistersInRange, State.resetOf], (by decide : StatusLegal 0)⟩

theorem State.Inv.issue {l : HostLine} {s t : State} (hinv : s.Inv) (h : issue l s = .next t) : t.Inv := by
  cases l with
  | read a | movRxCw | inject ps =>
    obtain rfl := Host.Outcome.next.inj h
    exact hinv.withHost _ _
  | reset =>
    obtain rfl := Host.Outcome.next.inj h
    exact (resetOf_inv hinv.1).withHost _ _
  | write a v =>
    obtain ⟨-, hw⟩ | ⟨r, -, -, rfl⟩ | ⟨-, rfl⟩ := hostWrite_next.mp h
    · exact hinv.execute hw
    · exact hinv.storeReg r v
    · exact hinv

/-- Settles O18: each command writes values within the widths, a store reduces its value, and reset writes 0. -/
theorem everyStepKeepsTheInvariant : Obligations.EveryStepKeepsTheInvariant := by
  unfold Obligations.EveryStepKeepsTheInvariant
  intro s t hinv h
  obtain ⟨-, ⟨-, rfl⟩ | ⟨l, rest, -, hl⟩⟩ := step_next h
  · exact hinv
  · exact (hinv.withHost rest s.reads).issue hl

/-! ### Reset and build (R18, R44, R137) -/

theorem build_ok {c : Config} {s : State} (h : build c = .ok s) : Valid c ∧ s = State.resetOf c := by
  unfold build at h
  split at h
  · cases h
  · next hc => exact ⟨hc, (Except.ok.inj h).symm⟩

/-- Settles O17: a block is built for valid configurations alone, the worked one among them, in the reset state. -/
theorem resetMeetsTheInvariant : Obligations.ResetMeetsTheInvariant := by
  unfold Obligations.ResetMeetsTheInvariant
  refine ⟨resetOf_inv (by decide), fun c s h => ?_⟩
  obtain ⟨hv, rfl⟩ := build_ok h
  exact resetOf_inv hv

/-- Settles O60: the checks of R19 to R21 are the first group. -/
theorem fieldChecksComeFirst : Obligations.FieldChecksComeFirst := by
  unfold Obligations.FieldChecksComeFirst
  intro c hc
  rw [build_eq, if_pos hc]

/-- Settles O21: 0 is a codeword, syndromes of 0 have the locator 0, and GF_INV tests for 0. -/
theorem commandsAfterReset : Obligations.CommandsAfterReset := by
  unfold Obligations.CommandsAfterReset
  intro c hv
  exact ⟨⟨_, execDecode_codeword hv (hv.toNat_pseudoLen .decode) (isCodeword_zero hv), codeOf_finish .ok _ _, rfl, rfl⟩,
    ⟨_, execSolve_next.mpr (.inl ⟨⟨rfl, rfl, rfl, rfl⟩, rfl⟩), codeOf_finish .ok _ _, rfl, rfl⟩,
    _, execGfInv_next.mpr (.inl ⟨rfl, rfl⟩), codeOf_finish .divisionByZero _ _⟩

end Sys2Proof.Machine
end

section
/-!
The result codes (spec/60_exceptions.md R121 to R126, R141): which command ends with which code, exactly when, and
what it has then recorded.
-/

namespace Sys2Proof.Machine

/-! ### The codes of a command (R121) -/

/-- The codes an accepted command can end with (R124 to R126). -/
def acceptedCodes : Instr → List Nat
  | .gfInv => [0, 2]
  | .solve => [0, 3]
  | .chien => [0, 4]
  | .decode _ => [0, 3, 4]
  | .gfAdd | .gfMul | .gfPow | .encode _ | .syndrome _ | .correct => [0]

theorem acceptedCodes_subset (i : Instr) : acceptedCodes i ⊆ [0, 2, 3, 4] := by
  cases i <;> simp [acceptedCodes]

theorem two_mem_acceptedCodes {i : Instr} : 2 ∈ acceptedCodes i ↔ i = .gfInv := by
  cases i <;> simp [acceptedCodes]

theorem three_mem_acceptedCodes {i : Instr} : 3 ∈ acceptedCodes i ↔ i = .solve ∨ ∃ len, i = .decode len := by
  cases i <;> simp [acceptedCodes]

theorem four_mem_acceptedCodes {i : Instr} : 4 ∈ acceptedCodes i ↔ i = .chien ∨ ∃ len, i = .decode len := by
  cases i <;> simp [acceptedCodes]

theorem DecodeEnds.codeOf_mem {s t : State} {y : Syndromes} (hends : DecodeEnds s t y) : codeOf t ∈ [0, 3, 4] := by
  cases hends with
  | noError _ ht | singular _ _ ht | mismatch _ _ _ _ _ _ ht | corrected _ _ _ _ _ _ ht =>
    simp [ht, ResultCode.value]

theorem wellFormed_eq_false_iff {c : Config} {i : Instr} : i.wellFormed c = false ↔
    (i.opcode.byte = 0x10 ∧ i.len.toNat ≠ c.k) ∨
      ((i.opcode.byte = 0x20 ∨ i.opcode.byte = 0x30) ∧ i.len.toNat ≠ c.n) := by
  cases i <;> simp [Instr.wellFormed, Instr.neededLen, Instr.opcode, Instr.len, Opcode.byte]

/-- A command with the LEN it needs ends with one of its codes. -/
theorem codeOf_mem_acceptedCodes {i : Instr} {s t : State} (hwf : i.wellFormed s.cfg = true) (h : exec i s = .next t) :
    codeOf t ∈ acceptedCodes i := by
  cases i with
  | gfAdd => obtain rfl := execGfAdd_next.mp h; simp [acceptedCodes, ResultCode.value]
  | gfMul => obtain ⟨r, -, rfl⟩ := execGfMul_next.mp h; simp [acceptedCodes, ResultCode.value]
  | gfInv => obtain ⟨-, rfl⟩ | ⟨-, r, -, rfl⟩ := execGfInv_next.mp h <;> simp [acceptedCodes, ResultCode.value]
  | gfPow => obtain rfl := execGfPow_next.mp h; simp [acceptedCodes, ResultCode.value]
  | encode len =>
    obtain ⟨-, rfl⟩ | ⟨hlen, -⟩ := execEncode_next.mp h
    · simp [acceptedCodes, ResultCode.value]
    · exact absurd (by simpa [Instr.wellFormed, Instr.neededLen, Instr.len] using hwf) hlen
  | syndrome len =>
    obtain ⟨-, y, -, rfl⟩ | ⟨hlen, -⟩ := execSyndrome_next.mp h
    · simp [acceptedCodes, ResultCode.value]
    · exact absurd (by simpa [Instr.wellFormed, Instr.neededLen, Instr.len] using hwf) hlen
  | solve =>
    obtain ⟨-, rfl⟩ | ⟨-, -, rfl⟩ | ⟨-, p, -, rfl⟩ := execSolve_next.mp h <;> simp [acceptedCodes, ResultCode.value]
  | chien =>
    obtain ⟨found, -, ⟨-, rfl⟩ | ⟨-, rfl⟩⟩ := execChien_next.mp h <;> simp [acceptedCodes, ResultCode.value]
  | correct => obtain rfl := execCorrect_next.mp h; simp [acceptedCodes, ResultCode.value]
  | decode len =>
    obtain ⟨-, y, -, hends⟩ | ⟨hlen, -⟩ := execDecode_next.mp h
    · exact hends.codeOf_mem
    · exact absurd (by simpa [Instr.wellFormed, Instr.neededLen, Instr.len] using hwf) hlen

/-- A command has another LEN than it needs and changes STATUS alone, or ends with one of its codes. -/
theorem exec_next_code {i : Instr} {s t : State} (h : exec i s = .next t) :
    (i.wellFormed s.cfg = false ∧ t = finish .invalidLength i.opcode.byte s) ∨
      (i.wellFormed s.cfg = true ∧ codeOf t ∈ acceptedCodes i) := by
  cases hwf : i.wellFormed s.cfg with
  | false => exact .inl ⟨rfl, done_next.mp ((exec_of_not_wellFormed hwf).symm.trans h)⟩
  | true => exact .inr ⟨rfl, codeOf_mem_acceptedCodes hwf h⟩

/-- A code other than INVALID_LENGTH is one of the command's own. -/
theorem mem_acceptedCodes_of_codeOf {i : Instr} {s t : State} {code : Nat} (h : exec i s = .next t)
    (hcode : codeOf t = code) (hne : code ≠ 1) : code ∈ acceptedCodes i := by
  obtain ⟨-, rfl⟩ | ⟨-, hmem⟩ := exec_next_code h
  · exact absurd (hcode.symm.trans (codeOf_finish .invalidLength _ s)) hne
  · exact hcode ▸ hmem

theorem codeOf_exec_ne_five {i : Instr} {s t : State} (h : exec i s = .next t) : codeOf t ≠ 5 := fun hcode => by
  simpa using acceptedCodes_subset i (mem_acceptedCodes_of_codeOf h hcode (by decide))

theorem codeOf_exec_eq_one_iff {i : Instr} {s t : State} (h : exec i s = .next t) :
    codeOf t = 1 ↔ i.wellFormed s.cfg = false := by
  obtain ⟨hwf, rfl⟩ | ⟨hwf, hcode⟩ := exec_next_code h
  · exact iff_of_true (codeOf_finish .invalidLength _ s) hwf
  · refine iff_of_false (fun h1 => ?_) (by simp [hwf])
    simpa [h1] using acceptedCodes_subset i hcode

/-- The code of a refused word is that of no command (R122). -/
theorem exec_of_codeOf_ne_five {w : Word} {s t : State} (h : execute w s = .next t) (hcode : codeOf t ≠ 5) :
    ∃ i, decode w = .ok i ∧ exec i s = .next t := by
  obtain hok | ⟨e, -, rfl⟩ := execute_next.mp h
  · exact hok
  · exact absurd (codeOf_finish .illegalCommand _ s) hcode

/-! ### ILLEGAL_COMMAND and INVALID_LENGTH (R122, R123) -/

section
variable {w : Word} {s t : State} (h : execute w s = .next t)
include h

theorem codeOf_execute_eq_five_iff : codeOf t = 5 ↔
    opField w ∉ assignedOps ∨ rsvField w ≠ 0 ∨ (opField w ∉ lengthOps ∧ lenField w ≠ 0) := by
  rw [← decode_error_iff]
  obtain ⟨i, hw, hi⟩ | ⟨e, hw, rfl⟩ := execute_next.mp h
  · exact iff_of_false (codeOf_exec_ne_five hi) (by simp [hw])
  · exact iff_of_true (codeOf_finish .illegalCommand _ s) ⟨e, hw⟩

theorem codeOf_execute_eq_one_iff : codeOf t = 1 ↔ rsvField w = 0 ∧
    ((opField w = 0x10 ∧ (lenField w).toNat ≠ s.cfg.k) ∨
      ((opField w = 0x20 ∨ opField w = 0x30) ∧ (lenField w).toNat ≠ s.cfg.n)) := by
  obtain ⟨i, hw, hi⟩ | ⟨e, hw, rfl⟩ := execute_next.mp h
  · rw [codeOf_exec_eq_one_iff hi, wellFormed_eq_false_iff, byte_of_decode hw, len_of_decode hw]
    exact (and_iff_right (rsv_of_decode hw)).symm
  · refine iff_of_false (by simp [ResultCode.value]) fun ⟨hrsv, hop⟩ => ?_
    have hlength : opField w ∈ lengthOps := by
      obtain ⟨h, -⟩ | ⟨h | h, -⟩ := hop <;> rw [h] <;> decide
    obtain h | h | ⟨h, -⟩ := decode_error_iff.mp ⟨e, hw⟩
    · exact h (mem_assignedOps_of_mem_lengthOps hlength)
    · exact h hrsv
    · exact h hlength

/-- A refused word changes STATUS alone. -/
theorem execute_frame_of_refused (hcode : codeOf t = 5 ∨ codeOf t = 1) :
    exceptStatus t = exceptStatus s ∧ lastOpField t.status = opField w := by
  obtain ⟨i, hw, hi⟩ | ⟨e, hw, rfl⟩ := execute_next.mp h
  · have hwf := (codeOf_exec_eq_one_iff hi).mp (hcode.resolve_left (codeOf_exec_ne_five hi))
    obtain rfl := done_next.mp ((exec_of_not_wellFormed hwf).symm.trans hi)
    exact ⟨rfl, by simp [byte_of_decode hw]⟩
  · exact ⟨rfl, by simp⟩

end

/-- Settles O8: a word that decodes to no command is `finish` with ILLEGAL_COMMAND, a command with another LEN than it
needs `finish` with INVALID_LENGTH, and no other command ends with either code. -/
theorem acceptanceCodesExactly : Obligations.AcceptanceCodesExactly := by
  unfold Obligations.AcceptanceCodesExactly
  exact fun w s t h => ⟨codeOf_execute_eq_five_iff h, codeOf_execute_eq_one_iff h, execute_frame_of_refused h⟩

/-! ### DIVISION_BY_ZERO (R124) -/

/-- Settles O32: the code is GF_INV's alone, which tests for 0 first. -/
theorem divisionByZeroOnlyFromGfInv : Obligations.DivisionByZeroOnlyFromGfInv := by
  unfold Obligations.DivisionByZeroOnlyFromGfInv
  intro w s t h
  obtain ⟨i, hw, hi⟩ | ⟨e, hw, rfl⟩ := execute_next.mp h
  · rw [hw]
    by_cases hgf : i = .gfInv
    · subst hgf
      obtain ⟨h0, rfl⟩ | ⟨h0, r, -, rfl⟩ := execGfInv_next.mp hi
      · exact ⟨iff_of_true (codeOf_finish .divisionByZero _ _) ⟨rfl, h0⟩, fun _ => rfl⟩
      · simp [h0, ResultCode.value]
    · have htwo : codeOf t ≠ 2 := fun h2 =>
        hgf (two_mem_acceptedCodes.mp (mem_acceptedCodes_of_codeOf hi h2 (by decide)))
      exact ⟨iff_of_false htwo fun h => hgf (Except.ok.inj h.1), fun h2 => absurd h2 htwo⟩
  · simp [hw, ResultCode.value]

/-! ### UNCORRECTABLE (R125) -/

section
variable {s t : State}

theorem execSolve_code_eq_three_iff (h : exec .solve s = .next t) :
    codeOf t = 3 ↔ s.syn1 = 0 ∧ ¬ (s.syn2 = 0 ∧ s.syn3 = 0 ∧ s.syn4 = 0) := by
  obtain ⟨h0, rfl⟩ | ⟨h1, h0, rfl⟩ | ⟨h1, p, -, rfl⟩ := execSolve_next.mp h
  · simp [h0, ResultCode.value]
  · exact iff_of_true (codeOf_finish .uncorrectable _ _) ⟨h1, fun h => h0 ⟨h1, h⟩⟩
  · simp [h1, ResultCode.value]

theorem execSolve_uncorrectable (h : exec .solve s = .next t) (hcode : codeOf t = 3) :
    t.det = 0 ∧ t.sigma1 = 0 ∧ t.sigma2 = 0 := by
  obtain ⟨-, rfl⟩ | ⟨h1, -, rfl⟩ | ⟨-, p, -, rfl⟩ := execSolve_next.mp h
  · simp [ResultCode.value] at hcode
  · exact ⟨h1, rfl, rfl⟩
  · simp [ResultCode.value] at hcode

variable {y : Syndromes} (hends : DecodeEnds s t y)
include hends

theorem DecodeEnds.syndromes_eq : (⟨t.syn1, t.syn2, t.syn3, t.syn4⟩ : Syndromes) = y := by
  cases hends with
  | noError _ ht | singular _ _ ht | mismatch _ _ _ _ _ _ ht | corrected _ _ _ _ _ _ ht => subst ht; rfl

theorem DecodeEnds.code_eq_three_iff : codeOf t = 3 ↔ y.s1 = 0 ∧ ¬ (y.s2 = 0 ∧ y.s3 = 0 ∧ y.s4 = 0) := by
  cases hends with
  | noError h ht => simp [ht, h.2, ResultCode.value]
  | singular h h1 ht =>
    exact iff_of_true (ht ▸ codeOf_finish .uncorrectable _ _) ⟨h1, fun h0 => h ⟨h1, h0⟩⟩
  | mismatch h1 _ _ _ _ _ ht | corrected h1 _ _ _ _ _ ht => simp [ht, h1, ResultCode.value]

theorem DecodeEnds.uncorrectable (hcode : codeOf t = 3) :
    (t.det = 0 ∧ t.sigma1 = 0 ∧ t.sigma2 = 0) ∧ t.corr = s.rx ∧ t.errmask = 0 ∧ t.errcnt = 0 := by
  cases hends with
  | singular _ h1 ht => subst ht; exact ⟨⟨h1, rfl, rfl⟩, rfl, rfl, rfl⟩
  | noError _ ht | mismatch _ _ _ _ _ _ ht | corrected _ _ _ _ _ _ ht => simp [ht, ResultCode.value] at hcode

/-- A DECODE that does not report OK leaves RX in CORR. -/
theorem DecodeEnds.corr_of_failure (hcode : codeOf t ≠ 0) : t.corr = s.rx := by
  cases hends with
  | noError _ ht | corrected _ _ _ _ _ _ ht => simp [ht, ResultCode.value] at hcode
  | singular _ _ ht | mismatch _ _ _ _ _ _ ht => subst ht; rfl

end

/-- An accepted DECODE ends in one of its four ways, on the syndromes of RX. -/
theorem decodeEnds_of_exec {len : BitVec 16} {s t : State} (hlen : len.toNat = s.cfg.n)
    (h : exec (.decode len) s = .next t) : ∃ y, syndromesOf s.cfg s.rx = .ok y ∧ DecodeEnds s t y := by
  obtain ⟨-, hends⟩ | ⟨hne, -⟩ := execDecode_next.mp h
  · exact hends
  · exact absurd hlen hne

/-- A DECODE with any other code than INVALID_LENGTH was accepted. -/
theorem decodeEnds_of_code {len : BitVec 16} {s t : State} (hcode : codeOf t ≠ 1)
    (h : exec (.decode len) s = .next t) : ∃ y, syndromesOf s.cfg s.rx = .ok y ∧ DecodeEnds s t y := by
  obtain ⟨-, hends⟩ | ⟨-, rfl⟩ := execDecode_next.mp h
  · exact hends
  · exact absurd (codeOf_finish .invalidLength _ s) hcode

/-- Settles O55: SOLVE and DECODE test S1 after the other syndromes, and no other command has the code. -/
theorem uncorrectableExactlyWhenSingular : Obligations.UncorrectableExactlyWhenSingular := by
  unfold Obligations.UncorrectableExactlyWhenSingular
  intro w s t h
  refine ⟨fun hcode => ?_, fun hw => ?_, fun len hw hlen => ?_⟩
  · obtain ⟨i, hw, hi⟩ := exec_of_codeOf_ne_five h (by omega)
    obtain rfl | ⟨len, rfl⟩ := three_mem_acceptedCodes.mp (mem_acceptedCodes_of_codeOf hi hcode (by decide))
    · exact ⟨.inl hw, execSolve_uncorrectable hi hcode⟩
    · obtain ⟨y, -, hends⟩ := decodeEnds_of_code (by omega) hi
      exact ⟨.inr ⟨len, hw⟩, (hends.uncorrectable hcode).1⟩
  · rw [execute_ok s hw] at h
    refine ⟨execSolve_code_eq_three_iff h, ?_⟩
    rw [execSolve_frame h]
    exact ⟨rfl, rfl, rfl, rfl⟩
  · rw [execute_ok s hw] at h
    obtain ⟨y, hy, hends⟩ := decodeEnds_of_exec hlen h
    obtain rfl := hends.syndromes_eq
    exact ⟨hy, hends.code_eq_three_iff, fun hcode => (hends.uncorrectable hcode).2⟩

/-! ### MISCORRECTION_DETECTED (R126) -/

/-- After a search that failed, or that was not reached, ERRMASK is 0 (R109, R114). -/
theorem errmask_eq_zero_of_failure {i : Instr} {s t : State} (hi : i = .chien ∨ ∃ len, i = .decode len)
    (h : exec i s = .next t) (hcode : codeOf t = 3 ∨ codeOf t = 4) : t.errmask = 0 := by
  obtain rfl | ⟨len, rfl⟩ := hi
  · obtain ⟨found, -, ⟨-, rfl⟩ | ⟨-, rfl⟩⟩ := execChien_next.mp h
    · rfl
    · simp [ResultCode.value] at hcode
  · obtain ⟨y, -, hends⟩ := decodeEnds_of_code (by omega) h
    cases hends with
    | noError _ ht | singular _ _ ht | mismatch _ _ _ _ _ _ ht => subst ht; rfl
    | corrected _ _ _ _ _ _ ht => simp [ht, ResultCode.value] at hcode

theorem execChien_code_eq_four_iff {s t : State} (h : exec .chien s = .next t) :
    codeOf t = 4 ↔ t.errcnt ≠ sigdegOf s.sigma1 s.sigma2 := by
  obtain ⟨found, -, ⟨hd, rfl⟩ | ⟨hd, rfl⟩⟩ := execChien_next.mp h <;> simp [hd, ResultCode.value]

section
variable {s t : State} {y : Syndromes} (hends : DecodeEnds s t y)
include hends

theorem DecodeEnds.code_eq_four_iff : codeOf t = 4 ↔ y.s1 ≠ 0 ∧ t.errcnt ≠ sigdegOf t.sigma1 t.sigma2 := by
  cases hends with
  | noError h ht => simp [ht, h.1, ResultCode.value]
  | singular _ h1 ht => simp [ht, h1, ResultCode.value]
  | mismatch h1 _ _ _ _ hd ht => simp [ht, h1, hd, ResultCode.value]
  | corrected _ _ _ _ _ hd ht => simp [ht, hd, ResultCode.value]

/-- A DECODE that gets as far as the search leaves the locator it searched and the number of its zeros. -/
theorem DecodeEnds.search (hv : Valid s.cfg) (hy : syndromesOf s.cfg s.rx = .ok y) (h1 : y.s1 ≠ 0) :
    t.det = y.s1 ∧ t.sigma1 = y.s1 ∧
      ∃ mask, (∀ i < s.cfg.n, (mask.testBit i = true ↔ IsZeroAt s.cfg t.sigma1 t.sigma2 i)) ∧
        t.errcnt = popcount s.cfg.n mask ∧ (codeOf t = 0 → t.errmask = mask) := by
  have hlt := syndromesOf_lt hv.fieldOk hy
  cases hends with
  | noError h => exact absurd h.1 h1
  | singular _ h => exact absurd h h1
  | mismatch _ p found hp hs hd ht =>
    subst ht
    obtain ⟨hp1, hp2⟩ := locatorOf_lt hv.fieldOk h1 hlt hp
    obtain ⟨-, hcnt, hbit⟩ := scan_answer hv.fieldOk (hp1 ▸ hlt.1) hp2 hs
    exact ⟨rfl, hp1, found.1, hbit, hcnt, by simp [ResultCode.value]⟩
  | corrected _ p found hp hs hd ht =>
    subst ht
    obtain ⟨hp1, hp2⟩ := locatorOf_lt hv.fieldOk h1 hlt hp
    obtain ⟨-, hcnt, hbit⟩ := scan_answer hv.fieldOk (hp1 ▸ hlt.1) hp2 hs
    exact ⟨rfl, hp1, found.1, hbit, hcnt, fun _ => rfl⟩

end

/-- CHIEN leaves the number of the zeros it found, and their mask where it reports OK. -/
theorem execChien_search {s t : State} (hinv : s.Inv) (h : exec .chien s = .next t) :
    ∃ mask, (∀ i < s.cfg.n, (mask.testBit i = true ↔ IsZeroAt s.cfg s.sigma1 s.sigma2 i)) ∧
      t.errcnt = popcount s.cfg.n mask ∧ (codeOf t = 0 → t.errmask = mask) := by
  obtain ⟨hv, hsigma1, hsigma2⟩ := hinv.locator
  obtain ⟨found, hs, hend⟩ := execChien_next.mp h
  obtain ⟨-, hcnt, hbit⟩ := scan_answer hv.fieldOk hsigma1 hsigma2 hs
  obtain ⟨-, rfl⟩ | ⟨-, rfl⟩ := hend
  · exact ⟨found.1, hbit, hcnt, by simp [ResultCode.value]⟩
  · exact ⟨found.1, hbit, hcnt, fun _ => rfl⟩

/-- Settles O56: CHIEN, and DECODE where S1 is not 0, compare the number of zeros found with SIGDEG, and no other
command has the code. -/
theorem miscorrectionExactlyOnRootCountMismatch : Obligations.MiscorrectionExactlyOnRootCountMismatch := by
  unfold Obligations.MiscorrectionExactlyOnRootCountMismatch
  intro w s t hinv h
  rw [hostRead_sigdeg, hostRead_sigdeg]
  refine ⟨fun hcode => ?_, fun hw => ?_, fun len hw hlen => ?_⟩
  · obtain ⟨i, hw, hi⟩ := exec_of_codeOf_ne_five h (by omega)
    have hsearch := four_mem_acceptedCodes.mp (mem_acceptedCodes_of_codeOf hi hcode (by decide))
    refine ⟨?_, errmask_eq_zero_of_failure hsearch hi (.inr hcode)⟩
    obtain rfl | ⟨len, rfl⟩ := hsearch
    · exact .inl hw
    · exact .inr ⟨len, hw⟩
  · rw [execute_ok s hw] at h
    obtain ⟨mask, hbit, hcnt, -⟩ := execChien_search hinv h
    refine ⟨execChien_code_eq_four_iff h, ⟨mask, hbit, hcnt⟩, ?_⟩
    rw [execChien_frame h]
    exact ⟨rfl, rfl, rfl, rfl, rfl, rfl⟩
  · rw [execute_ok s hw] at h
    obtain ⟨y, hy, hends⟩ := decodeEnds_of_exec hlen h
    have hfour := hends.code_eq_four_iff
    have hsearch := hends.search hinv.1 hy
    obtain rfl := hends.syndromes_eq
    refine ⟨hfour, fun h1 => ?_, fun hcode => ?_⟩
    · obtain ⟨-, -, mask, hbit, hcnt, -⟩ := hsearch h1
      exact ⟨mask, hbit, hcnt⟩
    · obtain ⟨hdet, hsigma1, -⟩ := hsearch (hfour.mp hcode).1
      exact ⟨hends.corr_of_failure (by omega), hdet, hsigma1, hy⟩

/-! ### After a command (R46, R141) -/

theorem popcount_zero (w : Nat) : popcount w 0 = 0 := by simp [popcount]

/-- Settles O54: DET is written S1, and ERRMASK the mask of the zeros counted where the command reports OK. -/
theorem resultsAgreeAfterACommand : Obligations.ResultsAgreeAfterACommand := by
  unfold Obligations.ResultsAgreeAfterACommand
  refine ⟨fun s t h => ?_, fun len s t hlen h => ?_, fun i s t hinv hi h =>
    ⟨fun hcode => errmask_eq_zero_of_failure hi h hcode.symm, fun hcode => ?_⟩⟩
  · obtain ⟨-, rfl⟩ | ⟨-, -, rfl⟩ | ⟨-, p, -, rfl⟩ := execSolve_next.mp h <;> rfl
  · obtain ⟨y, -, hends⟩ := decodeEnds_of_exec hlen h
    cases hends with
    | noError h0 ht => subst ht; exact h0.1.symm
    | singular _ _ ht | mismatch _ _ _ _ _ _ ht | corrected _ _ _ _ _ _ ht => subst ht; rfl
  · obtain rfl | ⟨len, rfl⟩ := hi
    · obtain ⟨mask, -, hcnt, hmask⟩ := execChien_search hinv h
      rw [hmask hcode, hcnt]
    · obtain ⟨y, hy, hends⟩ := decodeEnds_of_code (by omega) h
      by_cases h1 : y.s1 = 0
      · cases hends with
        | noError _ ht | singular _ _ ht => subst ht; exact popcount_zero _
        | mismatch h0 | corrected h0 => exact absurd h1 h0
      · obtain ⟨-, -, mask, -, hcnt, hmask⟩ := hends.search hinv.1 hy h1
        rw [hmask hcode, hcnt]

/-- Settles O57: no command reads STATUS; a SOLVE that failed leaves the locator 1, in which the search finds no zero;
and a search that failed leaves the mask 0. -/
theorem standaloneStepsDoNotStop : Obligations.StandaloneStepsDoNotStop := by
  unfold Obligations.StandaloneStepsDoNotStop
  refine ⟨fun i s t st h => ?_, fun s t hinv h hcode => ?_, fun s v => ?_, fun i s t hi h hcode => ?_⟩
  · obtain ⟨code, hstatus⟩ := exec_next_status h
    have ht : t.status = statusWith s.status code i.opcode.byte :=
      congrArg State.status (Host.Outcome.next.inj (h.symm.trans (hstatus s.status)))
    exact ⟨_, hstatus st, rfl, by simp [codeOf, ht]⟩
  · obtain ⟨-, h1, h2⟩ := execSolve_uncorrectable h hcode
    obtain ⟨hv, -⟩ := hinv.exec h
    exact ⟨h1, h2, _, execChien_ok rfl h1 h2 (scan_no_error hv) rfl, codeOf_finish .ok _ _, rfl⟩
  · exact ⟨_, _, hostWrite_addrOf s v (r := .errmask) rfl, execCorrect_next.mpr rfl, rfl⟩
  · have hrx : t.rx = s.rx := by rw [exec_frame h]; rfl
    refine ⟨_, execCorrect_next.mpr rfl, ?_⟩
    rw [finish_corr, errmask_eq_zero_of_failure hi h hcode, Nat.xor_zero, hrx]

end Sys2Proof.Machine
end

section
/-!
The tables (spec/10_state.md R26, R27), products and divisions of binary polynomials (R24, spec/41_encoder.md R87), and
Horner's scheme (spec/42_syndrome.md R93).
-/

namespace Sys2Proof.Machine

/-! ### EXP and LOG (R26, R27) -/

/-- The field elements but 0 are 1 to Q (R27). -/
theorem FieldOk.le_q_iff {c : Config} (h : FieldOk c) {a : Nat} : a ≤ c.q ↔ a < 2 ^ c.m := by
  rw [← h.q_succ, Nat.lt_succ_iff]

/-- Settles O25: the entries below Q are the nonzero field elements, each once, and LOG finds the one index. -/
theorem expAndLogTables : Obligations.ExpAndLogTables := by
  unfold Obligations.ExpAndLogTables
  refine ⟨fun c => ⟨rfl, fun i => ?_⟩, fun c hv => ⟨fun a h1 haq => ?_, fun i hi => ?_, rfl⟩, by decide, by decide⟩
  · rw [expEntry_succ, timesX, Nat.shiftLeft_eq, pow_one]
  · have hf := hv.fieldOk
    obtain ⟨i, hi, rfl⟩ := exists_expEntry hf (Nat.one_le_iff_ne_zero.mp h1) (hf.le_q_iff.mp haq)
    exact ⟨i, hi, logOf_expEntry hf hi, rfl, fun j hj he => expEntry_injOn hf hj hi he⟩
  · have hf := hv.fieldOk
    exact ⟨Nat.one_le_iff_ne_zero.mpr (expEntry_ne_zero hf i), hf.le_q_iff.mpr (expEntry_lt hf i), logOf_expEntry hf hi⟩

/-! ### Products and divisions (R24, R87) -/

theorem length_filter_range_succ (P : Nat → Bool) (n : Nat) :
    ((List.range (n + 1)).filter P).length = ((List.range n).filter P).length + (P n).toNat := by
  rw [List.range_succ, List.filter_append, List.length_append]
  congr 1
  cases hP : P n <;> simp [hP]

/-- Counting further than a predicate holds counts no more. -/
theorem length_filter_range_widen {P : Nat → Bool} {n N : Nat} (hn : n ≤ N) (hP : ∀ j, n ≤ j → P j = false) :
    ((List.range N).filter P).length = ((List.range n).filter P).length := by
  induction N, hn using Nat.le_induction with
  | base => rfl
  | succ N hN ih => rw [length_filter_range_succ, ih, hP N hN]; rfl

/-- The coefficient of x^j in the one polynomial and of x^(i-j) in the other, for the terms of the product at x^i. -/
def termBit (p q i j : Nat) : Bool := decide (j ≤ i) && (q.testBit j && p.testBit (i - j))

theorem testBit_polyMulBits (p q i n : Nat) :
    (polyMulBits p q n).testBit i = (((List.range n).filter (termBit p q i)).length % 2 == 1) := by
  induction n with
  | zero => simp [polyMulBits]
  | succ n ih =>
    have hterm : (if q.testBit n then p <<< n else 0).testBit i = termBit p q i n := by
      cases hq : q.testBit n <;> simp [termBit, hq, Nat.testBit_shiftLeft]
    rw [polyMulBits_succ, Nat.testBit_xor, ih, hterm, length_filter_range_succ]
    obtain h | h := Nat.mod_two_eq_zero_or_one ((List.range n).filter (termBit p q i)).length <;>
      cases termBit p q i n <;> simp [h, Nat.add_mod]

/-- The product is the convolution of the coefficients modulo 2 (R24). -/
theorem testBit_polyMul (p q i : Nat) : (polyMul p q).testBit i =
    (((List.range (i + 1)).filter fun j => q.testBit j && p.testBit (i - j)).length % 2 == 1) := by
  have hfilter : ((List.range (i + 1)).filter fun j => q.testBit j && p.testBit (i - j)) =
      (List.range (i + 1)).filter (termBit p q i) := List.filter_congr fun j hj => by
    rw [termBit, decide_eq_true (Nat.lt_succ_iff.mp (List.mem_range.mp hj)), Bool.true_and]
  have hrange := length_filter_range_widen (Nat.le_max_left (i + 1) (degree q + 1)) (P := termBit p q i) fun j hj => by
    simp [termBit, Nat.not_le.mpr (Nat.lt_of_succ_le hj)]
  have hdegree := length_filter_range_widen (Nat.le_max_right (i + 1) (degree q + 1))
    (P := termBit p q i) fun j hj => by
    have hq : q.testBit j = false :=
      Nat.testBit_lt_two_pow ((lt_two_pow_degree q).trans_le (Nat.pow_le_pow_right (by decide) hj))
    simp [termBit, hq]
  rw [hfilter, ← hrange, hdegree]
  exact testBit_polyMulBits p q i _

/-- Settles O33: a bit of the product is the parity of its terms, degrees add, and the long division answers the one
quotient and remainder. -/
theorem polynomialProductAndDivision : Obligations.PolynomialProductAndDivision := by
  unfold Obligations.PolynomialProductAndDivision
  refine ⟨testBit_polyMul, fun p q => degree_polyMul, fun p g hg => ?_⟩
  have hg0 : g ≠ 0 := Nat.one_le_iff_ne_zero.mp hg
  obtain ⟨hdiv, hlt⟩ := polyDivmod_spec hg0 p
  exact ⟨hdiv.symm, hlt, fun h0 => (degree_lt h0).mpr hlt, fun q r hp hr => polyDivmod_unique hg0 hp.symm hr⟩

/-! ### Horner's scheme (R93) -/

/-- The value of a word at α^la, summed from its low bit up. -/
theorem evalAt_gfExp_eq_foldl {c : Config} (h : FieldOk c) (v w la : Nat) :
    letI := gfField h
    (evalAt (gfExp h la) w v).val =
      (List.range w).foldl (fun acc j => if v.testBit j then gfAdd acc (gfPow c (j * la)) else acc) 0 := by
  let := gfField h
  induction w with
  | zero => rfl
  | succ w ih =>
    rw [List.range_succ, List.foldl_append, ← ih, evalAt_succ, gfExp_pow, Nat.mul_comm la w]
    simp only [List.foldl_cons, List.foldl_nil]
    split
    · rw [gfPow_val h, gfAdd_val h]
    · rw [add_zero]

/-- Settles O38: Horner's scheme answers the value of the word, a sum of powers of α^la. -/
theorem hornerEvaluatesTheSum : Obligations.HornerEvaluatesTheSum := by
  unfold Obligations.HornerEvaluatesTheSum
  intro c v w a la hv ha hla
  obtain ⟨-, -, rfl⟩ := logOf_ok hla
  rw [← evalAt_gfExp_eq_foldl hv.fieldOk]
  exact polyEval_val hv.fieldOk v w (gfExp hv.fieldOk la)

end Sys2Proof.Machine
end

section
/-!
DECODE beyond the radius (spec/46_decode.md R118): where the root count is right the zeros found are the locators of a
pattern with the syndromes of RX, so OK always leaves a codeword, within distance 2 of RX; and where there is one DECODE
finds it.
-/

namespace Sys2Proof.Machine

/-! ### The positions of an error pattern (R15, R75) -/

/-- A word is the pattern of the positions of its 1 bits. -/
theorem exists_positions {e n : Nat} (he : e < 2 ^ n) :
    ∃ ps : List Nat, e = patternOf ps ∧ ps.length = popcount n e ∧ ps.Nodup ∧ ∀ p ∈ ps, p < n ∧ e.testBit p = true := by
  have hnodup : ((List.range n).filter fun i => e.testBit i).Nodup := List.nodup_range.filter _
  refine ⟨_, Nat.eq_of_testBit_eq fun i => ?_, rfl, hnodup, fun p hp => by simpa using hp⟩
  rw [testBit_patternOf, hnodup.count]
  by_cases hi : i < n
  · cases hbit : e.testBit i <;> simp [hi, hbit]
  · simp [hi, Nat.testBit_lt_two_pow (he.trans_le (Nat.pow_le_pow_right (by decide) (Nat.not_lt.mp hi)))]

/-! ### The correction of a right root count (R101, R109) -/

section
variable {c : Config} (hv : Valid c)
include hv

/-- Cramer's rule has the first syndrome as σ1, and its σ2 gives the third one back; the second is the square of the
first (R97). -/
theorem locator_of_syndromes {r : Nat} {y : Syndromes} {p : Nat × Nat} (hy : syndromesOf c r = .ok y) (h1 : y.s1 ≠ 0)
    (hp : locatorOf c y = .ok p) :
    letI := gfField hv.fieldOk
    ∃ a b : Gf c, p = (a.val, b.val) ∧ a ≠ 0 ∧ evalAt (gfExp hv.fieldOk 1) c.n r = a ∧
      evalAt (gfExp hv.fieldOk 3) c.n r = a * b + a ^ 3 := by
  have hf := hv.fieldOk
  let := gfField hf
  obtain rfl := Except.ok.inj (hy.symm.trans (syndromesOf_val hf r))
  set a := evalAt (gfExp hf 1) c.n r
  have ha : a ≠ 0 := fun h0 => h1 (congrArg Gf.val h0)
  have hsquare : evalAt (gfExp hf 2) c.n r = a * a := by rw [← evalAt_square, ← gfExp_double]
  obtain rfl := Except.ok.inj (hp.symm.trans (locatorOf_eq hf _ _ _ ha))
  refine ⟨a, _, rfl, ha, rfl, ?_⟩
  rw [hsquare, mul_left_comm, mul_inv_cancel₀ ha, mul_one]
  linear_combination -gfField_add_self hf (a * a * a)

/-- A word and a pattern with the same first and third syndromes differ by a codeword: the second and fourth are
squares (R97). -/
theorem isCodeword_xor_of_evalAt_eq {r e : Nat} (hr : r < 2 ^ c.n) (he : e < 2 ^ c.n)
    (h : letI := gfField hv.fieldOk
      ∀ i ∈ [1, 3], evalAt (gfExp hv.fieldOk i) c.n r = evalAt (gfExp hv.fieldOk i) c.n e) :
    IsCodeword c (r ^^^ e) := by
  have hf := hv.fieldOk
  let := gfField hf
  have hodd : ∀ i ∈ [1, 3], evalAt (gfExp hf i) c.n (r ^^^ e) = 0 := fun i hi => by
    rw [evalAt_xor (gfField_add_self hf), h i hi, gfField_add_self]
  have hdouble : ∀ i, evalAt (gfExp hf i) c.n (r ^^^ e) = 0 → evalAt (gfExp hf (i * 2)) c.n (r ^^^ e) = 0 :=
    fun i hi => by rw [gfExp_double, evalAt_square, hi, mul_zero]
  have h1 := hodd 1 (by decide)
  have h2 := hdouble 1 h1
  exact isCodeword_of_evalAt_eq_zero hv (Nat.xor_lt_two_pow hr he)
    (by simpa using ⟨h1, h2, hodd 3 (by decide), hdouble 2 h2⟩)

/-- The same where the pattern has the power sums of x and y, and the word the syndromes whose locator is x + y, xy. -/
theorem isCodeword_xor_of_powerSums {r e : Nat} (hr : r < 2 ^ c.n) (he : e < 2 ^ c.n) {x y : Gf c}
    (h1 : letI := gfField hv.fieldOk; evalAt (gfExp hv.fieldOk 1) c.n r = x + y)
    (h3 : letI := gfField hv.fieldOk; evalAt (gfExp hv.fieldOk 3) c.n r = (x + y) * (x * y) + (x + y) ^ 3)
    (hsum : letI := gfField hv.fieldOk; ∀ i ≠ 0, evalAt (gfExp hv.fieldOk i) c.n e = x ^ i + y ^ i) :
    IsCodeword c (r ^^^ e) := by
  have hf := hv.fieldOk
  let := gfField hf
  refine isCodeword_xor_of_evalAt_eq hv hr he fun i hi => ?_
  rw [hsum i (by rintro rfl; simp at hi)]
  obtain rfl | rfl : i = 1 ∨ i = 3 := by simpa using hi
  · rw [h1, pow_one, pow_one]
  · rw [h3]
    linear_combination 2 * gfField_add_self hf (x * y * (x + y))

/-- The zeros of a locator with the right root count make a pattern that takes RX to a codeword. -/
theorem isCodeword_xor_of_scan {r : Nat} (hr : r < 2 ^ c.n) {a b : Gf c} {found : Nat × Nat}
    (ha : letI := gfField hv.fieldOk; a ≠ 0)
    (h1 : letI := gfField hv.fieldOk; evalAt (gfExp hv.fieldOk 1) c.n r = a)
    (h3 : letI := gfField hv.fieldOk; evalAt (gfExp hv.fieldOk 3) c.n r = a * b + a ^ 3)
    (hs : scan c a.val b.val c.n = .ok found) (hd : found.2 = sigdegOf a.val b.val) :
    IsCodeword c (r ^^^ found.1) ∧ popcount c.n found.1 ≤ 2 := by
  have hf := hv.fieldOk
  have hn := hv.chkN.2
  let := gfField hf
  have ha0 : a.val ≠ 0 := fun h0 => ha (Gf.ext h0)
  obtain ⟨hlt, hcnt, hbit⟩ := scan_answer hf a.lt b.lt hs
  obtain ⟨ps, hpattern, hlength, hnodup, hps⟩ := exists_positions hlt
  have hzero : ∀ p ∈ ps, p < c.n ∧ IsZeroAt c a.val b.val p := fun p hp =>
    ⟨(hps p hp).1, (hbit p (hps p hp).1).mp (hps p hp).2⟩
  rw [sigdegOf_of_ne_zero ha0] at hd
  rw [← hcnt, hd] at hlength ⊢
  refine ⟨?_, by split <;> omega⟩
  by_cases hb : b.val = 0
  · obtain ⟨p, rfl⟩ := List.length_eq_one_iff.mp (hlength.trans (if_neg (not_not.mpr hb)))
    obtain ⟨hp, hzp⟩ := hzero p (by simp)
    obtain rfl : b = 0 := Gf.ext hb
    have hroot := isZeroAt_sum_product hf a 0 (hp.le.trans hn)
    rw [add_zero, mul_zero, or_iff_left (gfExp_ne_zero hf p)] at hroot
    obtain rfl := hroot.mp hzp
    refine isCodeword_xor_of_powerSums hv hr hlt (y := 0) (by rw [h1, add_zero]) (by rw [h3]; ring) fun i hi => ?_
    rw [hpattern, patternOf_one, evalAt_gfExp_flip hf hp, zero_pow hi, add_zero]
  · obtain ⟨p, q, rfl⟩ := List.length_eq_two.mp (hlength.trans (if_pos hb))
    obtain ⟨hp, hzp⟩ := hzero p (by simp)
    obtain ⟨hq, hzq⟩ := hzero q (by simp)
    have hother : gfExp hf p = a + gfExp hf q :=
      (eq_or_eq_add_of_isZeroAt hf (hp.le.trans hn) (hq.le.trans hn) hzp hzq).resolve_left fun he =>
        (by simpa using hnodup : p ≠ q) (gfExp_inj hf (hp.trans_le hn) (hq.trans_le hn) he)
    have hmonic := (isZeroAt_iff_monic hf a b (hq.le.trans hn)).mp hzq
    have hsum : a = gfExp hf p + gfExp hf q := by
      linear_combination -hother - gfField_add_self hf (gfExp hf q)
    have hproduct : b = gfExp hf p * gfExp hf q := by
      linear_combination hmonic - gfExp hf q * hsum - gfField_add_self hf (gfExp hf p * gfExp hf q) -
        gfField_add_self hf (gfExp hf q * gfExp hf q)
    subst hsum hproduct
    refine isCodeword_xor_of_powerSums hv hr hlt h1 h3 fun i _ => ?_
    rw [hpattern, patternOf_two, evalAt_xor (gfField_add_self hf), evalAt_gfExp_flip hf hp, evalAt_gfExp_flip hf hq]

end

/-! ### The outcomes (R118) -/

/-- A DECODE that reports OK leaves a codeword, within distance 2 of RX. -/
theorem DecodeEnds.codeword_of_ok {s t : State} {y : Syndromes} (hv : Valid s.cfg) (hrx : s.rx < 2 ^ s.cfg.n)
    (hy : syndromesOf s.cfg s.rx = .ok y) (hends : DecodeEnds s t y) (hcode : codeOf t = 0) :
    IsCodeword s.cfg t.corr ∧ popcount s.cfg.n (t.corr ^^^ s.rx) ≤ 2 := by
  cases hends with
  | noError h ht =>
    subst ht
    obtain ⟨y1, y2, y3, y4⟩ := y
    obtain ⟨rfl, rfl, rfl, rfl⟩ := h
    exact ⟨isCodeword_of_syndromesOf_eq_zero hv hrx hy, by simp [popcount_zero]⟩
  | singular _ _ ht | mismatch _ _ _ _ _ _ ht => simp [ht, ResultCode.value] at hcode
  | corrected h1 p found hp hs hd ht =>
    subst ht
    obtain ⟨a, b, rfl, ha, h1, h3⟩ := locator_of_syndromes hv hy h1 hp
    rw [finish_corr, Nat.xor_comm s.rx, Nat.xor_xor_cancel_right, Nat.xor_comm found.1]
    exact isCodeword_xor_of_scan hv hrx ha h1 h3 hs hd

/-- Within distance 2 of a codeword DECODE reports OK. -/
theorem execDecode_ok_of_near {len : BitVec 16} {s t : State} (hv : Valid s.cfg) (hlen : len.toNat = s.cfg.n)
    (hrx : s.rx < 2 ^ s.cfg.n) {u : Nat} (hw : IsCodeword s.cfg u) (hnear : popcount s.cfg.n (u ^^^ s.rx) ≤ 2)
    (h : exec (.decode len) s = .next t) : codeOf t = 0 := by
  obtain ⟨ps, hpattern, hlength, hnodup, hps⟩ := exists_positions (Nat.xor_lt_two_pow hw.1 hrx)
  have hpattern : s.rx = u ^^^ patternOf ps := by rw [← hpattern, Nat.xor_xor_cancel_left]
  obtain ⟨t', ht', hcode, -⟩ := execDecode_corrects hv hlen hw hnodup (hlength ▸ hnear)
    (fun p hp => (hps p hp).1) hpattern
  rwa [Host.Outcome.next.inj (h.symm.trans ht')]

/-- Settles O53: DECODE reports OK only where it leaves a codeword within distance 2 of RX, which is then not v, and it
does report OK where there is one. The worked word is 0x77E2 with errors at 9 and 13. -/
theorem beyondTheRadiusThreeOutcomes : Obligations.BeyondTheRadiusThreeOutcomes := by
  unfold Obligations.BeyondTheRadiusThreeOutcomes
  refine ⟨fun len s v ⟨hv, ⟨_, _, hrx, _⟩, _⟩ hlen _ hfar => ?_, fun s hc hrx => ?_⟩
  · obtain ⟨y, t, hy, hends⟩ := exists_decodeEnds hv
    have ht := execDecode_next.mpr (.inl ⟨hlen, y, hy, hends⟩)
    have hcodes : codeOf t = 0 ∨ codeOf t = 3 ∨ codeOf t = 4 := by simpa using hends.codeOf_mem
    have hok : codeOf t = 0 →
        IsCodeword s.cfg t.corr ∧ t.corr ≠ v ∧ popcount s.cfg.n (t.corr ^^^ s.rx) ≤ 2 := fun hcode => by
      obtain ⟨hw, hnear⟩ := hends.codeword_of_ok hv hrx hy hcode
      refine ⟨hw, fun he => ?_, hnear⟩
      rw [he, Nat.xor_comm] at hnear
      omega
    refine ⟨t, ht, ?_, fun hcode => ⟨t.corr, hok hcode⟩,
      fun ⟨u, hw, _, hnear⟩ => execDecode_ok_of_near hv hlen hrx hw hnear ht⟩
    obtain hcode | hcode | hcode := hcodes
    · exact .inr (.inr ⟨hcode, hok hcode⟩)
    · exact .inl ⟨hcode, hends.corr_of_failure (by omega)⟩
    · exact .inr (.inl ⟨hcode, hends.corr_of_failure (by omega)⟩)
  · have hv : Valid s.cfg := by rw [hc]; decide
    have hw : IsCodeword s.cfg 0x77E2 := by rw [hc]; decide
    obtain ⟨t, ht, hcode, hcorr, hmask⟩ := execDecode_two_errors (len := 15) hv (by rw [hc]; rfl) hw (p := 9) (r := 13)
      (by rw [hc]; decide) (by rw [hc]; decide) (by decide) hrx
    exact ⟨t, ht, hcode, hmask, hcorr⟩

end Sys2Proof.Machine
end
